-- ==== Sys2Proof/Word.lean ====
section
/-!
DEFINITION. The value types of the block: bytes, coefficients, the three polynomial types, scalar words and
command words. Widths are those of spec/00_scope.md R3, R6, R9 and spec/10_state.md R21 to R29.
-/

namespace Sys2Proof

/-- A byte of `MEM` (R50). -/
abbrev Byte := BitVec 8

/-- The storage cell of a scalar register. A register holds a W-bit word, W being 32 or 64 (R6, R29); the word stands
in the low W bits of the cell, and every read and write goes through the accessors of Machine/Operands.lean, which keep
only those bits (DESIGN CHOICE, safe, log entry 3). -/
abbrev Word := BitVec 64

/-- A command word of `CMD` (R51, R70). -/
abbrev CommandWord := BitVec 32

/-- A register number within one of the four files of eight registers (R21, R23, R26, R29). -/
abbrev Reg := Fin 8

/-- A BinaryPoly: 701 coefficients in GF(2), bit i the coefficient of x^i (R21). -/
abbrev BinaryPoly := BitVec 701

/-- A TernaryPoly: the two bit planes sign and abs; coefficient i is the pair of their bits i (R23, R24). -/
structure TernaryPoly where
  /-- the sign plane: bit i is 1 exactly when coefficient i is -1 -/
  s : BinaryPoly
  /-- the absolute-value plane: bit i is 1 exactly when coefficient i is not 0 -/
  a : BinaryPoly
  deriving DecidableEq, Repr, Inhabited

/-- One coefficient of a ModQPoly, a 16-bit pattern (R28, R160). -/
abbrev Coeff := BitVec 16

/-- The 701 coefficients of a ModQPoly without its padding. -/
abbrev Coeffs := Vector Coeff 701

/-- A ModQPoly as a register holds it: 704 slots of 16 bits, slots 701 to 703 the padding (R26). -/
abbrev ModQPoly := Vector Coeff 704

end Sys2Proof
end

