-- ==== Sys2Proof/Machine/Poly.lean ====
section
/-!
DEFINITION. Building bit vectors and coefficient lists position by position, and reading them at any position: every
polynomial command is written from these, so that a rule's "for i in …" reads as one function of i (R9, R10, R223).
-/

namespace Sys2Proof.Machine

/-- The number whose bit i, for i below n, is `f i`. -/
def natOfBits (f : Nat → Bool) : Nat → Nat
  | 0 => 0
  | n + 1 => natOfBits f n + 2 ^ n * (f n).toNat

/-- The n-bit vector whose bit i is `f i`. -/
def bitsOf (n : Nat) (f : Nat → Bool) : BitVec n := BitVec.ofNat n (natOfBits f n)

/-- The list of n values whose element i is `f i`. -/
def tabulate {α : Type} (n : Nat) (f : Nat → α) : Vector α n := ⟨⟨(List.range n).map f⟩, by simp⟩

/-- Element i of a list of 16-bit patterns; a position outside it reads as 0. -/
def coef {n : Nat} (v : Vector Coeff n) (i : Nat) : Coeff := v.toArray.getD i 0

/-- The 701 coefficients of a register's value: its padding is ignored (R27). -/
def dropPadding (v : ModQPoly) : Coeffs := tabulate 701 fun i => coef v i

/-- A register's value with these coefficients: slots 701, 702 and 703 are 0 (R27). -/
def withPadding (c : Coeffs) : ModQPoly := tabulate 704 fun i => coef c i

/-- `bcast(bit)` of R12: all 701 bits equal to the bit. -/
def bcast (bit : Bool) : BinaryPoly := if bit then BitVec.allOnes 701 else 0

end Sys2Proof.Machine
end

