-- ==== Sys2Proof/Config.lean ====
section
/-!
DEFINITION. What an implementation fixes (the parameters of spec/00_scope.md R6, which the state carries so that every
statement about every state holds for every choice of them) and the free values: constants with no body, of which
nothing can be proved.
-/

namespace Sys2Proof

/-- The parameter W of R6: the document fixes no word width and the spec leaves W open in 32 or 64 (D2). -/
inductive WordWidth where
  | w32
  | w64
  deriving DecidableEq, Repr, Inhabited

/-- W as a number of bits. -/
def WordWidth.bits : WordWidth → Nat
  | .w32 => 32
  | .w64 => 64

/-- The open parameters of R6 and R39, fixed for a run. No step and no host move changes them. -/
structure Params where
  /-- W -/
  width : WordWidth
  /-- MEM_BYTES, the size of the data memory in bytes -/
  memBytes : Nat
  /-- CMD_WORDS, the size of the command memory in words -/
  cmdWords : Nat
  /-- SAMPLE_BYTE_SIGNED, whether the sampler reads a byte as a signed number -/
  sampleByteSigned : Bool
  deriving DecidableEq, Repr

/-- The ranges R6 allows: MEM_BYTES in 1 to 65536 and CMD_WORDS in 1 to 65535. -/
abbrev Params.Legal (p : Params) : Prop :=
  1 ≤ p.memBytes ∧ p.memBytes ≤ 65536 ∧ 1 ≤ p.cmdWords ∧ p.cmdWords ≤ 65535

/-- The defaults of R6, with the W = 64 that spec/95_test_vectors.md takes where it says nothing else
(DESIGN CHOICE, unsafe for statements about `State.reset` alone, log entry 1: the spec favours neither width). -/
def Params.standard : Params :=
  { width := .w64, memBytes := 8192, cmdWords := 1024, sampleByteSigned := true }

/-- `TMUL_INVALID` of R148 (U2, D29): the product of two ternary registers of which at least one holds the invalid
pair. A free value: nothing is known of it (DESIGN CHOICE, safe, log entry 4). -/
opaque Config.tmulInvalid : TernaryPoly → TernaryPoly → TernaryPoly

/-- What the byte of `MEM` at an address holds before anything has written it (R38, R256: unspecified after power-up,
and a model must not assume zero). A free value (DESIGN CHOICE, log entry 5). -/
opaque Config.powerUpByte : Nat → Byte

/-- What the word of `CMD` at an index holds before the host has written it (R38, R256). A free value (DESIGN CHOICE, log entry 5). -/
opaque Config.powerUpCommand : Nat → CommandWord

end Sys2Proof
end

