-- ==== Sys2Proof/Syntax.lean ====
section
/-!
DEFINITION. The commands of the block, one constructor for each of the 52 rows of spec/opcode_table.json (R75). The
operands stand in the order fd, fa, fb, fc, imm of R79; a register operand is a number 0 to 7 of the file its name says
(wd a scalar, bd a binary, td a ternary, qd a mod-Q register), so that the reserved values 8 to 15 of R73 cannot be
written down here: they are refused by the decoder.
-/

namespace Sys2Proof

/-- A command of the block (R75). -/
inductive Instr where
  /-- HALT, R217 -/
  | halt
  /-- WLI, R94 -/
  | wli (wd : Reg) (imm : BitVec 16)
  /-- WBREV, R95 -/
  | wbrev (wd wa : Reg)
  /-- WLSB, R96 -/
  | wlsb (wd wa : Reg)
  /-- CTSEL, R97 -/
  | ctsel (wd wm wa wb : Reg)
  /-- CTISZ, R98 -/
  | ctisz (wd wa : Reg)
  /-- CTEQ, R99 -/
  | cteq (wd wa wb : Reg)
  /-- CTMEMEQ, R100 -/
  | ctmemeq (wd wa wb wc : Reg)
  /-- CTBSEL, R101 -/
  | ctbsel (wm wa wb wc : Reg)
  /-- BZERO, R111 -/
  | bzero (bd : Reg)
  /-- BLSH1, R112 -/
  | blsh1 (bd : Reg)
  /-- BRSH1, R113 -/
  | brsh1 (bd : Reg)
  /-- BCSWAP, R114 -/
  | bcswap (ba bb wm : Reg)
  /-- BFMADD, R115 -/
  | bfmadd (bd bs wm : Reg)
  /-- BMODPHI, R116 -/
  | bmodphi (bd : Reg)
  /-- BREV700, R117 -/
  | brev700 (bd bs : Reg)
  /-- BCLRTOP, R118 -/
  | bclrtop (bd : Reg)
  /-- BINV, R120 -/
  | binv (bd bs : Reg)
  /-- TZERO, R136 -/
  | tzero (td : Reg)
  /-- TLSH1, R137 -/
  | tlsh1 (td : Reg)
  /-- TRSH1, R138 -/
  | trsh1 (td : Reg)
  /-- TCSWAP, R139 -/
  | tcswap (ta tb wm : Reg)
  /-- TADD, R140 -/
  | tadd (td ta tb : Reg)
  /-- TSUB, R141 -/
  | tsub (td ta tb : Reg)
  /-- TCMUL, R142 -/
  | tcmul (td ta tb : Reg)
  /-- TNEG, R143 -/
  | tneg (td : Reg)
  /-- TMULC, R144 -/
  | tmulc (td wms wma : Reg)
  /-- TFMSUB, R145 -/
  | tfmsub (td ts wms wma : Reg)
  /-- TMODPHI, R146 -/
  | tmodphi (td : Reg)
  /-- TREV700, R147 -/
  | trev700 (td ts : Reg)
  /-- TMUL, R148 -/
  | tmul (td ta tb : Reg)
  /-- TINV, R151 -/
  | tinv (td ts : Reg)
  /-- QNORM, R161 -/
  | qnorm (qd : Reg)
  /-- QANORM, R162 -/
  | qanorm (qs : Reg)
  /-- QCLAMP, R163 -/
  | qclamp (qd : Reg)
  /-- QMODPHI, R164 -/
  | qmodphi (qd : Reg)
  /-- QMULXM1, R165 -/
  | qmulxm1 (qd : Reg)
  /-- QMUL, R167 -/
  | qmul (qd qa qb : Reg)
  /-- QINV, R169 -/
  | qinv (qd qs : Reg)
  /-- QADD, R171 -/
  | qadd (qd qa qb : Reg)
  /-- QSUB, R172 -/
  | qsub (qd qa qb : Reg)
  /-- QSAMPLE, R189 -/
  | qsample (qd : Reg) (imm : BitVec 16)
  /-- QSAMPLEP, R190 -/
  | qsamplep (qd : Reg) (imm : BitVec 16)
  /-- QLIFT, R193 -/
  | qlift (qd qs : Reg)
  /-- QMARSH, R197 -/
  | qmarsh (qs : Reg) (imm : BitVec 16)
  /-- QUNMARSH, R198 -/
  | qunmarsh (qd wk : Reg) (imm : BitVec 16)
  /-- QMARSH3, R199 -/
  | qmarsh3 (qs : Reg) (imm : BitVec 16)
  /-- Q2B, R211 -/
  | q2b (bd qs : Reg)
  /-- B2Q, R212 -/
  | b2q (qd bs : Reg)
  /-- Q2T, R213 -/
  | q2t (td qs : Reg)
  /-- T2Q, R214 -/
  | t2q (qd ts : Reg)
  /-- Q2TC, R215 -/
  | q2tc (td qs wk : Reg)
  deriving DecidableEq, Repr

end Sys2Proof
end

