-- ==== Sys2Proof/Machine/State.lean ====
section
/-!
DEFINITION. The state of the block as plain data (R20): the four register files, `pc`, the control registers, the two
memories and the parameters; the reasons a move of the model can stop; and the state after power-up and reset (R38).
-/

namespace Sys2Proof.Machine

/-- `STATUS.STATE` (R32, R257). -/
inductive RunState where
  /-- 0: reset, not started -/
  | idle
  /-- 1: taking steps -/
  | run
  /-- 2: a HALT was executed -/
  | halted
  /-- 3: a fault was raised -/
  | faulted
  deriving DecidableEq, Repr

/-- The causes of R231. Raising one is an effect on the state (R236), not an end of the model. -/
inductive FaultCause where
  /-- 1, ILLEGAL_OPCODE (R232) -/
  | illegalOpcode
  /-- 2, ILLEGAL_FIELD (R233) -/
  | illegalField
  /-- 3, MEM_RANGE (R234) -/
  | memRange
  /-- 4, MASK_NONCANONICAL (R235) -/
  | maskNoncanonical
  /-- 5, PC_RANGE (R237) -/
  | pcRange
  deriving DecidableEq, Repr

/-- Why the model stops where the spec names no effect. The block's own faults are not here: they are next states with
`CAUSE` and `EPC` written (R236). No command and no step ends in one of these. -/
inductive Fault where
  /-- Raised by a host access (Machine/HostPort.lean) to a byte of `MEM` at or above MEM_BYTES or to a word of `CMD` at or
  above CMD_WORDS: R259 gives the host no such access. Safe: the model stops where the spec has no behaviour. -/
  | noSuchAddress (address : Nat)
  deriving DecidableEq, Repr

/-- Why the model refuses a move. No step of the block is refused. -/
inductive Refusal where
  /-- The instruction has no meaning in the model yet; raised by exec's arm only. Safe. No arm raises it now. -/
  | notModelled (mnemonic : String)
  /-- Raised by a host access other than reset while STATE is RUN: "a host access while STATE = RUN is outside the model; it
  is not a move of the model" (R259, U13). Safe. -/
  | hostAccessWhileRunning
  /-- Raised by a host write of a register in HALTED or FAULTED: R259 allows it in IDLE only. Safe. -/
  | hostRegisterWriteNotIdle
  /-- Raised by a host write of `STATUS` with a 1 in the AFAIL bit: R32 says only that writing 0 has no effect. Safe. -/
  | hostStatusWriteUnstated
  deriving DecidableEq, Repr

/-- The data memory `MEM` as its written bytes, addresses strictly rising (R50). An unlisted address holds no byte of the
list's; what it reads as is `State.readByte` of Machine/Ops.lean. -/
abbrev Memory := List Host.Cell

/-- The command memory `CMD` as its written words, indices strictly rising (R51). -/
abbrev CmdMemory := List (Nat × CommandWord)

/-- The complete architectural state (R20), the command memory, which the spec counts as program text (R39; DESIGN CHOICE, safe, log
entry 2), and the parameters of R6 (DESIGN CHOICE, log entry 1). -/
structure State where
  /-- the open parameters of R6, fixed for a run (R39) -/
  params : Params
  /-- binary registers b0 to b7 (R21) -/
  b : Vector BinaryPoly 8
  /-- ternary registers t0 to t7 (R23) -/
  t : Vector TernaryPoly 8
  /-- mod-Q registers q0 to q7, padding included (R26) -/
  q : Vector ModQPoly 8
  /-- scalar registers w0 to w7, each word in the low W bits of its cell (R29) -/
  w : Vector Word 8
  /-- the index of the command being executed (R30) -/
  pc : BitVec 16
  /-- `STATUS.STATE`, bits 1:0 of `STATUS` (R32) -/
  runState : RunState
  /-- `STATUS.AFAIL`, bit 2 of `STATUS` (R32, R33); bits 7:3 are hardwired 0 and hold nothing -/
  afail : Bool
  /-- `CAUSE` (R34) -/
  cause : BitVec 8
  /-- `EPC` (R35) -/
  epc : BitVec 16
  /-- `MEM` (R36, R50) -/
  mem : Memory
  /-- `CMD` (R36, R51) -/
  cmd : CmdMemory
  deriving DecidableEq, Repr

/-- What a meaning and a step answer. -/
abbrev StepResult := Host.Outcome State Fault Refusal

/-- Power-up followed by reset (R38, R255), for given parameters: every register 0, `pc` 0, `STATUS` 0, `CAUSE` and `EPC` 0,
and neither memory written yet. -/
def State.resetWith (p : Params) : State :=
  { params := p
    b := Vector.replicate 8 0
    t := Vector.replicate 8 ⟨0, 0⟩
    q := Vector.replicate 8 (Vector.replicate 704 0)
    w := Vector.replicate 8 0
    pc := 0
    runState := .idle
    afail := false
    cause := 0
    epc := 0
    mem := []
    cmd := [] }

/-- The machine right after reset (R38), with the default parameters. -/
def State.reset : State := State.resetWith Params.standard

end Sys2Proof.Machine
end

