-- ==== Sys2Proof/Machine/Ops.lean ====
section
/-!
DEFINITION. The named operations over registers and memory, raising a fault, and ending a command.
-/

namespace Sys2Proof.Machine

/-! ### Cells of a memory held as a list -/

/-- The value listed at a position, if any. -/
def cellLookup {α : Type} : List (Nat × α) → Nat → Option α
  | [], _ => none
  | (k, v) :: rest, a => if k = a then some v else cellLookup rest a

/-- The list with a value written at a position, positions kept strictly rising. -/
def cellWrite {α : Type} : List (Nat × α) → Nat → α → List (Nat × α)
  | [], a, x => [(a, x)]
  | (k, v) :: rest, a, x =>
    if a < k then (a, x) :: (k, v) :: rest
    else if a = k then (a, x) :: rest
    else (k, v) :: cellWrite rest a x

/-- The canonical form of a memory: positions strictly rising, so no position twice. An unlisted position holds no value
of the list's, so no entry equals what an unlisted one holds (DESIGN CHOICE, log entry 5). -/
abbrev Memory.wf {α : Type} (m : List (Nat × α)) : Prop := m.Pairwise fun c d => c.1 < d.1

/-! ### Data memory -/

/-- One byte of `MEM` (R50, R59): the byte last written, or the free power-up value (R256). The one definition of what an
unlisted address reads as. -/
def State.readByte (s : State) (a : Nat) : Byte := (cellLookup s.mem a).getD (Config.powerUpByte a)

/-- `MEM` with bytes written from an address upward, element 0 at the lowest address (R11). -/
def writeCells (m : Memory) (a : Nat) : List Byte → Memory
  | [] => m
  | v :: rest => writeCells (cellWrite m a v) (a + 1) rest

/-- `MemRead(addr, n)` of R11 once its range check has passed. -/
def State.memRead (s : State) (a n : Nat) : List Byte := (List.range n).map fun i => s.readByte (a + i)

/-- `MemWrite(addr, n, bytes)` of R11 once its range check has passed. -/
def State.memWrite (s : State) (a : Nat) (bytes : List Byte) : State := { s with mem := writeCells s.mem a bytes }

/-- The range check of R54, on unbounded integers: an empty range always passes. -/
abbrev State.InRange (s : State) (a len : Nat) : Prop := len = 0 ∨ a + len ≤ s.params.memBytes

/-! ### Registers -/

/-- The coefficients of a mod-Q register, padding ignored (R27). -/
def State.coeffs (s : State) (r : Reg) : Coeffs := dropPadding s.q[r]

/-- Write a binary register (R21). -/
def State.setB (s : State) (r : Reg) (v : BinaryPoly) : State := { s with b := s.b.set r v }

/-- Write a ternary register (R23). -/
def State.setT (s : State) (r : Reg) (v : TernaryPoly) : State := { s with t := s.t.set r v }

/-- Write the coefficients of a mod-Q register, its padding becoming 0 (R27). -/
def State.setCoeffs (s : State) (r : Reg) (c : Coeffs) : State := { s with q := s.q.set r (withPadding c) }

/-! ### Ending a command -/

/-- The code `CAUSE` records (R231). -/
def FaultCause.code : FaultCause → BitVec 8
  | .illegalOpcode => 1
  | .illegalField => 2
  | .memRange => 3
  | .maskNoncanonical => 4
  | .pcRange => 5

/-- `raise Fault(c)` (R236): `CAUSE` and `EPC` written, STATE becomes FAULTED, nothing else changes. There is no return
from it: reset is the only way out (R239). -/
def State.raiseFault (c : FaultCause) (s : State) : State :=
  { s with cause := c.code, epc := s.pc, runState := .faulted }

/-- `pc <- pc + 1` (R30, R81), modulo 2^16 by its type; within legal parameters it never wraps (DEDUCED, safe, log
entry 17). -/
def State.advance (s : State) : State := { s with pc := s.pc + 1 }

/-- The end of every command but `HALT` that did not fault: the written state with `pc` moved on (R81). -/
def retire (s : State) : StepResult := .next s.advance

/-- The end of a command that faults: the state before it with the fault raised, and no other effect (R236; DEDUCED, safe, log
entry 8). -/
def takeFault (c : FaultCause) (s : State) : StepResult := .next (s.raiseFault c)

end Sys2Proof.Machine
end

