-- ==== Sys2Proof/Machine/Flags.lean ====
section
/-!
DEFINITION. The one flag, `STATUS.AFAIL` (R31, R33), and the view of `STATUS` as the 8-bit register the host reads (R32).
-/

namespace Sys2Proof.Machine

/-- A debug assertion: AFAIL becomes 1 where it failed and is otherwise unchanged; it is sticky (R33, R242). -/
def State.noteAssertion (s : State) (failed : Bool) : State := { s with afail := s.afail || failed }

/-- The code of STATE (R32). -/
def RunState.code : RunState → BitVec 2
  | .idle => 0
  | .run => 1
  | .halted => 2
  | .faulted => 3

/-- `STATUS` as the host reads it (R32): bits 1:0 STATE, bit 2 AFAIL, bits 7:3 hardwired 0. -/
def State.status (s : State) : BitVec 8 := 0#5 ++ BitVec.ofBool s.afail ++ s.runState.code

end Sys2Proof.Machine
end

