-- ==== Sys2Proof/Machine/Operands.lean ====
section
/-!
DEFINITION. The operand forms: scalar registers as W-bit words, masks, ternary scalars, immediates, and addresses
(R29, R72, R74, R90 to R93, R220).
-/

namespace Sys2Proof.Machine

/-- `ONES_W` (R9): the low W bits set. -/
def onesW : WordWidth → Word
  | .w32 => 0xFFFFFFFF#64
  | .w64 => 0xFFFFFFFFFFFFFFFF#64

/-- `ONES_W` of this state's W. -/
def State.ones (s : State) : Word := onesW s.params.width

/-- Read a scalar register: its W bits (R29). -/
def State.readW (s : State) (r : Reg) : Word := s.w[r] &&& s.ones

/-- Write a scalar register: the W bits of the value (R29). -/
def State.setW (s : State) (r : Reg) (v : Word) : State := { s with w := s.w.set r (v &&& s.ones) }

/-- The mask of a condition: `ONES_W` for true, 0 for false (R31). -/
def State.maskOf (s : State) (cond : Bool) : Word := if cond then s.ones else 0

/-- `is_canonical(w)` of R93, for the word a scalar register holds. -/
def State.canonicalMask (s : State) (r : Reg) : Bool := s.readW r == 0 || s.readW r == s.ones

/-- `word_reverse(w)` of R91 at width W: bit i is bit W - 1 - i. -/
def wordReverse (width : WordWidth) (w : Word) : Word :=
  bitsOf 64 fun i => decide (i < width.bits) && w.getLsbD (width.bits - 1 - i)

/-- `lsb_to_all(w)` of R92. -/
def State.lsbToAll (s : State) (w : Word) : Word := s.maskOf (w.getLsbD 0)

/-- The mask of `BFMADD` over the lanes: bit i is bit i mod W of the word (R115, R22). -/
def maskLanes (width : WordWidth) (m : Word) : BinaryPoly := bitsOf 701 fun i => m.getLsbD (i % width.bits)

/-- A ternary scalar from two scalar registers, only bit 0 of each used, broadcast to all lanes (R144). -/
def State.scalarT (s : State) (ms ma : Reg) : TernaryPoly :=
  ⟨bcast ((s.readW ms).getLsbD 0), bcast ((s.readW ma).getLsbD 0)⟩

/-- `sext_W(imm)` (R74): sign extension, of which `State.setW` keeps W bits. -/
def signedImm (imm : BitVec 16) : Word := imm.signExtend 64

/-- The direct address `zext(imm)` (R74, R220). -/
def directAddress (imm : BitVec 16) : Nat := imm.toNat

/-- An address or a length held in a scalar register, read as an unsigned W-bit integer (R54, R220). -/
def State.unsignedW (s : State) (r : Reg) : Nat := (s.readW r).toNat

/-- The low 8 bits of a mask register (R101). -/
def State.byteMask (s : State) (r : Reg) : Byte := (s.readW r).setWidth 8

end Sys2Proof.Machine
end

