-- ==== Sys2Proof/Machine/Binary.lean ====
section
/-!
DEFINITION. The binary polynomial engine, mod 2 (spec/42_binary.md).
-/

namespace Sys2Proof.Machine

/-! ### The operations on a binary polynomial -/

/-- `lsh1` (R112): coefficient i becomes the old coefficient i - 1, coefficient 0 becomes 0, the old top one is lost. -/
def lsh1 (v : BinaryPoly) : BinaryPoly := v <<< 1

/-- `rsh1` (R113): coefficient i becomes the old coefficient i + 1, coefficient 700 becomes 0. -/
def rsh1 (v : BinaryPoly) : BinaryPoly := v >>> 1

/-- `modphi2` (R116): the top coefficient added to every coefficient, then the top one cleared. -/
def modphi2 (v : BinaryPoly) : BinaryPoly :=
  bitsOf 701 fun i => decide (i < 700) && (v.getLsbD i ^^ v.getLsbD 700)

/-- `rev700` (R117): the first 700 coefficients reversed, coefficient 700 ignored and cleared. -/
def rev700 (v : BinaryPoly) : BinaryPoly := bitsOf 701 fun i => decide (i < 700) && v.getLsbD (699 - i)

/-- `fmadd` (R115): the addend under a mask, added to the accumulator. -/
def fmadd (out addend mask : BinaryPoly) : BinaryPoly := out ^^^ (addend &&& mask)

/-! ### The descent of R119 -/

/-- The variables of the binary descent (R119). -/
structure BDescent where
  f : BinaryPoly
  g : BinaryPoly
  v : BinaryPoly
  r : BinaryPoly
  delta : Int
  deriving DecidableEq, Repr

/-- The start of the binary descent on p (R119). -/
def bDescentStart (p : BinaryPoly) : BDescent :=
  { f := BitVec.allOnes 701, g := rev700 p, v := 0, r := 1, delta := 1 }

/-- One iteration of the binary descent (R119). -/
def bDescentStep (d : BDescent) : BDescent :=
  let v := lsh1 d.v
  let swap := decide (0 < d.delta) && d.g.getLsbD 0
  let c := d.f.getLsbD 0 && d.g.getLsbD 0
  let delta := (if swap then -d.delta else d.delta) + 1
  let f' := if swap then d.g else d.f
  let g' := if swap then d.f else d.g
  let v' := if swap then d.r else v
  let r' := if swap then v else d.r
  { f := f', g := rsh1 (fmadd g' f' (bcast c)), v := v', r := fmadd r' v' (bcast c), delta := delta }

/-- The state of the binary descent after its 2N - 3 = 1399 iterations (R119). -/
def bDescentEnd (p : BinaryPoly) : BDescent := Nat.iterate bDescentStep 1399 (bDescentStart p)

/-- `b_descent(p)` (R119): the vector it returns and the final `delta`. -/
def bDescent (p : BinaryPoly) : BinaryPoly × Int :=
  let d := bDescentEnd p
  (rev700 (d.v &&& bcast (d.f.getLsbD 0)), d.delta)

/-! ### The commands -/

/-- BZERO (R111). -/
def execBzero (bd : Reg) (s : State) : StepResult := retire (s.setB bd 0)

/-- BLSH1 (R112). -/
def execBlsh1 (bd : Reg) (s : State) : StepResult := retire (s.setB bd (lsh1 s.b[bd]))

/-- BRSH1 (R113). -/
def execBrsh1 (bd : Reg) (s : State) : StepResult := retire (s.setB bd (rsh1 s.b[bd]))

/-- BCSWAP (R114): a mask that is not canonical faults before anything changes. -/
def execBcswap (ba bb wm : Reg) (s : State) : StepResult :=
  if s.canonicalMask wm then
    if s.readW wm = s.ones then retire ((s.setB ba s.b[bb]).setB bb s.b[ba]) else retire s
  else takeFault .maskNoncanonical s

/-- BFMADD (R115); the mask is not checked. -/
def execBfmadd (bd bs wm : Reg) (s : State) : StepResult :=
  retire (s.setB bd (fmadd s.b[bd] s.b[bs] (maskLanes s.params.width (s.readW wm))))

/-- BMODPHI (R116). -/
def execBmodphi (bd : Reg) (s : State) : StepResult := retire (s.setB bd (modphi2 s.b[bd]))

/-- BREV700 (R117). -/
def execBrev700 (bd bs : Reg) (s : State) : StepResult := retire (s.setB bd (rev700 s.b[bs]))

/-- BCLRTOP (R118): the pad it clears is not state (R22), so nothing changes but `pc`. -/
def execBclrtop (bd : Reg) (s : State) : StepResult := retire (s.setB bd s.b[bd])

/-- BINV (R120): AFAIL is set when the final `delta` is not 0. -/
def execBinv (bd bs : Reg) (s : State) : StepResult :=
  let out := bDescent s.b[bs]
  retire ((s.setB bd out.1).noteAssertion (out.2 != 0))

end Sys2Proof.Machine
end

