-- ==== Sys2Proof/Machine/ModQ.lean ====
section
/-!
DEFINITION. Mod-Q polynomial arithmetic (spec/44_modq.md). Every coefficient operation is on 16-bit patterns modulo 2^16
(R160); padding is ignored on reading and 0 on writing (R27), in `State.coeffs` and `State.setCoeffs`.
-/

namespace Sys2Proof.Machine

/-! ### The operations on the 701 coefficients -/

/-- `clamp` (R163): the low 13 bits of every coefficient. -/
def clampQ (c : Coeffs) : Coeffs := tabulate 701 fun i => coef c i &&& 0x1FFF

/-- `mod_phiN` (R164): the top coefficient subtracted from every coefficient. -/
def modphiQ (c : Coeffs) : Coeffs := tabulate 701 fun i => coef c i - coef c 700

/-- `mul_x_minus_1` (R165). -/
def mulXm1 (c : Coeffs) : Coeffs :=
  tabulate 701 fun i => if i = 0 then coef c 700 - coef c 0 else coef c (i - 1) - coef c i

/-- Coefficient-wise sum (R171). -/
def addQ (u v : Coeffs) : Coeffs := tabulate 701 fun i => coef u i + coef v i

/-- Coefficient-wise difference, first minus second (R172). -/
def subQ (u v : Coeffs) : Coeffs := tabulate 701 fun i => coef u i - coef v i

/-- Coefficient-wise negation, `0 -_16 c` (R169). -/
def negQ (c : Coeffs) : Coeffs := tabulate 701 fun i => 0 - coef c i

/-- `cyc_mul_16(u, v)` (R166): the cyclic product modulo x^701 - 1 on 16-bit patterns; the j with (i + j) mod 701 = k is
(k + 701 - i) mod 701. -/
def cycMul16 (u v : Coeffs) : Coeffs :=
  tabulate 701 fun k => ∑ i ∈ Finset.range 701, coef u i * coef v ((k + 701 - i) % 701)

/-- The coefficients modulo 2, one bit each (R211). -/
def bitsOfCoeffs (c : Coeffs) : BinaryPoly := bitsOf 701 fun i => (coef c i).getLsbD 0

/-- The bits as coefficients 0 and 1 (R212). -/
def coeffsOfBits (v : BinaryPoly) : Coeffs := tabulate 701 fun i => (BitVec.ofBool (v.getLsbD i)).setWidth 16

/-- One Newton step of R169 for `a` = -in: `tmp = a·b; tmp[0] += 2; b·tmp`. -/
def newtonStep (a b : Coeffs) : Coeffs :=
  let prod := cycMul16 a b
  let tmp := tabulate 701 fun i => if i = 0 then coef prod 0 + 2 else coef prod i
  cycMul16 b tmp

/-- The inverse of R169: the coefficients it writes and the final `delta` of the descent. -/
def invQ (c : Coeffs) : Coeffs × Int :=
  let start := bDescent (modphi2 (bitsOfCoeffs c))
  (Nat.iterate (newtonStep (negQ c)) 4 (coeffsOfBits start.1), start.2)

/-! ### The commands -/

/-- QNORM (R161): the coefficients are unchanged, the padding becomes 0. -/
def execQnorm (qd : Reg) (s : State) : StepResult := retire (s.setCoeffs qd (s.coeffs qd))

/-- Some padding slot of the register is not 0 (R162). -/
def State.paddingDirty (s : State) (r : Reg) : Bool :=
  coef s.q[r] 701 != 0 || coef s.q[r] 702 != 0 || coef s.q[r] 703 != 0

/-- QANORM (R162): AFAIL is set when a padding slot is not 0; the register is not changed. -/
def execQanorm (qs : Reg) (s : State) : StepResult := retire (s.noteAssertion (s.paddingDirty qs))

/-- QCLAMP (R163). -/
def execQclamp (qd : Reg) (s : State) : StepResult := retire (s.setCoeffs qd (clampQ (s.coeffs qd)))

/-- QMODPHI (R164). -/
def execQmodphi (qd : Reg) (s : State) : StepResult := retire (s.setCoeffs qd (modphiQ (s.coeffs qd)))

/-- QMULXM1 (R165). -/
def execQmulxm1 (qd : Reg) (s : State) : StepResult := retire (s.setCoeffs qd (mulXm1 (s.coeffs qd)))

/-- QMUL (R167). -/
def execQmul (qd qa qb : Reg) (s : State) : StepResult :=
  retire (s.setCoeffs qd (cycMul16 (s.coeffs qa) (s.coeffs qb)))

/-- QINV (R169): AFAIL is set when the descent ends with `delta` not 0. -/
def execQinv (qd qs : Reg) (s : State) : StepResult :=
  let out := invQ (s.coeffs qs)
  retire ((s.setCoeffs qd out.1).noteAssertion (out.2 != 0))

/-- QADD (R171). -/
def execQadd (qd qa qb : Reg) (s : State) : StepResult := retire (s.setCoeffs qd (addQ (s.coeffs qa) (s.coeffs qb)))

/-- QSUB (R172): `qa` minus `qb`. -/
def execQsub (qd qa qb : Reg) (s : State) : StepResult := retire (s.setCoeffs qd (subQ (s.coeffs qa) (s.coeffs qb)))

end Sys2Proof.Machine
end

