-- ==== Sys2Proof/Machine/ModQIO.lean ====
section
/-!
DEFINITION. Sampler, lift and byte packing (spec/45_modq_io.md).
-/

namespace Sys2Proof.Machine

/-! ### Single coefficients (R186 to R188) -/

/-- `mod3(x)` (R186): the non-negative remainder. R185 allows a model the mathematical function; that the bit formula of
R186 computes it is a statement. -/
def mod3 (x : Int) : Nat := (x % 3).toNat

/-- The bit formula of R186 on a signed 16-bit value. -/
def mod3Formula (x : BitVec 16) : BitVec 16 :=
  let quot := (x.toInt * 21845) / 65536
  let ret := BitVec.ofInt 16 (x.toInt - 3 * quot)
  ret &&& ((ret &&& (ret >>> 1)) - 1)

/-- `mod3_from_modQ(v)` (R187). -/
def mod3FromModQ (v : Coeff) : Coeff :=
  let u := v &&& 3
  u ^^^ (u >>> 1)

/-- `t16(m)` (R188): 0, 1 and 0xFFFF for 0, 1 and 2. -/
def t16 (m : Nat) : Coeff := if m = 0 then 0 else if m = 1 then 1 else 0xFFFF

/-! ### The sampler (R189, R190) -/

/-- A sample byte as an integer: signed or not by SAMPLE_BYTE_SIGNED (R189, C7). -/
def sampleByte (signed : Bool) (v : Byte) : Int := if signed then v.toInt else (v.toNat : Int)

/-- The coefficients of `poly_short_sample` from 700 bytes (R189): the last one is 0. -/
def shortSample (signed : Bool) (bytes : List Byte) : Coeffs :=
  tabulate 701 fun i => if i < 700 then t16 (mod3 (sampleByte signed (bytes.getD i 0))) else 0

/-- The 16-bit sum of the products of neighbours (R190). -/
def neighbourSum (p : Coeffs) : Coeff := ∑ i ∈ Finset.range 699, coef p i * coef p (i + 1)

/-- The sign correction of `poly_short_sample_plus` (R190): where bit 15 of the sum is set, the even-indexed coefficients
are negated. -/
def plusCorrection (p : Coeffs) : Coeffs :=
  if (neighbourSum p).getLsbD 15 then tabulate 701 fun i => if i % 2 = 0 then 0 - coef p i else coef p i else p

/-! ### The lift (R192) -/

/-- `s0` after the loop of phase 1 (R192). -/
def liftS0 (a : Coeffs) : Coeff :=
  (∑ j ∈ Finset.range 232, (coef a (3 * j + 5) - coef a (3 * j + 3))) - coef a 699

/-- `s2` after the loop of phase 1 (R192). -/
def liftS2 (a : Coeffs) : Coeff :=
  (∑ j ∈ Finset.range 232, (coef a (3 * j + 4) - coef a (3 * j + 5))) + coef a 700

/-- Phases 1 and 2 of R192: the prefix and the recurrence `o[i] = o[i-3] - (a[i-2] + a[i-1] + a[i])`. -/
def liftRaw (a : Coeffs) : Nat → Coeff
  | 0 => coef a 0 + coef a 2 + liftS0 a
  | 1 => coef a 1 - (liftS0 a + liftS2 a)
  | 2 => coef a 2 - coef a 0 + liftS2 a
  | i + 3 => liftRaw a i - (coef a (i + 1) + coef a (i + 2) + coef a (i + 3))

/-- Phase 3 of R192 before the rescaling: every coefficient reduced mod 3 relative to the final one. -/
def liftReduced (a : Coeffs) : Coeffs :=
  tabulate 701 fun i => t16 (mod3 (liftRaw a i - liftRaw a 700).toInt)

/-- The list `out` of R192. -/
def liftQ (a : Coeffs) : Coeffs := mulXm1 (liftReduced a)

/-! ### The 13-bit packing (R195 to R198) -/

/-- Bit n of the packed stream (R195): bit k of coefficient i at n = 13·i + k, for coefficients 0 to 699. -/
def streamBit (c : Coeffs) (n : Nat) : Bool := decide (n < 9100) && (coef c (n / 13)).getLsbD (n % 13)

/-- The 1138 bytes of the packed form (R195, R197): stream bit n is bit n mod 8 of byte n / 8; the 4 unused bits are 0. -/
def marshalBytes (c : Coeffs) : List Byte := (List.range 1138).map fun m => bitsOf 8 fun j => streamBit c (8 * m + j)

/-- The 13-bit field i of a packed form, sign-extended to 16 bits (R198). -/
def unmarshalField (bytes : List Byte) (i : Nat) : Coeff :=
  (bitsOf 13 fun k => (bytes.getD ((13 * i + k) / 8) 0).getLsbD ((13 * i + k) % 8)).signExtend 16

/-- The 701 coefficients of a packed form (R198): the last one makes the sum of all of them 0 modulo 2^16. -/
def unmarshalCoeffs (bytes : List Byte) : Coeffs :=
  let fields := tabulate 700 fun i => unmarshalField bytes i
  let total := ∑ i ∈ Finset.range 700, coef fields i
  tabulate 701 fun i => if i < 700 then coef fields i else 0 - total

/-- The 4 unused trailing bits are 0 (R198). -/
def trailingBitsZero (bytes : List Byte) : Bool := bytes.getD 1137 0 &&& 0xF0 == 0

/-! ### The base-3 packing (R199) -/

/-- The 140 bytes of the base-3 packing (R199): five digits a byte, the sum modulo 256. -/
def marshal3Bytes (c : Coeffs) : List Byte :=
  (List.range 140).map fun j =>
    let d := fun k => (mod3FromModQ (coef c (5 * j + k))).toNat
    BitVec.ofNat 8 (d 0 + 3 * d 1 + 9 * d 2 + 27 * d 3 + 81 * d 4)

/-! ### The commands -/

/-- QSAMPLE (R189). -/
def execQsample (qd : Reg) (imm : BitVec 16) (s : State) : StepResult :=
  let a := directAddress imm
  if s.InRange a 700 then
    retire (s.setCoeffs qd (shortSample s.params.sampleByteSigned (s.memRead a 700)))
  else takeFault .memRange s

/-- QSAMPLEP (R190). -/
def execQsamplep (qd : Reg) (imm : BitVec 16) (s : State) : StepResult :=
  let a := directAddress imm
  if s.InRange a 700 then
    retire (s.setCoeffs qd (plusCorrection (shortSample s.params.sampleByteSigned (s.memRead a 700))))
  else takeFault .memRange s

/-- QLIFT (R193): the value of R192 on the 16-bit patterns, whatever the source holds (D41). -/
def execQlift (qd qs : Reg) (s : State) : StepResult := retire (s.setCoeffs qd (liftQ (s.coeffs qs)))

/-- QMARSH (R197). -/
def execQmarsh (qs : Reg) (imm : BitVec 16) (s : State) : StepResult :=
  let a := directAddress imm
  if s.InRange a 1138 then retire (s.memWrite a (marshalBytes (s.coeffs qs))) else takeFault .memRange s

/-- QUNMARSH (R198): the register is written whether or not the trailing bits are 0; the mask says which (R243). -/
def execQunmarsh (qd wk : Reg) (imm : BitVec 16) (s : State) : StepResult :=
  let a := directAddress imm
  if s.InRange a 1138 then
    let bytes := s.memRead a 1138
    retire ((s.setCoeffs qd (unmarshalCoeffs bytes)).setW wk (s.maskOf (trailingBitsZero bytes)))
  else takeFault .memRange s

/-- QMARSH3 (R199). -/
def execQmarsh3 (qs : Reg) (imm : BitVec 16) (s : State) : StepResult :=
  let a := directAddress imm
  if s.InRange a 140 then retire (s.memWrite a (marshal3Bytes (s.coeffs qs))) else takeFault .memRange s

end Sys2Proof.Machine
end

