-- ==== Sys2Proof/Machine/Ternary.lean ====
section
/-!
DEFINITION. The ternary polynomial engine, mod 3, bitsliced (spec/43_ternary.md).
-/

namespace Sys2Proof.Machine

/-! ### The four circuits (R131 to R134) -/

/-- `t_mul` (R131). -/
def tMul (x y : TernaryPoly) : TernaryPoly :=
  let a3 := x.a &&& y.a
  { s := (x.s ^^^ y.s) &&& a3, a := a3 }

/-- `t_add` (R132). -/
def tAdd (x y : TernaryPoly) : TernaryPoly :=
  let t := x.s ^^^ y.a
  { s := t &&& (y.s ^^^ x.a), a := (x.a ^^^ y.a) ||| (t ^^^ y.s) }

/-- `t_sub` (R133): the first minus the second. -/
def tSub (x y : TernaryPoly) : TernaryPoly :=
  let t := x.a ^^^ y.a
  { s := (x.s ^^^ y.a) &&& (t ^^^ y.s), a := t ||| (x.s ^^^ y.s) }

/-- `t_neg` (R134). -/
def tNeg (x : TernaryPoly) : TernaryPoly := { s := x.s ^^^ x.a, a := x.a }

/-! ### Operations on a ternary polynomial -/

/-- A binary operation on both planes. -/
def onPlanes (op : BinaryPoly → BinaryPoly) (x : TernaryPoly) : TernaryPoly := { s := op x.s, a := op x.a }

/-- A coefficient as a scalar in all lanes: `(bcast(x.s[i]), bcast(x.a[i]))`. -/
def lane (x : TernaryPoly) (i : Nat) : TernaryPoly := { s := bcast (x.s.getLsbD i), a := bcast (x.a.getLsbD i) }

/-- `fmsub` (R145): the source times a scalar, subtracted from the accumulator. -/
def fmsub (out x c : TernaryPoly) : TernaryPoly := tSub out (tMul x c)

/-- `mod_phiN` (R146): the top coefficient subtracted from every coefficient, itself included. -/
def modphi3 (x : TernaryPoly) : TernaryPoly := tSub x (lane x 700)

/-- No coefficient is the invalid pair (s = 1, a = 0) (R24, R25). -/
def tValid (x : TernaryPoly) : Bool := x.s &&& ~~~x.a == 0

/-! ### The product of R148 -/

/-- The value in GF(3) of a valid pair (R24); the invalid pair is never asked for. -/
def pairValue (s a : Bool) : ZMod 3 := if a then (if s then -1 else 1) else 0

/-- Coefficient i of a valid ternary polynomial as an element of GF(3) (R24). -/
def tValue (x : TernaryPoly) (i : Nat) : ZMod 3 := pairValue (x.s.getLsbD i) (x.a.getLsbD i)

/-- The valid encoding of 701 values in GF(3) (R24). -/
def encodeGF3 (f : Nat → ZMod 3) : TernaryPoly :=
  { s := bitsOf 701 fun i => decide (f i = -1), a := bitsOf 701 fun i => decide (f i ≠ 0) }

/-- Coefficient k of the cyclic product modulo x^701 - 1 in GF(3) (R148): the j with (i + j) mod 701 = k is
(k + 701 - i) mod 701. -/
def cycMul3 (u v : TernaryPoly) (k : Nat) : ZMod 3 :=
  ∑ i ∈ Finset.range 701, tValue u i * tValue v ((k + 701 - i) % 701)

/-- The product of two valid polynomials, reduced modulo Φ(N) (R148). -/
def productGF3 (u v : TernaryPoly) : TernaryPoly :=
  let top := cycMul3 u v 700
  encodeGF3 fun k => cycMul3 u v k - top

/-- The value `TMUL` writes (R148): the product where both operands are valid, the free function elsewhere (U2). -/
def tPolyMul (u v : TernaryPoly) : TernaryPoly :=
  if tValid u && tValid v then productGF3 u v else Config.tmulInvalid u v

/-! ### The descent of R150 -/

/-- The variables of the ternary descent (R150). -/
structure TDescent where
  f : TernaryPoly
  g : TernaryPoly
  v : TernaryPoly
  r : TernaryPoly
  delta : Int
  deriving DecidableEq, Repr

/-- The start of the ternary descent on p (R150). -/
def tDescentStart (p : TernaryPoly) : TDescent :=
  { f := ⟨0, BitVec.allOnes 701⟩, g := onPlanes rev700 p, v := ⟨0, 0⟩, r := ⟨0, 1⟩, delta := 1 }

/-- One iteration of the ternary descent, steps 1 to 7 (R150). -/
def tDescentStep (d : TDescent) : TDescent :=
  let v := onPlanes lsh1 d.v
  let swap := decide (0 < d.delta) && d.g.a.getLsbD 0
  let c := tMul (lane d.f 0) (lane d.g 0)
  let delta := (if swap then -d.delta else d.delta) + 1
  let f' := if swap then d.g else d.f
  let g' := if swap then d.f else d.g
  let v' := if swap then d.r else v
  let r' := if swap then v else d.r
  { f := f', g := onPlanes rsh1 (fmsub g' f' c), v := v', r := fmsub r' v' c, delta := delta }

/-- The state of the ternary descent after its 2N - 3 = 1399 iterations (R150). -/
def tDescentEnd (p : TernaryPoly) : TDescent := Nat.iterate tDescentStep 1399 (tDescentStart p)

/-- `t_descent(p)` (R150): the polynomial it returns and the final `delta`. -/
def tDescent (p : TernaryPoly) : TernaryPoly × Int :=
  let d := tDescentEnd p
  (onPlanes rev700 (tMul d.v (lane d.f 0)), d.delta)

/-! ### The commands -/

/-- TZERO (R136). -/
def execTzero (td : Reg) (s : State) : StepResult := retire (s.setT td ⟨0, 0⟩)

/-- TLSH1 (R137). -/
def execTlsh1 (td : Reg) (s : State) : StepResult := retire (s.setT td (onPlanes lsh1 s.t[td]))

/-- TRSH1 (R138). -/
def execTrsh1 (td : Reg) (s : State) : StepResult := retire (s.setT td (onPlanes rsh1 s.t[td]))

/-- TCSWAP (R139): a mask that is not canonical faults before anything changes. -/
def execTcswap (ta tb wm : Reg) (s : State) : StepResult :=
  if s.canonicalMask wm then
    if s.readW wm = s.ones then retire ((s.setT ta s.t[tb]).setT tb s.t[ta]) else retire s
  else takeFault .maskNoncanonical s

/-- TADD (R140). -/
def execTadd (td ta tb : Reg) (s : State) : StepResult := retire (s.setT td (tAdd s.t[ta] s.t[tb]))

/-- TSUB (R141): `ta` minus `tb`. -/
def execTsub (td ta tb : Reg) (s : State) : StepResult := retire (s.setT td (tSub s.t[ta] s.t[tb]))

/-- TCMUL (R142): coefficient by coefficient, not the polynomial product. -/
def execTcmul (td ta tb : Reg) (s : State) : StepResult := retire (s.setT td (tMul s.t[ta] s.t[tb]))

/-- TNEG (R143). -/
def execTneg (td : Reg) (s : State) : StepResult := retire (s.setT td (tNeg s.t[td]))

/-- TMULC (R144). -/
def execTmulc (td wms wma : Reg) (s : State) : StepResult :=
  retire (s.setT td (tMul s.t[td] (s.scalarT wms wma)))

/-- TFMSUB (R145). -/
def execTfmsub (td ts wms wma : Reg) (s : State) : StepResult :=
  retire (s.setT td (fmsub s.t[td] s.t[ts] (s.scalarT wms wma)))

/-- TMODPHI (R146). -/
def execTmodphi (td : Reg) (s : State) : StepResult := retire (s.setT td (modphi3 s.t[td]))

/-- TREV700 (R147). -/
def execTrev700 (td ts : Reg) (s : State) : StepResult := retire (s.setT td (onPlanes rev700 s.t[ts]))

/-- TMUL (R148). -/
def execTmul (td ta tb : Reg) (s : State) : StepResult := retire (s.setT td (tPolyMul s.t[ta] s.t[tb]))

/-- TINV (R151): AFAIL is set when the final `delta` is not 0. -/
def execTinv (td ts : Reg) (s : State) : StepResult :=
  let out := tDescent s.t[ts]
  retire ((s.setT td out.1).noteAssertion (out.2 != 0))

end Sys2Proof.Machine
end

