-- ==== Sys2Proof/Machine/Convert.lean ====
section
/-!
DEFINITION. The conversions between the three representations (spec/46_convert_system.md R210 to R216).
-/

namespace Sys2Proof.Machine

/-- The centred representative of a coefficient modulo Q, -4096 to 4095 (R213). -/
def centred (v : Coeff) : Int := (v.setWidth 13).toInt

/-- The ternary polynomial of a mod-Q polynomial (R213). -/
def ternaryOfCoeffs (c : Coeffs) : TernaryPoly :=
  { s := bitsOf 701 fun i => decide (mod3 (centred (coef c i)) = 2)
    a := bitsOf 701 fun i => decide (mod3 (centred (coef c i)) ≠ 0) }

/-- The mod-Q polynomial of a ternary polynomial (R214): `(0 - s) | a` on every coefficient. -/
def coeffsOfTernary (x : TernaryPoly) : Coeffs :=
  tabulate 701 fun i =>
    (0 - (BitVec.ofBool (x.s.getLsbD i)).setWidth 16) ||| (BitVec.ofBool (x.a.getLsbD i)).setWidth 16

/-- The ternary polynomial of the checked conversion (R215): from the two low bits of each coefficient. -/
def checkedTernary (c : Coeffs) : TernaryPoly :=
  { s := bitsOf 701 fun i => (mod3FromModQ (coef c i)).getLsbD 1
    a := bitsOf 701 fun i => (mod3FromModQ (coef c i)).getLsbD 1 || (mod3FromModQ (coef c i)).getLsbD 0 }

/-- Every coefficient, 700 included, is exactly 0, 1 or 0x1FFF on all 16 bits (R215). -/
def morallyTernary (c : Coeffs) : Bool :=
  (List.range 701).all fun i => coef c i == 0 || coef c i == 1 || coef c i == 0x1FFF

/-- Q2B (R211). -/
def execQ2b (bd qs : Reg) (s : State) : StepResult := retire (s.setB bd (bitsOfCoeffs (s.coeffs qs)))

/-- B2Q (R212). -/
def execB2q (qd bs : Reg) (s : State) : StepResult := retire (s.setCoeffs qd (coeffsOfBits s.b[bs]))

/-- Q2T (R213). -/
def execQ2t (td qs : Reg) (s : State) : StepResult := retire (s.setT td (ternaryOfCoeffs (s.coeffs qs)))

/-- T2Q (R214). -/
def execT2q (qd ts : Reg) (s : State) : StepResult := retire (s.setCoeffs qd (coeffsOfTernary s.t[ts]))

/-- Q2TC (R215). -/
def execQ2tc (td qs wk : Reg) (s : State) : StepResult :=
  let c := s.coeffs qs
  retire ((s.setT td (checkedTernary c)).setW wk (s.maskOf (morallyTernary c)))

end Sys2Proof.Machine
end

