-- ==== Sys2Proof/Machine/WordCt.lean ====
section
/-!
DEFINITION. Word utilities and constant-time compare and select commands (spec/41_word_ct.md) and the system command
HALT (spec/46_convert_system.md R217).
-/

namespace Sys2Proof.Machine

/-- HALT (R217): STATE becomes HALTED, `pc` keeps the command's index. -/
def execHalt (s : State) : StepResult := .next { s with runState := .halted }

/-- WLI (R94). -/
def execWli (wd : Reg) (imm : BitVec 16) (s : State) : StepResult := retire (s.setW wd (signedImm imm))

/-- WBREV (R95). -/
def execWbrev (wd wa : Reg) (s : State) : StepResult := retire (s.setW wd (wordReverse s.params.width (s.readW wa)))

/-- WLSB (R96). -/
def execWlsb (wd wa : Reg) (s : State) : StepResult := retire (s.setW wd (s.lsbToAll (s.readW wa)))

/-- The select circuit of R97 and R101, at any width: bits of `x` where the mask is 1, of `y` where it is 0. -/
def selectBits {n : Nat} (m x y : BitVec n) : BitVec n := (m &&& x) ||| (~~~m &&& y)

/-- CTSEL (R97); the mask is not checked. -/
def execCtsel (wd wm wa wb : Reg) (s : State) : StepResult :=
  retire (s.setW wd (selectBits (s.readW wm) (s.readW wa) (s.readW wb)))

/-- CTISZ (R98). -/
def execCtisz (wd wa : Reg) (s : State) : StepResult := retire (s.setW wd (s.maskOf (s.readW wa == 0)))

/-- CTEQ (R99). -/
def execCteq (wd wa wb : Reg) (s : State) : StepResult := retire (s.setW wd (s.maskOf (s.readW wa == s.readW wb)))

/-- The accumulator of R100: the bitwise or of the differences of two byte strings. -/
def byteDifference (x y : List Byte) : Byte := (List.zipWith (· ^^^ ·) x y).foldl (· ||| ·) 0

/-- CTMEMEQ (R100): both ranges are checked before anything is read (R54). -/
def execCtmemeq (wd wa wb wc : Reg) (s : State) : StepResult :=
  let a := s.unsignedW wa
  let b := s.unsignedW wb
  let len := s.unsignedW wc
  if s.InRange a len ∧ s.InRange b len then
    retire (s.setW wd (s.maskOf (byteDifference (s.memRead a len) (s.memRead b len) == 0)))
  else takeFault .memRange s

/-- CTBSEL (R101): the bytes of both ranges are read before the first is written (R64). -/
def execCtbsel (wm wa wb wc : Reg) (s : State) : StepResult :=
  let a := s.unsignedW wa
  let b := s.unsignedW wb
  let len := s.unsignedW wc
  if s.InRange a len ∧ s.InRange b len then
    retire (s.memWrite a (List.zipWith (selectBits (s.byteMask wm)) (s.memRead a len) (s.memRead b len)))
  else takeFault .memRange s

end Sys2Proof.Machine
end

