-- ==== Sys2Proof/Machine/Dispatch.lean ====
section
/-! DEFINITION. One arm per command: the meaning of the instruction, whatever STATE is (Step.lean asks for RUN). -/

namespace Sys2Proof.Machine

def exec (i : Instr) (s : State) : Host.Outcome State Fault Refusal :=
  match i with
  | .halt => Sys2Proof.Machine.execHalt s
  | .wli wd imm => Sys2Proof.Machine.execWli wd imm s
  | .wbrev wd wa => Sys2Proof.Machine.execWbrev wd wa s
  | .wlsb wd wa => Sys2Proof.Machine.execWlsb wd wa s
  | .ctsel wd wm wa wb => Sys2Proof.Machine.execCtsel wd wm wa wb s
  | .ctisz wd wa => Sys2Proof.Machine.execCtisz wd wa s
  | .cteq wd wa wb => Sys2Proof.Machine.execCteq wd wa wb s
  | .ctmemeq wd wa wb wc => Sys2Proof.Machine.execCtmemeq wd wa wb wc s
  | .ctbsel wm wa wb wc => Sys2Proof.Machine.execCtbsel wm wa wb wc s
  | .bzero bd => Sys2Proof.Machine.execBzero bd s
  | .blsh1 bd => Sys2Proof.Machine.execBlsh1 bd s
  | .brsh1 bd => Sys2Proof.Machine.execBrsh1 bd s
  | .bcswap ba bb wm => Sys2Proof.Machine.execBcswap ba bb wm s
  | .bfmadd bd bs wm => Sys2Proof.Machine.execBfmadd bd bs wm s
  | .bmodphi bd => Sys2Proof.Machine.execBmodphi bd s
  | .brev700 bd bs => Sys2Proof.Machine.execBrev700 bd bs s
  | .bclrtop bd => Sys2Proof.Machine.execBclrtop bd s
  | .binv bd bs => Sys2Proof.Machine.execBinv bd bs s
  | .tzero td => Sys2Proof.Machine.execTzero td s
  | .tlsh1 td => Sys2Proof.Machine.execTlsh1 td s
  | .trsh1 td => Sys2Proof.Machine.execTrsh1 td s
  | .tcswap ta tb wm => Sys2Proof.Machine.execTcswap ta tb wm s
  | .tadd td ta tb => Sys2Proof.Machine.execTadd td ta tb s
  | .tsub td ta tb => Sys2Proof.Machine.execTsub td ta tb s
  | .tcmul td ta tb => Sys2Proof.Machine.execTcmul td ta tb s
  | .tneg td => Sys2Proof.Machine.execTneg td s
  | .tmulc td wms wma => Sys2Proof.Machine.execTmulc td wms wma s
  | .tfmsub td ts wms wma => Sys2Proof.Machine.execTfmsub td ts wms wma s
  | .tmodphi td => Sys2Proof.Machine.execTmodphi td s
  | .trev700 td ts => Sys2Proof.Machine.execTrev700 td ts s
  | .tmul td ta tb => Sys2Proof.Machine.execTmul td ta tb s
  | .tinv td ts => Sys2Proof.Machine.execTinv td ts s
  | .qnorm qd => Sys2Proof.Machine.execQnorm qd s
  | .qanorm qs => Sys2Proof.Machine.execQanorm qs s
  | .qclamp qd => Sys2Proof.Machine.execQclamp qd s
  | .qmodphi qd => Sys2Proof.Machine.execQmodphi qd s
  | .qmulxm1 qd => Sys2Proof.Machine.execQmulxm1 qd s
  | .qmul qd qa qb => Sys2Proof.Machine.execQmul qd qa qb s
  | .qinv qd qs => Sys2Proof.Machine.execQinv qd qs s
  | .qadd qd qa qb => Sys2Proof.Machine.execQadd qd qa qb s
  | .qsub qd qa qb => Sys2Proof.Machine.execQsub qd qa qb s
  | .qsample qd imm => Sys2Proof.Machine.execQsample qd imm s
  | .qsamplep qd imm => Sys2Proof.Machine.execQsamplep qd imm s
  | .qlift qd qs => Sys2Proof.Machine.execQlift qd qs s
  | .qmarsh qs imm => Sys2Proof.Machine.execQmarsh qs imm s
  | .qunmarsh qd wk imm => Sys2Proof.Machine.execQunmarsh qd wk imm s
  | .qmarsh3 qs imm => Sys2Proof.Machine.execQmarsh3 qs imm s
  | .q2b bd qs => Sys2Proof.Machine.execQ2b bd qs s
  | .b2q qd bs => Sys2Proof.Machine.execB2q qd bs s
  | .q2t td qs => Sys2Proof.Machine.execQ2t td qs s
  | .t2q qd ts => Sys2Proof.Machine.execT2q qd ts s
  | .q2tc td qs wk => Sys2Proof.Machine.execQ2tc td qs wk s

end Sys2Proof.Machine
end

