-- ==== Sys2Proof/Decode.lean ====
section
/-!
DEFINITION. Decoding one command word (R70 to R76, R81) and encoding one command. Decoding is total: a word gives one
command or one of the two causes of R76, tested in the order of R81 (the opcode before the fields).
-/

namespace Sys2Proof

/-- Why a word is refused (R76): cause 1 or cause 2 of R231. -/
inductive DecodeError where
  /-- bits 31:24 are no opcode of R75 (R232) -/
  | illegalOpcode
  /-- an unused field or `z` is not 0, or a used register field is 8 to 15 (R233) -/
  | illegalField
  deriving DecidableEq, Repr

/-- The bit fields of a command word. Format R uses `fd fa fb fc z` (R71), format I uses `fd fa imm` (R72). -/
structure Fields where
  op : BitVec 8
  fd : BitVec 4
  fa : BitVec 4
  fb : BitVec 4
  fc : BitVec 4
  z : BitVec 8
  deriving DecidableEq, Repr

/-- The fields of a word (R71). -/
def fieldsOf (c : CommandWord) : Fields :=
  { op := c.extractLsb' 24 8, fd := c.extractLsb' 20 4, fa := c.extractLsb' 16 4
    fb := c.extractLsb' 12 4, fc := c.extractLsb' 8 4, z := c.extractLsb' 0 8 }

/-- The 16-bit immediate of format I: bits 15:0, which are `fb`, `fc` and `z` of format R (R72, R74). -/
def Fields.imm (f : Fields) : BitVec 16 := f.fb ++ f.fc ++ f.z

/-- The word with these fields in format R (R71). -/
def packR (op : BitVec 8) (fd fa fb fc : BitVec 4) : CommandWord := op ++ fd ++ fa ++ fb ++ fc ++ 0#8

/-- The word with these fields in format I (R72). -/
def packI (op : BitVec 8) (fd fa : BitVec 4) (imm : BitVec 16) : CommandWord := op ++ fd ++ fa ++ imm

/-- A used register field: 0 to 7, the values 8 to 15 being reserved (R73). -/
def regOf (f : BitVec 4) : Option Reg := if h : f.toNat < 8 then some ⟨f.toNat, h⟩ else none

/-- A register number as a field. -/
def fieldOf (r : Reg) : BitVec 4 := BitVec.ofNat 4 r.val

/-- Format R with no operand: the other fields must be 0 (R71). -/
def takeR0 (f : Fields) (i : Instr) : Except DecodeError Instr :=
  if f.fd = 0 ∧ f.fa = 0 ∧ f.fb = 0 ∧ f.fc = 0 ∧ f.z = 0 then .ok i else .error .illegalField

/-- Format R with the operand `fd`. -/
def takeR1 (f : Fields) (mk : Reg → Instr) : Except DecodeError Instr :=
  match regOf f.fd with
  | some d => if f.fa = 0 ∧ f.fb = 0 ∧ f.fc = 0 ∧ f.z = 0 then .ok (mk d) else .error .illegalField
  | none => .error .illegalField

/-- Format R with the operands `fd fa`. -/
def takeR2 (f : Fields) (mk : Reg → Reg → Instr) : Except DecodeError Instr :=
  match regOf f.fd, regOf f.fa with
  | some d, some a => if f.fb = 0 ∧ f.fc = 0 ∧ f.z = 0 then .ok (mk d a) else .error .illegalField
  | _, _ => .error .illegalField

/-- Format R with the operands `fd fa fb`. -/
def takeR3 (f : Fields) (mk : Reg → Reg → Reg → Instr) : Except DecodeError Instr :=
  match regOf f.fd, regOf f.fa, regOf f.fb with
  | some d, some a, some b => if f.fc = 0 ∧ f.z = 0 then .ok (mk d a b) else .error .illegalField
  | _, _, _ => .error .illegalField

/-- Format R with all four operands. -/
def takeR4 (f : Fields) (mk : Reg → Reg → Reg → Reg → Instr) : Except DecodeError Instr :=
  match regOf f.fd, regOf f.fa, regOf f.fb, regOf f.fc with
  | some d, some a, some b, some c => if f.z = 0 then .ok (mk d a b c) else .error .illegalField
  | _, _, _, _ => .error .illegalField

/-- Format I with the register operand `fd` only: `fa` must be 0 (R72). -/
def takeI1 (f : Fields) (mk : Reg → BitVec 16 → Instr) : Except DecodeError Instr :=
  match regOf f.fd with
  | some d => if f.fa = 0 then .ok (mk d f.imm) else .error .illegalField
  | none => .error .illegalField

/-- Format I with the register operands `fd fa`. -/
def takeI2 (f : Fields) (mk : Reg → Reg → BitVec 16 → Instr) : Except DecodeError Instr :=
  match regOf f.fd, regOf f.fa with
  | some d, some a => .ok (mk d a f.imm)
  | _, _ => .error .illegalField

/-- Decoding by the fields: the opcode map of R75, the opcode tested before the fields (R81). -/
def decodeFields (f : Fields) : Except DecodeError Instr :=
  match f.op.toNat with
  | 0x00 => takeR0 f .halt
  | 0x10 => takeI1 f .wli
  | 0x11 => takeR2 f .wbrev
  | 0x12 => takeR2 f .wlsb
  | 0x13 => takeR4 f .ctsel
  | 0x14 => takeR2 f .ctisz
  | 0x15 => takeR3 f .cteq
  | 0x16 => takeR4 f .ctmemeq
  | 0x17 => takeR4 f .ctbsel
  | 0x20 => takeR1 f .bzero
  | 0x21 => takeR1 f .blsh1
  | 0x22 => takeR1 f .brsh1
  | 0x23 => takeR3 f .bcswap
  | 0x24 => takeR3 f .bfmadd
  | 0x25 => takeR1 f .bmodphi
  | 0x26 => takeR2 f .brev700
  | 0x27 => takeR1 f .bclrtop
  | 0x28 => takeR2 f .binv
  | 0x30 => takeR1 f .tzero
  | 0x31 => takeR1 f .tlsh1
  | 0x32 => takeR1 f .trsh1
  | 0x33 => takeR3 f .tcswap
  | 0x34 => takeR3 f .tadd
  | 0x35 => takeR3 f .tsub
  | 0x36 => takeR3 f .tcmul
  | 0x37 => takeR1 f .tneg
  | 0x38 => takeR3 f .tmulc
  | 0x39 => takeR4 f .tfmsub
  | 0x3A => takeR1 f .tmodphi
  | 0x3B => takeR2 f .trev700
  | 0x3C => takeR3 f .tmul
  | 0x3D => takeR2 f .tinv
  | 0x40 => takeR1 f .qnorm
  | 0x41 => takeR1 f .qanorm
  | 0x42 => takeR1 f .qclamp
  | 0x43 => takeR1 f .qmodphi
  | 0x44 => takeR1 f .qmulxm1
  | 0x45 => takeR3 f .qmul
  | 0x46 => takeR2 f .qinv
  | 0x47 => takeR3 f .qadd
  | 0x48 => takeR3 f .qsub
  | 0x50 => takeI1 f .qsample
  | 0x51 => takeI1 f .qsamplep
  | 0x52 => takeR2 f .qlift
  | 0x53 => takeI1 f .qmarsh
  | 0x54 => takeI2 f .qunmarsh
  | 0x55 => takeI1 f .qmarsh3
  | 0x60 => takeR2 f .q2b
  | 0x61 => takeR2 f .b2q
  | 0x62 => takeR2 f .q2t
  | 0x63 => takeR2 f .t2q
  | 0x64 => takeR3 f .q2tc
  | _ => .error .illegalOpcode

/-- Decoding one command word (R81). -/
def decode (c : CommandWord) : Except DecodeError Instr := decodeFields (fieldsOf c)

/-- The word of a command (R71, R72, R75). -/
def encode : Instr → CommandWord
  | .halt => packR 0x00 0 0 0 0
  | .wli wd imm => packI 0x10 (fieldOf wd) 0 imm
  | .wbrev wd wa => packR 0x11 (fieldOf wd) (fieldOf wa) 0 0
  | .wlsb wd wa => packR 0x12 (fieldOf wd) (fieldOf wa) 0 0
  | .ctsel wd wm wa wb => packR 0x13 (fieldOf wd) (fieldOf wm) (fieldOf wa) (fieldOf wb)
  | .ctisz wd wa => packR 0x14 (fieldOf wd) (fieldOf wa) 0 0
  | .cteq wd wa wb => packR 0x15 (fieldOf wd) (fieldOf wa) (fieldOf wb) 0
  | .ctmemeq wd wa wb wc => packR 0x16 (fieldOf wd) (fieldOf wa) (fieldOf wb) (fieldOf wc)
  | .ctbsel wm wa wb wc => packR 0x17 (fieldOf wm) (fieldOf wa) (fieldOf wb) (fieldOf wc)
  | .bzero bd => packR 0x20 (fieldOf bd) 0 0 0
  | .blsh1 bd => packR 0x21 (fieldOf bd) 0 0 0
  | .brsh1 bd => packR 0x22 (fieldOf bd) 0 0 0
  | .bcswap ba bb wm => packR 0x23 (fieldOf ba) (fieldOf bb) (fieldOf wm) 0
  | .bfmadd bd bs wm => packR 0x24 (fieldOf bd) (fieldOf bs) (fieldOf wm) 0
  | .bmodphi bd => packR 0x25 (fieldOf bd) 0 0 0
  | .brev700 bd bs => packR 0x26 (fieldOf bd) (fieldOf bs) 0 0
  | .bclrtop bd => packR 0x27 (fieldOf bd) 0 0 0
  | .binv bd bs => packR 0x28 (fieldOf bd) (fieldOf bs) 0 0
  | .tzero td => packR 0x30 (fieldOf td) 0 0 0
  | .tlsh1 td => packR 0x31 (fieldOf td) 0 0 0
  | .trsh1 td => packR 0x32 (fieldOf td) 0 0 0
  | .tcswap ta tb wm => packR 0x33 (fieldOf ta) (fieldOf tb) (fieldOf wm) 0
  | .tadd td ta tb => packR 0x34 (fieldOf td) (fieldOf ta) (fieldOf tb) 0
  | .tsub td ta tb => packR 0x35 (fieldOf td) (fieldOf ta) (fieldOf tb) 0
  | .tcmul td ta tb => packR 0x36 (fieldOf td) (fieldOf ta) (fieldOf tb) 0
  | .tneg td => packR 0x37 (fieldOf td) 0 0 0
  | .tmulc td wms wma => packR 0x38 (fieldOf td) (fieldOf wms) (fieldOf wma) 0
  | .tfmsub td ts wms wma => packR 0x39 (fieldOf td) (fieldOf ts) (fieldOf wms) (fieldOf wma)
  | .tmodphi td => packR 0x3A (fieldOf td) 0 0 0
  | .trev700 td ts => packR 0x3B (fieldOf td) (fieldOf ts) 0 0
  | .tmul td ta tb => packR 0x3C (fieldOf td) (fieldOf ta) (fieldOf tb) 0
  | .tinv td ts => packR 0x3D (fieldOf td) (fieldOf ts) 0 0
  | .qnorm qd => packR 0x40 (fieldOf qd) 0 0 0
  | .qanorm qs => packR 0x41 (fieldOf qs) 0 0 0
  | .qclamp qd => packR 0x42 (fieldOf qd) 0 0 0
  | .qmodphi qd => packR 0x43 (fieldOf qd) 0 0 0
  | .qmulxm1 qd => packR 0x44 (fieldOf qd) 0 0 0
  | .qmul qd qa qb => packR 0x45 (fieldOf qd) (fieldOf qa) (fieldOf qb) 0
  | .qinv qd qs => packR 0x46 (fieldOf qd) (fieldOf qs) 0 0
  | .qadd qd qa qb => packR 0x47 (fieldOf qd) (fieldOf qa) (fieldOf qb) 0
  | .qsub qd qa qb => packR 0x48 (fieldOf qd) (fieldOf qa) (fieldOf qb) 0
  | .qsample qd imm => packI 0x50 (fieldOf qd) 0 imm
  | .qsamplep qd imm => packI 0x51 (fieldOf qd) 0 imm
  | .qlift qd qs => packR 0x52 (fieldOf qd) (fieldOf qs) 0 0
  | .qmarsh qs imm => packI 0x53 (fieldOf qs) 0 imm
  | .qunmarsh qd wk imm => packI 0x54 (fieldOf qd) (fieldOf wk) imm
  | .qmarsh3 qs imm => packI 0x55 (fieldOf qs) 0 imm
  | .q2b bd qs => packR 0x60 (fieldOf bd) (fieldOf qs) 0 0
  | .b2q qd bs => packR 0x61 (fieldOf qd) (fieldOf bs) 0 0
  | .q2t td qs => packR 0x62 (fieldOf td) (fieldOf qs) 0 0
  | .t2q qd ts => packR 0x63 (fieldOf qd) (fieldOf ts) 0 0
  | .q2tc td qs wk => packR 0x64 (fieldOf td) (fieldOf qs) (fieldOf wk) 0

/-- What the decoder reads from a row of spec/opcode_table.json: a command is one 32-bit number, so the word the table
numbers is the word `CMD` holds (R51, R70); bits at and above `nbits` are 0. -/
def decodeTableWord (nbits w : Nat) : Option Instr :=
  match decode (BitVec.ofNat 32 (w % 2 ^ nbits)) with
  | .ok i => some i
  | .error _ => none

end Sys2Proof
end

