-- ==== Sys2Proof/Machine/Fetch.lean ====
section
/-!
DEFINITION. Fetching and decoding the next command (R81), and the block while it takes no step.
-/

namespace Sys2Proof.Machine

/-- One word of `CMD` (R51): what the host wrote, or the free power-up value (R256). -/
def State.readCmd (s : State) (i : Nat) : CommandWord := (cellLookup s.cmd i).getD (Config.powerUpCommand i)

/-- The cause a refused word raises (R76). -/
def decodeCause : DecodeError → FaultCause
  | .illegalOpcode => .illegalOpcode
  | .illegalField => .illegalField

/-- The command at `pc`, or the cause the fetch or the decoding raises, in the order of R81 and R238. -/
def State.fetch (s : State) : Except FaultCause Instr :=
  if s.params.cmdWords ≤ s.pc.toNat then .error .pcRange
  else
    match decode (s.readCmd s.pc.toNat) with
    | .ok i => .ok i
    | .error e => .error (decodeCause e)

/-- What a step leaves where STATE is not RUN: the block takes no step and all state is retained (R248, R257).
DESIGN CHOICE, unsafe for statements that count steps, log entry 7. -/
def State.resting (s : State) : StepResult := .next s

end Sys2Proof.Machine
end

