-- ==== Sys2Proof/Machine/Step.lean ====
section
/-! DEFINITION. One step of the block (R81, R257), and the state in which the next step runs a given word. -/

namespace Sys2Proof.Machine

/-- One step (R81): while STATE is RUN, fetch, decode and execute one command, or raise the cause the fetch gives; in any
other run state no step is taken (R257). -/
def step (s : State) : Host.Outcome State Fault Refusal :=
  match s.runState with
  | .run =>
    match s.fetch with
    | .ok i => exec i s
    | .error c => takeFault c s
  | .idle => s.resting
  | .halted => s.resting
  | .faulted => s.resting

/-- The state with the word where the next step fetches, `CMD[pc]`, and started (DESIGN CHOICE, safe, log entry 6): it stands for the host
writing the command memory and starting the block (R257, R258). -/
def State.withFetchWord (s : State) (nbits w : Nat) : State :=
  { s with cmd := cellWrite s.cmd s.pc.toNat (BitVec.ofNat 32 (w % 2 ^ nbits)), runState := .run }

end Sys2Proof.Machine
end

