-- ==== Sys2Proof/Machine/HostPort.lean ====
section
/-!
DEFINITION. The host, the party outside the block (R255 to R260): reset, start, and its writes and reads. These are moves
between runs; `step` takes none of them (DESIGN CHOICE, safe, log entries 9 and 10).
-/

namespace Sys2Proof.Machine

/-- What the host may do to the block (R259), and a write of `STATUS`, of which R32 says only what it does not do. -/
inductive HostAction where
  /-- assert reset (R255) -/
  | reset
  /-- start (R257) -/
  | start
  /-- write one word of `CMD` -/
  | writeCmd (index : Nat) (word : CommandWord)
  /-- write one byte of `MEM` -/
  | writeMem (address : Nat) (value : Byte)
  /-- write a whole binary register -/
  | writeB (r : Reg) (value : BinaryPoly)
  /-- write a whole ternary register, stored as given, invalid pairs included -/
  | writeT (r : Reg) (value : TernaryPoly)
  /-- write a whole mod-Q register, stored as given, padding included -/
  | writeQ (r : Reg) (value : ModQPoly)
  /-- write a scalar register -/
  | writeW (r : Reg) (value : Word)
  /-- write the `STATUS` register (R32) -/
  | writeStatus (value : BitVec 8)
  deriving DecidableEq, Repr

/-- The effect of reset (R38, R255): every register and control register 0, both memories as they are. -/
def State.hostReset (s : State) : State := { State.resetWith s.params with mem := s.mem, cmd := s.cmd }

/-- A host write allowed while STATE is not RUN (R259). -/
def whileStopped (s t : State) : StepResult :=
  if s.runState = .run then .refused .hostAccessWhileRunning else .next t

/-- A host write of a register, allowed in IDLE only (R259). -/
def whileIdle (s t : State) : StepResult :=
  match s.runState with
  | .idle => .next t
  | .run => .refused .hostAccessWhileRunning
  | .halted => .refused .hostRegisterWriteNotIdle
  | .faulted => .refused .hostRegisterWriteNotIdle

/-- The host's start (R257): IDLE becomes RUN; ignored in HALTED and FAULTED. -/
def State.hostStart (s : State) : StepResult :=
  match s.runState with
  | .idle => .next { s with runState := .run }
  | .run => .refused .hostAccessWhileRunning
  | .halted => .next s
  | .faulted => .next s

/-- One move of the host (R259). -/
def hostMove (action : HostAction) (s : State) : StepResult :=
  match action with
  | .reset => .next s.hostReset
  | .start => s.hostStart
  | .writeCmd i word =>
    if i < s.params.cmdWords then whileStopped s { s with cmd := cellWrite s.cmd i word } else .fault (.noSuchAddress i)
  | .writeMem a value =>
    if a < s.params.memBytes then whileStopped s { s with mem := cellWrite s.mem a value } else .fault (.noSuchAddress a)
  | .writeB r value => whileIdle s (s.setB r value)
  | .writeT r value => whileIdle s (s.setT r value)
  | .writeQ r value => whileIdle s { s with q := s.q.set r value }
  | .writeW r value => whileIdle s (s.setW r value)
  | .writeStatus value =>
    if value.getLsbD 2 then .refused .hostStatusWriteUnstated else whileStopped s s

/-- A host read of a register or of memory: allowed while STATE is not RUN, no effect (R259). -/
def hostRead {α : Type} (s : State) (value : α) : Host.Outcome α Fault Refusal :=
  if s.runState = .run then .refused .hostAccessWhileRunning else .next value

/-- The host reads one byte of `MEM`. -/
def hostReadMem (s : State) (a : Nat) : Host.Outcome Byte Fault Refusal :=
  if a < s.params.memBytes then hostRead s (s.readByte a) else .fault (.noSuchAddress a)

/-- The host reads one word of `CMD`. -/
def hostReadCmd (s : State) (i : Nat) : Host.Outcome CommandWord Fault Refusal :=
  if i < s.params.cmdWords then hostRead s (s.readCmd i) else .fault (.noSuchAddress i)

/-- The host reads a binary register. -/
def hostReadB (s : State) (r : Reg) : Host.Outcome BinaryPoly Fault Refusal := hostRead s s.b[r]

/-- The host reads a ternary register. -/
def hostReadT (s : State) (r : Reg) : Host.Outcome TernaryPoly Fault Refusal := hostRead s s.t[r]

/-- The host reads a mod-Q register, padding included. -/
def hostReadQ (s : State) (r : Reg) : Host.Outcome ModQPoly Fault Refusal := hostRead s s.q[r]

/-- The host reads a scalar register. -/
def hostReadW (s : State) (r : Reg) : Host.Outcome Word Fault Refusal := hostRead s (s.readW r)

/-- The host reads `STATUS`, `CAUSE`, `EPC` and `pc`, in any run state (R259). -/
def hostReadControl (s : State) : BitVec 8 × BitVec 8 × BitVec 16 × BitVec 16 := (s.status, s.cause, s.epc, s.pc)

end Sys2Proof.Machine
end

