-- ==== Sys2Proof/Safety.lean ====
section
/-!
DEFINITION. The terms the statements use: what stays unchanged when a command ends, what raising a fault leaves, the
invariants of the machine, a good end (R260), and the states the block and a host can reach.
-/

namespace Sys2Proof.Machine

/-- Every byte of `MEM` reads as before. -/
def SameMemory (s t : State) : Prop := ∀ a, t.readByte a = s.readByte a

/-- `t` is what a command that did not fault leaves of `s`, outside the registers listed: `pc` moved on by one (R81);
parameters, `CMD`, STATE, `CAUSE` and `EPC` unchanged; and every register of the four files unchanged but those listed,
binary, ternary, mod-Q and scalar in this order. AFAIL and `MEM` are said apart. -/
structure Retired (s t : State) (bs ts qs ws : List Reg) : Prop where
  pc : t.pc = s.pc + 1
  params : t.params = s.params
  cmd : t.cmd = s.cmd
  runState : t.runState = s.runState
  cause : t.cause = s.cause
  epc : t.epc = s.epc
  binary : ∀ r : Reg, r ∉ bs → t.b[r] = s.b[r]
  ternary : ∀ r : Reg, r ∉ ts → t.t[r] = s.t[r]
  modQ : ∀ r : Reg, r ∉ qs → t.q[r] = s.q[r]
  scalar : ∀ r : Reg, r ∉ ws → t.w[r] = s.w[r]

/-- A command that stores nothing and touches no flag. -/
structure RetiredQuietly (s t : State) (bs ts qs ws : List Reg) : Prop extends Retired s t bs ts qs ws where
  afail : t.afail = s.afail
  memory : SameMemory s t

/-- `t` is `s` after `raise Fault(c)` (R236): `CAUSE`, `EPC` and STATE written, nothing else changed, `pc` included. -/
structure Raised (c : FaultCause) (s t : State) : Prop where
  cause : t.cause = c.code
  epc : t.epc = s.pc
  runState : t.runState = .faulted
  pc : t.pc = s.pc
  params : t.params = s.params
  cmd : t.cmd = s.cmd
  afail : t.afail = s.afail
  binary : t.b = s.b
  ternary : t.t = s.t
  modQ : t.q = s.q
  scalar : t.w = s.w
  mem : t.mem = s.mem
  memory : SameMemory s t

/-- The padding of a mod-Q register is 0 (R27, invariant 2). -/
def PaddingZero (v : ModQPoly) : Prop := coef v 701 = 0 ∧ coef v 702 = 0 ∧ coef v 703 = 0

/-- Every mod-Q register is normalized (R27). -/
def State.Normalized (s : State) : Prop := ∀ r : Reg, PaddingZero s.q[r]

/-- No ternary register holds the invalid pair (R25, invariant 3). -/
def State.TernaryValid (s : State) : Prop := ∀ r : Reg, tValid s.t[r] = true

/-- What every state of the block has, whatever the host writes: legal parameters (R6), both memories in canonical form and
inside their sizes (R50, R51), scalar words of W bits (R29), `pc` at most CMD_WORDS (R30), and `CAUSE` and `EPC` 0 until a
fault, then a cause of R231 and the `pc` of the fault (R34, R35, R236). -/
structure State.Inv (s : State) : Prop where
  legal : s.params.Legal
  memWf : Memory.wf s.mem
  memInside : ∀ c ∈ s.mem, c.1 < s.params.memBytes
  cmdWf : Memory.wf s.cmd
  cmdInside : ∀ c ∈ s.cmd, c.1 < s.params.cmdWords
  words : ∀ r : Reg, s.w[r] &&& s.ones = s.w[r]
  pc : s.pc.toNat ≤ s.params.cmdWords
  pcRunning : s.runState = .idle → s.pc = 0
  noFault : s.runState ≠ .faulted → s.cause = 0 ∧ s.epc = 0
  fault : s.runState = .faulted → (∃ c : FaultCause, s.cause = c.code) ∧ s.epc = s.pc

/-- A good end of a run (R260): HALTED with AFAIL 0. -/
def State.GoodEnd (s : State) : Prop := s.runState = .halted ∧ s.afail = false

/-- The host keeps its duties of R264 and R265: no invalid pair and no non-zero padding written into a register. -/
def HostAction.Dutiful : HostAction → Prop
  | .writeT _ value => tValid value = true
  | .writeQ _ value => PaddingZero value
  | _ => True

/-- The states reached from power-up and reset with legal parameters, by steps of the block and moves of the host that
satisfy `allowed`. -/
inductive Reachable (allowed : HostAction → Prop) : State → Prop
  | powerUp (p : Params) (h : p.Legal) : Reachable allowed (State.resetWith p)
  | step {s t : State} (h : Reachable allowed s) (e : Sys2Proof.Machine.step s = .next t) : Reachable allowed t
  | host {s t : State} (a : HostAction) (ok : allowed a) (h : Reachable allowed s) (e : hostMove a s = .next t) :
      Reachable allowed t

/-! ### Encodings, opcodes and runs -/

/-- The word of format R with these fields (R71) decodes to the command. -/
def EncodedR (i : Instr) (op : BitVec 8) (fd fa fb fc : BitVec 4) : Prop := decode (packR op fd fa fb fc) = .ok i

/-- The word of format I with these fields (R72) decodes to the command. -/
def EncodedI (i : Instr) (op : BitVec 8) (fd fa : BitVec 4) (imm : BitVec 16) : Prop := decode (packI op fd fa imm) = .ok i

/-- The opcode byte of a command: bits 31:24 of its word (R75). -/
def opcodeOf (i : Instr) : Nat := (encode i).toNat / 2 ^ 24

/-- `t` is `s` after n steps (R257). -/
def Runs : Nat → State → State → Prop
  | 0, s, t => t = s
  | n + 1, s, t => ∃ u, step s = .next u ∧ Runs n u t

/-- Two states that differ in nothing but the padding of mod-Q registers (R27). -/
structure SameButPadding (s t : State) : Prop where
  params : t.params = s.params
  binary : t.b = s.b
  ternary : t.t = s.t
  coeffs : ∀ r : Reg, t.coeffs r = s.coeffs r
  scalar : t.w = s.w
  pc : t.pc = s.pc
  runState : t.runState = s.runState
  afail : t.afail = s.afail
  cause : t.cause = s.cause
  epc : t.epc = s.epc
  mem : t.mem = s.mem
  cmd : t.cmd = s.cmd

/-- The range check of R54 as the rule states it: a range that is not empty and does not lie inside `MEM`. -/
def State.RangeFails (s : State) (a len : Nat) : Prop := 0 < len ∧ s.params.memBytes < a + len

/-- The command takes the fault: a next state in which nothing but the fault's entry happened (R236). -/
def TakesFault (i : Instr) (c : FaultCause) (s : State) : Prop := ∃ t, exec i s = .next t ∧ Raised c s t

/-! ### Values the statements compute with, written apart from the meanings -/

/-- The four bit pairs of a ternary coefficient (R24). -/
inductive Pair where
  /-- (0,0) -/
  | zero
  /-- (0,1) -/
  | plus
  /-- (1,1) -/
  | minus
  /-- (1,0), the invalid pair -/
  | invalid
  deriving DecidableEq, Repr

/-- The pair with these bits s and a (R24). -/
def pairOf : Bool → Bool → Pair
  | false, false => .zero
  | false, true => .plus
  | true, true => .minus
  | true, false => .invalid

/-- Coefficient i of a ternary polynomial as a pair. -/
def pairAt (x : TernaryPoly) (i : Nat) : Pair := pairOf (x.s.getLsbD i) (x.a.getLsbD i)

/-- The table of `t_mul` (R135). -/
def tableMul : Pair → Pair → Pair
  | .plus, .plus => .plus
  | .plus, .minus => .minus
  | .minus, .plus => .minus
  | .minus, .minus => .plus
  | _, _ => .zero

/-- The table of `t_add` (R135). -/
def tableAdd : Pair → Pair → Pair
  | .invalid, .invalid => .invalid
  | .invalid, _ => .plus
  | _, .invalid => .plus
  | .zero, y => y
  | x, .zero => x
  | .plus, .plus => .minus
  | .minus, .minus => .plus
  | .plus, .minus => .zero
  | .minus, .plus => .zero

/-- The table of `t_sub`, row minus column (R135). -/
def tableSub : Pair → Pair → Pair
  | .invalid, .invalid => .invalid
  | .invalid, _ => .plus
  | _, .invalid => .plus
  | x, .zero => x
  | .zero, .plus => .minus
  | .zero, .minus => .plus
  | .plus, .plus => .zero
  | .minus, .minus => .zero
  | .plus, .minus => .minus
  | .minus, .plus => .plus

/-- The table of `t_neg` (R135). -/
def tableNeg : Pair → Pair
  | .zero => .zero
  | .plus => .minus
  | .minus => .plus
  | .invalid => .invalid

/-- The cyclic product modulo x^701 - 1 in GF(2) (R10). -/
def cycMul2 (u v : BinaryPoly) : BinaryPoly :=
  bitsOf 701 fun k =>
    (∑ i ∈ Finset.range 701, ∑ j ∈ Finset.range 701,
      if (i + j) % 701 = k ∧ u.getLsbD i = true ∧ v.getLsbD j = true then 1 else 0) % 2 == 1

/-- Coefficient k of the cyclic product modulo x^701 - 1 on 16-bit patterns, over every pair of indices (R166). -/
def cyclicSum (u v : Nat → Coeff) (k : Nat) : Coeff :=
  ∑ i ∈ Finset.range 701, ∑ j ∈ Finset.range 701, if (i + j) % 701 = k then u i * v j else 0

/-- The coefficients are all in T16 form: 0, 1 or 0xFFFF (R188). -/
def T16Form (c : Coeffs) : Prop := ∀ i < 701, coef c i = 0 ∨ coef c i = 1 ∨ coef c i = 0xFFFF

/-- The value in GF(3) of a coefficient in T16 form (R191). -/
def t16Value (v : Coeff) : ZMod 3 := if v = 0 then 0 else if v = 1 then 1 else -1

/-- The T16 pattern of a value in GF(3) (R188). -/
def t16Of (z : ZMod 3) : Coeff := if z = 0 then 0 else if z = 1 then 1 else 0xFFFF

/-- Every coefficient agrees modulo Q = 2^13 (R28, R160). -/
def SameModQ (u v : Coeffs) : Prop := ∀ i < 701, (coef u i).setWidth 13 = (coef v i).setWidth 13

/-- The digit `QMARSH3` packs for a coefficient: 0, 1, 3, 2 for its two low bits 0, 1, 2, 3 (R187). -/
def digitOf (v : Coeff) : Nat := if v.toNat % 4 = 2 then 3 else if v.toNat % 4 = 3 then 2 else v.toNat % 4

/-- Bit n of the packed stream that starts at an address of `MEM`: bit n mod 8 of byte n / 8 (R52, R195). -/
def State.memoryBit (s : State) (a n : Nat) : Bool := (s.readByte (a + n / 8)).getLsbD (n % 8)

end Sys2Proof.Machine
end

