-- ==== Sys2Proof/WellFormed.lean ====
section
/-!
DEFINITION. Which command words are legal (R76), as the list of spec/opcode_table.json: a word is legal exactly when some
row's mask leaves its value. The decoder does not use this list; that the two agree is a statement. Every term of Instr
is well-formed by its types (register numbers below 8, 16-bit immediates), so the checks stand on words.
-/

namespace Sys2Proof

/-- One row of spec/opcode_table.json: a word w is an encoding of the row when `w &&& mask = value`. -/
structure OpcodeRow where
  mnemonic : String
  value : CommandWord
  mask : CommandWord
  deriving DecidableEq, Repr

/-- The rows of the system and scalar commands (R75). -/
def opcodeRowsScalar : List OpcodeRow := [
  ⟨"HALT", 0x00000000, 0xFFFFFFFF⟩,
  ⟨"WLI", 0x10000000, 0xFF8F0000⟩,
  ⟨"WBREV", 0x11000000, 0xFF88FFFF⟩,
  ⟨"WLSB", 0x12000000, 0xFF88FFFF⟩,
  ⟨"CTSEL", 0x13000000, 0xFF8888FF⟩,
  ⟨"CTISZ", 0x14000000, 0xFF88FFFF⟩,
  ⟨"CTEQ", 0x15000000, 0xFF888FFF⟩,
  ⟨"CTMEMEQ", 0x16000000, 0xFF8888FF⟩,
  ⟨"CTBSEL", 0x17000000, 0xFF8888FF⟩]

/-- The rows of the binary commands (R75). -/
def opcodeRowsBinary : List OpcodeRow := [
  ⟨"BZERO", 0x20000000, 0xFF8FFFFF⟩,
  ⟨"BLSH1", 0x21000000, 0xFF8FFFFF⟩,
  ⟨"BRSH1", 0x22000000, 0xFF8FFFFF⟩,
  ⟨"BCSWAP", 0x23000000, 0xFF888FFF⟩,
  ⟨"BFMADD", 0x24000000, 0xFF888FFF⟩,
  ⟨"BMODPHI", 0x25000000, 0xFF8FFFFF⟩,
  ⟨"BREV700", 0x26000000, 0xFF88FFFF⟩,
  ⟨"BCLRTOP", 0x27000000, 0xFF8FFFFF⟩,
  ⟨"BINV", 0x28000000, 0xFF88FFFF⟩]

/-- The rows of the ternary commands (R75). -/
def opcodeRowsTernary : List OpcodeRow := [
  ⟨"TZERO", 0x30000000, 0xFF8FFFFF⟩,
  ⟨"TLSH1", 0x31000000, 0xFF8FFFFF⟩,
  ⟨"TRSH1", 0x32000000, 0xFF8FFFFF⟩,
  ⟨"TCSWAP", 0x33000000, 0xFF888FFF⟩,
  ⟨"TADD", 0x34000000, 0xFF888FFF⟩,
  ⟨"TSUB", 0x35000000, 0xFF888FFF⟩,
  ⟨"TCMUL", 0x36000000, 0xFF888FFF⟩,
  ⟨"TNEG", 0x37000000, 0xFF8FFFFF⟩,
  ⟨"TMULC", 0x38000000, 0xFF888FFF⟩,
  ⟨"TFMSUB", 0x39000000, 0xFF8888FF⟩,
  ⟨"TMODPHI", 0x3A000000, 0xFF8FFFFF⟩,
  ⟨"TREV700", 0x3B000000, 0xFF88FFFF⟩,
  ⟨"TMUL", 0x3C000000, 0xFF888FFF⟩,
  ⟨"TINV", 0x3D000000, 0xFF88FFFF⟩]

/-- The rows of the mod-Q arithmetic commands (R75). -/
def opcodeRowsModQ : List OpcodeRow := [
  ⟨"QNORM", 0x40000000, 0xFF8FFFFF⟩,
  ⟨"QANORM", 0x41000000, 0xFF8FFFFF⟩,
  ⟨"QCLAMP", 0x42000000, 0xFF8FFFFF⟩,
  ⟨"QMODPHI", 0x43000000, 0xFF8FFFFF⟩,
  ⟨"QMULXM1", 0x44000000, 0xFF8FFFFF⟩,
  ⟨"QMUL", 0x45000000, 0xFF888FFF⟩,
  ⟨"QINV", 0x46000000, 0xFF88FFFF⟩,
  ⟨"QADD", 0x47000000, 0xFF888FFF⟩,
  ⟨"QSUB", 0x48000000, 0xFF888FFF⟩]

/-- The rows of the mod-Q input and output commands (R75). -/
def opcodeRowsModQIO : List OpcodeRow := [
  ⟨"QSAMPLE", 0x50000000, 0xFF8F0000⟩,
  ⟨"QSAMPLEP", 0x51000000, 0xFF8F0000⟩,
  ⟨"QLIFT", 0x52000000, 0xFF88FFFF⟩,
  ⟨"QMARSH", 0x53000000, 0xFF8F0000⟩,
  ⟨"QUNMARSH", 0x54000000, 0xFF880000⟩,
  ⟨"QMARSH3", 0x55000000, 0xFF8F0000⟩]

/-- The rows of the conversion commands (R75). -/
def opcodeRowsConvert : List OpcodeRow := [
  ⟨"Q2B", 0x60000000, 0xFF88FFFF⟩,
  ⟨"B2Q", 0x61000000, 0xFF88FFFF⟩,
  ⟨"Q2T", 0x62000000, 0xFF88FFFF⟩,
  ⟨"T2Q", 0x63000000, 0xFF88FFFF⟩,
  ⟨"Q2TC", 0x64000000, 0xFF888FFF⟩]

/-- The 52 rows of the opcode table (R75). -/
def opcodeRows : List OpcodeRow :=
  opcodeRowsScalar ++ opcodeRowsBinary ++ opcodeRowsTernary ++ opcodeRowsModQ ++ opcodeRowsModQIO ++ opcodeRowsConvert

/-- The word is an encoding of the row. -/
def OpcodeRow.admits (r : OpcodeRow) (c : CommandWord) : Bool := c &&& r.mask == r.value

/-- A legal command word (R76): a defined opcode, unused fields and `z` zero, used register fields 0 to 7. -/
def wellFormedWord (c : CommandWord) : Bool := opcodeRows.any fun r => r.admits c

/-- The opcode byte is one of the 52 of R75, whatever the other fields are. -/
def definedOpcode (c : CommandWord) : Bool := opcodeRows.any fun r => c >>> 24 == r.value >>> 24

end Sys2Proof
end

