-- ==== Sys2Proof/Certificates/Slice0/Obligations.lean ====
section
/-!
DEFINITION. The statements for the provers. Each is about every state, whatever STATE is and whatever the parameters of R6
are, unless a premise says otherwise. A statement about commands says of each that it completes, what it writes, and
through `Retired` or `RetiredQuietly` what it leaves as it was.
-/

open Sys2Proof Sys2Proof.Machine

/-! ### Encoding and decoding -/

/-- Decoding the word of a command gives the command back, every operand at every value (R71 to R75). -/
def Obligations.DecodeEncode : Prop := ∀ i : Instr, decode (encode i) = .ok i

/-- Every legal word is the word of the command it decodes to, so no two words mean one command (R71, R76). -/
def Obligations.EncodeDecode : Prop := ∀ (c : CommandWord) (i : Instr), decode c = .ok i → encode i = c

/-- Decoding is total and sorts every word as the opcode table does: an undefined opcode, a defined opcode with illegal
fields, or a legal word (R76, R81). -/
def Obligations.DecodeClassifies : Prop := ∀ c : CommandWord,
  (decode c = .error .illegalOpcode ↔ definedOpcode c = false) ∧
  (decode c = .error .illegalField ↔ definedOpcode c = true ∧ wellFormedWord c = false) ∧
  ((∃ i, decode c = .ok i) ↔ wellFormedWord c = true) ∧
  (definedOpcode c = true ↔ c.toNat / 2 ^ 24 ∈
    [0x00] ++ List.range' 0x10 8 ++ List.range' 0x20 9 ++ List.range' 0x30 14 ++ List.range' 0x40 9 ++
      List.range' 0x50 6 ++ List.range' 0x60 5)

/-- The words the spec writes out decode to the commands it names (R76, R79). -/
def Obligations.SpecWordsDecode : Prop :=
  decode 0x00000000#32 = .ok .halt ∧
  decode 0x1030FFFF#32 = .ok (.wli 3 0xFFFF#16) ∧
  decode 0x13012300#32 = .ok (.ctsel 0 1 2 3) ∧
  decode 0x23127000#32 = .ok (.bcswap 1 2 7) ∧
  decode 0x39451200#32 = .ok (.tfmsub 4 5 1 2) ∧
  decode 0x45201000#32 = .ok (.qmul 2 0 1) ∧
  decode 0x50000100#32 = .ok (.qsample 0 0x0100#16) ∧
  decode 0x543502BC#32 = .ok (.qunmarsh 3 5 700#16) ∧
  decode 0x64126000#32 = .ok (.q2tc 1 2 6) ∧
  decode 0xFFFFFFFF#32 = .error .illegalOpcode

/-! ### The step -/

/-- While STATE is RUN and `pc` is inside `CMD`, a step runs the command the word at `pc` decodes to, and nothing else (R81). -/
def Obligations.StepRunsCommand : Prop := ∀ (s : State) (i : Instr), s.runState = .run → s.pc.toNat < s.params.cmdWords →
  decode (s.readCmd s.pc.toNat) = .ok i → step s = exec i s

/-- The state made by `withFetchWord` runs the command whose word it was given, and differs from the state before only in
`CMD[pc]` and STATE (the model's own interface, log entry 6). -/
def Obligations.FetchWordRuns : Prop := ∀ (s : State) (i : Instr), s.pc.toNat < s.params.cmdWords →
  step (s.withFetchWord 32 (encode i).toNat) = exec i (s.withFetchWord 32 (encode i).toNat) ∧
  (s.withFetchWord 32 (encode i).toNat).readCmd s.pc.toNat = encode i ∧
  (∀ k, k ≠ s.pc.toNat → (s.withFetchWord 32 (encode i).toNat).readCmd k = s.readCmd k) ∧
  { s.withFetchWord 32 (encode i).toNat with cmd := s.cmd, runState := s.runState } = s

/-- The three causes a fetch and a decoding raise, in their order: 5 outside `CMD`, then 1, then 2 (R81, R232, R233, R237);
and in every state that satisfies the invariant cause 5 comes with `pc` equal to CMD_WORDS exactly (R237). -/
def Obligations.FetchFaults : Prop := ∀ s : State, s.runState = .run →
  (s.params.cmdWords ≤ s.pc.toNat → ∃ t, step s = .next t ∧ Raised .pcRange s t ∧
    (s.Inv → t.pc.toNat = s.params.cmdWords ∧ t.epc.toNat = s.params.cmdWords)) ∧
  (s.pc.toNat < s.params.cmdWords →
    (definedOpcode (s.readCmd s.pc.toNat) = false → ∃ t, step s = .next t ∧ Raised .illegalOpcode s t) ∧
    (definedOpcode (s.readCmd s.pc.toNat) = true → wellFormedWord (s.readCmd s.pc.toNat) = false →
      ∃ t, step s = .next t ∧ Raised .illegalField s t))

/-- The causes have the numbers of R231; and a step in RUN that ends FAULTED is fault entry and nothing else: `EPC` the index of
the command, every register, byte, AFAIL and `pc` as before (R236), and `CAUSE` 1 for an undefined opcode, 2 for illegal
fields, 3 from one of the seven commands that touch `MEM`, 4 from one of the two swaps, 5 for a fetch outside `CMD`. That the
step after it is the same state is the model's form of taking no step (DESIGN CHOICE, log entry 7). -/
def Obligations.FaultsArePrecise : Prop :=
  (FaultCause.illegalOpcode.code = 1 ∧ FaultCause.illegalField.code = 2 ∧ FaultCause.memRange.code = 3 ∧
    FaultCause.maskNoncanonical.code = 4 ∧ FaultCause.pcRange.code = 5) ∧
  ∀ s t : State, s.runState = .run → step s = .next t → t.runState = .faulted →
    (∃ c : FaultCause, Raised c s t) ∧ t.epc = s.pc ∧
    ((t.cause = 1 ∧ s.pc.toNat < s.params.cmdWords ∧ definedOpcode (s.readCmd s.pc.toNat) = false) ∨
      (t.cause = 2 ∧ s.pc.toNat < s.params.cmdWords ∧ definedOpcode (s.readCmd s.pc.toNat) = true ∧
        wellFormedWord (s.readCmd s.pc.toNat) = false) ∨
      (t.cause = 3 ∧ ∃ i, s.fetch = .ok i ∧ opcodeOf i ∈ [0x16, 0x17, 0x50, 0x51, 0x53, 0x54, 0x55]) ∨
      (t.cause = 4 ∧ ∃ i, s.fetch = .ok i ∧ opcodeOf i ∈ [0x23, 0x33]) ∨
      (t.cause = 5 ∧ s.params.cmdWords ≤ s.pc.toNat)) ∧
    step t = .next t

/-- The moves of the run state a step makes (R30, R257), in every state a step answers a next state: outside RUN nothing
changes (the model's own form of taking no step, log entry 7); in RUN the block goes on with `pc` one higher, or halts or
faults with `pc` where it was, and it halts exactly on a legal HALT. -/
def Obligations.StepMoves : Prop := ∀ s : State, ∃ t, step s = .next t ∧
  (s.runState ≠ .run → t = s) ∧
  (s.runState = .run →
    (t.runState = .run ∧ t.pc = s.pc + 1) ∨ (t.runState = .halted ∧ t.pc = s.pc) ∨ (t.runState = .faulted ∧ t.pc = s.pc)) ∧
  (s.runState = .run → (t.runState = .halted ↔ s.fetch = .ok .halt)) ∧
  t.params = s.params ∧ t.cmd = s.cmd

/-- AFAIL is never cleared by a step, and is set only by BINV, TINV, QINV and QANORM (R33). -/
def Obligations.AssertionFlagSticky : Prop := ∀ s t : State, step s = .next t →
  (s.afail = true → t.afail = true) ∧
  (s.afail = false → t.afail = true → s.runState = .run ∧
    ∃ i, s.fetch = .ok i ∧ opcodeOf i ∈ [0x28, 0x3D, 0x46, 0x41])

/-- Which commands write which part of the state (R29, R36, R81): every command outside the lists leaves that part as it
was. -/
def Obligations.OnlyTheseWrite : Prop := ∀ (i : Instr) (s t : State), exec i s = .next t →
  (t.w = s.w ∨ opcodeOf i ∈ [0x10, 0x11, 0x12, 0x13, 0x14, 0x15, 0x16, 0x54, 0x64]) ∧
  (t.mem = s.mem ∨ opcodeOf i ∈ [0x17, 0x53, 0x55]) ∧
  (t.b = s.b ∨ opcodeOf i ∈ [0x20, 0x21, 0x22, 0x23, 0x24, 0x25, 0x26, 0x27, 0x28, 0x60]) ∧
  (t.t = s.t ∨ opcodeOf i ∈
    [0x30, 0x31, 0x32, 0x33, 0x34, 0x35, 0x36, 0x37, 0x38, 0x39, 0x3A, 0x3B, 0x3C, 0x3D, 0x62, 0x64]) ∧
  (t.q = s.q ∨ opcodeOf i ∈
    [0x40, 0x42, 0x43, 0x44, 0x45, 0x46, 0x47, 0x48, 0x50, 0x51, 0x52, 0x54, 0x61, 0x63])

/-- Every program ends: from any state in RUN with the invariant, after at most CMD_WORDS + 1 steps STATE is HALTED or
FAULTED (R257). -/
def Obligations.RunsEnd : Prop := ∀ s : State, s.Inv → s.runState = .run →
  ∃ n t, n ≤ s.params.cmdWords + 1 ∧ Runs n s t ∧ (t.runState = .halted ∨ t.runState = .faulted)

/-! ### Invariants -/

/-- Every step keeps the invariant. -/
def Obligations.InvStep : Prop := ∀ s t : State, s.Inv → step s = .next t → t.Inv

/-- The invariant holds after power-up and reset, for every choice of legal parameters (R38). -/
def Obligations.InvReset : Prop := State.reset.Inv ∧ ∀ p : Params, p.Legal → (State.resetWith p).Inv

/-- Every move of the host keeps the invariant; so every state the block and a host of any behaviour reach satisfies it (R38,
R257, R259), and where the host keeps its duties every reached state has valid ternary registers and normalized mod-Q registers
(R25, R27, R264, R265). -/
def Obligations.InvReachable : Prop :=
  (∀ (a : HostAction) (s t : State), s.Inv → hostMove a s = .next t → t.Inv) ∧
  (∀ s : State, Reachable (fun _ => True) s → s.Inv) ∧
  (∀ s : State, Reachable HostAction.Dutiful s → s.TernaryValid ∧ s.Normalized)

/-- No step produces the invalid pair from valid registers (R25, R135). -/
def Obligations.TernaryStaysValid : Prop := ∀ s t : State, s.TernaryValid → step s = .next t → t.TernaryValid

/-- The padding rule (R27): a command leaves a mod-Q register as it was or with zero padding; and a command that is not
QANORM does the same whatever the padding is. -/
def Obligations.PaddingRule : Prop :=
  (∀ (i : Instr) (s t : State), exec i s = .next t → ∀ r : Reg, t.q[r] = s.q[r] ∨ PaddingZero t.q[r]) ∧
  (∀ (i : Instr) (s s' t : State), opcodeOf i ≠ 0x41 → SameButPadding s s' → exec i s = .next t →
    ∃ t', exec i s' = .next t' ∧ SameButPadding t t')

/-- Invariants 2 and 3 of the document, state by state: every step keeps the padding 0 (R27), and every move of a host that keeps
its duties keeps the padding 0 and the ternary pairs valid (R25, R264, R265). That a step keeps the pairs valid is
`Obligations.TernaryStaysValid`; the pad bits of invariant 1 are not state (R22). -/
def Obligations.DutifulInvariants : Prop :=
  (∀ s t : State, s.Normalized → step s = .next t → t.Normalized) ∧
  (∀ (a : HostAction) (s t : State), a.Dutiful → hostMove a s = .next t →
    (s.TernaryValid → t.TernaryValid) ∧ (s.Normalized → t.Normalized))

/-! ### The host -/

/-- Reset, in any state: every register, `pc`, `STATUS`, `CAUSE` and `EPC` 0, the memories as they are (R38, R255). The first
clause is the model's choice (DESIGN CHOICE, log entry 5): where R38 and R256 say only that both memories are unspecified after
power-up, every byte and word reads as its free value. -/
def Obligations.HostReset : Prop := ∀ s : State,
  (∀ (p : Params) (a : Nat), (State.resetWith p).readByte a = Config.powerUpByte a ∧
    (State.resetWith p).readCmd a = Config.powerUpCommand a) ∧
  ∃ t, hostMove .reset s = .next t ∧
  (∀ r : Reg, t.b[r] = 0 ∧ t.t[r] = ⟨0, 0⟩ ∧ t.w[r] = 0 ∧ t.readW r = 0 ∧ ∀ k < 704, coef t.q[r] k = 0) ∧
  t.pc = 0 ∧ t.status = 0 ∧ t.runState = .idle ∧ t.afail = false ∧ t.cause = 0 ∧ t.epc = 0 ∧
  t.mem = s.mem ∧ t.cmd = s.cmd ∧ t.params = s.params

/-- What the host may write and read and when (R257, R259), and `STATUS` as it reads it (R32). Writes: memory outside RUN,
registers in IDLE only, a start in IDLE, a start ignored in HALTED and FAULTED, a write of `STATUS` with bit 2 equal to 0 without
effect; in RUN no move but reset (U13). Reads: `STATUS`, `CAUSE`, `EPC` and `pc` in any state, `STATUS` being the code of STATE in
bits 1:0, AFAIL in bit 2 and 0 above; registers and memory outside RUN. The model's choices: a write of a scalar register keeps
the low W bits of the value, and a write R259 does not grant is no move (DESIGN CHOICE, log entry 9), nor is a write of `STATUS`
with bit 2 equal to 1 (DESIGN CHOICE, log entry 10). -/
def Obligations.HostMoves : Prop := ∀ s : State,
  (s.runState = .idle → hostMove .start s = .next { s with runState := .run }) ∧
  (s.runState = .halted ∨ s.runState = .faulted → hostMove .start s = .next s) ∧
  (s.runState ≠ .run → ∀ (a : Nat) (v : Byte), a < s.params.memBytes →
    ∃ t, hostMove (.writeMem a v) s = .next t ∧ (∀ k, t.readByte k = if k = a then v else s.readByte k) ∧
      { t with mem := s.mem } = s) ∧
  (s.runState ≠ .run → ∀ (k : Nat) (c : CommandWord), k < s.params.cmdWords →
    ∃ t, hostMove (.writeCmd k c) s = .next t ∧ (∀ j, t.readCmd j = if j = k then c else s.readCmd j) ∧
      { t with cmd := s.cmd } = s) ∧
  (∀ (a : Nat) (v : Byte) (t : State), s.params.memBytes ≤ a → hostMove (.writeMem a v) s ≠ .next t) ∧
  (∀ (k : Nat) (c : CommandWord) (t : State), s.params.cmdWords ≤ k → hostMove (.writeCmd k c) s ≠ .next t) ∧
  (s.runState = .idle → ∀ r : Reg,
    (∀ v, hostMove (.writeB r v) s = .next { s with b := s.b.set r v }) ∧
    (∀ v, hostMove (.writeT r v) s = .next { s with t := s.t.set r v }) ∧
    (∀ v, hostMove (.writeQ r v) s = .next { s with q := s.q.set r v }) ∧
    (∀ v : Word, ∃ t, hostMove (.writeW r v) s = .next t ∧ t.readW r = v &&& s.ones ∧
      { t with w := s.w } = s ∧ ∀ j : Reg, j ≠ r → t.w[j] = s.w[j])) ∧
  (s.runState = .halted ∨ s.runState = .faulted → ∀ (r : Reg) (t : State),
    (∀ v, hostMove (.writeB r v) s ≠ .next t) ∧ (∀ v, hostMove (.writeT r v) s ≠ .next t) ∧
    (∀ v, hostMove (.writeQ r v) s ≠ .next t) ∧ (∀ v, hostMove (.writeW r v) s ≠ .next t)) ∧
  (∀ v : BitVec 8, (s.runState ≠ .run → v.getLsbD 2 = false → hostMove (.writeStatus v) s = .next s) ∧
    (v.getLsbD 2 = true → ∀ t, hostMove (.writeStatus v) s ≠ .next t)) ∧
  (s.runState = .run → ∀ a : HostAction, a ≠ .reset → ∀ t, hostMove a s ≠ .next t) ∧
  (hostReadControl s = (s.status, s.cause, s.epc, s.pc) ∧
    s.status.toNat % 4 = (match s.runState with
      | .idle => 0
      | .run => 1
      | .halted => 2
      | .faulted => 3) ∧
    s.status.getLsbD 2 = s.afail ∧ s.status.toNat / 8 = 0) ∧
  (s.runState ≠ .run →
    (∀ a < s.params.memBytes, hostReadMem s a = .next (s.readByte a)) ∧
    (∀ k < s.params.cmdWords, hostReadCmd s k = .next (s.readCmd k)) ∧
    ∀ r : Reg, hostReadB s r = .next s.b[r] ∧ hostReadT s r = .next s.t[r] ∧ hostReadQ s r = .next s.q[r] ∧
      hostReadW s r = .next (s.readW r)) ∧
  (s.runState = .run →
    (∀ a v, hostReadMem s a ≠ .next v) ∧ (∀ k c, hostReadCmd s k ≠ .next c) ∧
    ∀ r : Reg, (∀ v, hostReadB s r ≠ .next v) ∧ (∀ v, hostReadT s r ≠ .next v) ∧ (∀ v, hostReadQ s r ≠ .next v) ∧
      ∀ v, hostReadW s r ≠ .next v)

/-! ### System and scalar commands -/

/-- HALT (R217): STATE becomes HALTED, nothing else changes, `pc` included. That the step after it is the same state is the
model's form of taking no step (DESIGN CHOICE, log entry 7). -/
def Obligations.Halt : Prop := ∀ s : State, encode .halt = 0x00000000#32 ∧ decode 0x00000000#32 = .ok .halt ∧
  ∃ t, exec .halt s = .next t ∧ t = { s with runState := .halted } ∧ t.pc = s.pc ∧ step t = .next t

/-- WLI, WBREV and WLSB, bit by bit (R94, R95, R96): the sign-extended immediate, the reversed word, bit 0 in every bit. -/
def Obligations.WordUtilities : Prop := ∀ (s : State) (wd wa : Reg) (imm : BitVec 16),
  (EncodedI (.wli wd imm) 0x10 (fieldOf wd) 0 imm ∧
    ∃ t, exec (.wli wd imm) s = .next t ∧ RetiredQuietly s t [] [] [] [wd] ∧
      ∀ k < s.params.width.bits, (t.readW wd).getLsbD k = imm.getLsbD (min k 15)) ∧
  (EncodedR (.wbrev wd wa) 0x11 (fieldOf wd) (fieldOf wa) 0 0 ∧
    ∃ t, exec (.wbrev wd wa) s = .next t ∧ RetiredQuietly s t [] [] [] [wd] ∧
      ∀ k < s.params.width.bits, (t.readW wd).getLsbD k = (s.readW wa).getLsbD (s.params.width.bits - 1 - k)) ∧
  (EncodedR (.wlsb wd wa) 0x12 (fieldOf wd) (fieldOf wa) 0 0 ∧
    ∃ t, exec (.wlsb wd wa) s = .next t ∧ RetiredQuietly s t [] [] [] [wd] ∧
      ∀ k < s.params.width.bits, (t.readW wd).getLsbD k = (s.readW wa).getLsbD 0)

/-- CTSEL, CTISZ and CTEQ (R97, R98, R99): bit by bit under any mask, and the masks of the two compares. That a 1 in the mask
takes the first value is general knowledge by the spec's own mark (PRESUMED, log entry 15; G1). -/
def Obligations.SelectAndCompare : Prop := ∀ (s : State) (wd wm wa wb : Reg),
  (EncodedR (.ctsel wd wm wa wb) 0x13 (fieldOf wd) (fieldOf wm) (fieldOf wa) (fieldOf wb) ∧
    ∃ t, exec (.ctsel wd wm wa wb) s = .next t ∧ RetiredQuietly s t [] [] [] [wd] ∧
      ∀ k < s.params.width.bits, (t.readW wd).getLsbD k =
        if (s.readW wm).getLsbD k then (s.readW wa).getLsbD k else (s.readW wb).getLsbD k) ∧
  (EncodedR (.ctisz wd wa) 0x14 (fieldOf wd) (fieldOf wa) 0 0 ∧
    ∃ t, exec (.ctisz wd wa) s = .next t ∧ RetiredQuietly s t [] [] [] [wd] ∧
      t.readW wd = if s.readW wa = 0 then s.ones else 0) ∧
  (EncodedR (.cteq wd wa wb) 0x15 (fieldOf wd) (fieldOf wa) (fieldOf wb) 0 ∧
    ∃ t, exec (.cteq wd wa wb) s = .next t ∧ RetiredQuietly s t [] [] [] [wd] ∧
      t.readW wd = if s.readW wa = s.readW wb then s.ones else 0)

/-- CTMEMEQ (R100): cause 3 where a range fails, else the mask that says whether every byte of the two ranges agrees. -/
def Obligations.MemoryCompare : Prop := ∀ (s : State) (wd wa wb wc : Reg),
  EncodedR (.ctmemeq wd wa wb wc) 0x16 (fieldOf wd) (fieldOf wa) (fieldOf wb) (fieldOf wc) ∧
  (s.RangeFails (s.unsignedW wa) (s.unsignedW wc) ∨ s.RangeFails (s.unsignedW wb) (s.unsignedW wc) →
    TakesFault (.ctmemeq wd wa wb wc) .memRange s) ∧
  (¬ s.RangeFails (s.unsignedW wa) (s.unsignedW wc) → ¬ s.RangeFails (s.unsignedW wb) (s.unsignedW wc) →
    ∃ t, exec (.ctmemeq wd wa wb wc) s = .next t ∧ RetiredQuietly s t [] [] [] [wd] ∧
      t.readW wd = if ∀ k < s.unsignedW wc, s.readByte (s.unsignedW wa + k) = s.readByte (s.unsignedW wb + k)
        then s.ones else 0)

/-- CTBSEL (R101): cause 3 where a range fails, else every byte of the first range selected bit by bit from the bytes before
the command, every other byte of `MEM` as it was (R64). That a 1 in the mask takes the first range is general knowledge by the
spec's own mark (PRESUMED, log entry 15; G1). -/
def Obligations.MemorySelect : Prop := ∀ (s : State) (wm wa wb wc : Reg),
  EncodedR (.ctbsel wm wa wb wc) 0x17 (fieldOf wm) (fieldOf wa) (fieldOf wb) (fieldOf wc) ∧
  (s.RangeFails (s.unsignedW wa) (s.unsignedW wc) ∨ s.RangeFails (s.unsignedW wb) (s.unsignedW wc) →
    TakesFault (.ctbsel wm wa wb wc) .memRange s) ∧
  (¬ s.RangeFails (s.unsignedW wa) (s.unsignedW wc) → ¬ s.RangeFails (s.unsignedW wb) (s.unsignedW wc) →
    ∃ t, exec (.ctbsel wm wa wb wc) s = .next t ∧ Retired s t [] [] [] [] ∧ t.afail = s.afail ∧
      (∀ a, a < s.unsignedW wa ∨ s.unsignedW wa + s.unsignedW wc ≤ a → t.readByte a = s.readByte a) ∧
      (∀ k < s.unsignedW wc, ∀ j < 8, (t.readByte (s.unsignedW wa + k)).getLsbD j =
        if (s.readW wm).getLsbD j then (s.readByte (s.unsignedW wa + k)).getLsbD j
        else (s.readByte (s.unsignedW wb + k)).getLsbD j))

/-! ### Binary commands -/

/-- BZERO, BLSH1, BRSH1 and BCLRTOP (R111, R112, R113, R118), coefficient by coefficient. -/
def Obligations.BinaryShifts : Prop := ∀ (s : State) (bd : Reg),
  (EncodedR (.bzero bd) 0x20 (fieldOf bd) 0 0 0 ∧
    ∃ t, exec (.bzero bd) s = .next t ∧ RetiredQuietly s t [bd] [] [] [] ∧ t.b[bd] = 0) ∧
  (EncodedR (.blsh1 bd) 0x21 (fieldOf bd) 0 0 0 ∧
    ∃ t, exec (.blsh1 bd) s = .next t ∧ RetiredQuietly s t [bd] [] [] [] ∧
      t.b[bd].getLsbD 0 = false ∧ ∀ i < 700, t.b[bd].getLsbD (i + 1) = s.b[bd].getLsbD i) ∧
  (EncodedR (.brsh1 bd) 0x22 (fieldOf bd) 0 0 0 ∧
    ∃ t, exec (.brsh1 bd) s = .next t ∧ RetiredQuietly s t [bd] [] [] [] ∧
      t.b[bd].getLsbD 700 = false ∧ ∀ i < 700, t.b[bd].getLsbD i = s.b[bd].getLsbD (i + 1)) ∧
  (EncodedR (.bclrtop bd) 0x27 (fieldOf bd) 0 0 0 ∧
    ∃ t, exec (.bclrtop bd) s = .next t ∧ RetiredQuietly s t [] [] [] [])

/-- BCSWAP and TCSWAP (R114, R139, R235): a swap under `ONES_W`, nothing under 0, cause 4 under any other mask. -/
def Obligations.ConditionalSwaps : Prop := ∀ (s : State) (x y wm : Reg),
  (EncodedR (.bcswap x y wm) 0x23 (fieldOf x) (fieldOf y) (fieldOf wm) 0 ∧
    (s.readW wm = s.ones → ∃ t, exec (.bcswap x y wm) s = .next t ∧ RetiredQuietly s t [x, y] [] [] [] ∧
      t.b[x] = s.b[y] ∧ t.b[y] = s.b[x]) ∧
    (s.readW wm = 0 → ∃ t, exec (.bcswap x y wm) s = .next t ∧ RetiredQuietly s t [] [] [] []) ∧
    (s.readW wm ≠ 0 → s.readW wm ≠ s.ones → TakesFault (.bcswap x y wm) .maskNoncanonical s)) ∧
  (EncodedR (.tcswap x y wm) 0x33 (fieldOf x) (fieldOf y) (fieldOf wm) 0 ∧
    (s.readW wm = s.ones → ∃ t, exec (.tcswap x y wm) s = .next t ∧ RetiredQuietly s t [] [x, y] [] [] ∧
      t.t[x] = s.t[y] ∧ t.t[y] = s.t[x]) ∧
    (s.readW wm = 0 → ∃ t, exec (.tcswap x y wm) s = .next t ∧ RetiredQuietly s t [] [] [] []) ∧
    (s.readW wm ≠ 0 → s.readW wm ≠ s.ones → TakesFault (.tcswap x y wm) .maskNoncanonical s))

/-- BFMADD (R115): mask bit i mod W gates coefficient i; no mask faults. -/
def Obligations.BinaryFmadd : Prop := ∀ (s : State) (bd bs wm : Reg),
  EncodedR (.bfmadd bd bs wm) 0x24 (fieldOf bd) (fieldOf bs) (fieldOf wm) 0 ∧
  ∃ t, exec (.bfmadd bd bs wm) s = .next t ∧ RetiredQuietly s t [bd] [] [] [] ∧
    ∀ i < 701, t.b[bd].getLsbD i =
      (s.b[bd].getLsbD i ^^ (s.b[bs].getLsbD i && (s.readW wm).getLsbD (i % s.params.width.bits)))

/-- BMODPHI (R116). -/
def Obligations.BinaryModPhi : Prop := ∀ (s : State) (bd : Reg),
  EncodedR (.bmodphi bd) 0x25 (fieldOf bd) 0 0 0 ∧
  ∃ t, exec (.bmodphi bd) s = .next t ∧ RetiredQuietly s t [bd] [] [] [] ∧
    t.b[bd].getLsbD 700 = false ∧
    ∀ i < 700, t.b[bd].getLsbD i = (s.b[bd].getLsbD i ^^ s.b[bd].getLsbD 700)

/-- BREV700 and TREV700 (R117, R147): the first 700 coefficients reversed, coefficient 700 ignored and cleared. That
TREV700 moves both bits of a coefficient together is the spec's own derivation: "the reversal moves whole coefficients, so it must
move the s bit and the a bit of a coefficient together". -/
def Obligations.Reversals : Prop := ∀ (s : State) (d r : Reg),
  (EncodedR (.brev700 d r) 0x26 (fieldOf d) (fieldOf r) 0 0 ∧
    ∃ t, exec (.brev700 d r) s = .next t ∧ RetiredQuietly s t [d] [] [] [] ∧
      t.b[d].getLsbD 700 = false ∧ ∀ i < 700, t.b[d].getLsbD i = s.b[r].getLsbD (699 - i)) ∧
  (EncodedR (.trev700 d r) 0x3B (fieldOf d) (fieldOf r) 0 0 ∧
    ∃ t, exec (.trev700 d r) s = .next t ∧ RetiredQuietly s t [] [d] [] [] ∧
      pairAt t.t[d] 700 = .zero ∧ ∀ i < 700, pairAt t.t[d] i = pairAt s.t[r] (699 - i))

/-- BINV (R120) writes what the descent of R119 returns and sets AFAIL where its final `delta` is not 0. -/
def Obligations.BinaryInverse : Prop := ∀ (s : State) (bd bs : Reg),
  EncodedR (.binv bd bs) 0x28 (fieldOf bd) (fieldOf bs) 0 0 ∧
  ∃ t, exec (.binv bd bs) s = .next t ∧ Retired s t [bd] [] [] [] ∧ SameMemory s t ∧
    t.b[bd] = (bDescent s.b[bs]).1 ∧ (t.afail = true ↔ s.afail = true ∨ (bDescent s.b[bs]).2 ≠ 0)

/-- The binary descent inverts (R120): for a source with coefficient 700 equal to 0, the final `delta` is 0 exactly when the
source is invertible modulo (2, Φ(N)), and then the result is the one polynomial with coefficient 700 equal to 0 whose
product with the source reduces to 1. -/
def Obligations.BinaryDescentInverts : Prop := ∀ p : BinaryPoly, p.getLsbD 700 = false →
  ((bDescent p).2 = 0 ↔ ∃ u, modphi2 (cycMul2 u p) = 1) ∧
  ((bDescent p).2 = 0 → (bDescent p).1.getLsbD 700 = false ∧ modphi2 (cycMul2 (bDescent p).1 p) = 1 ∧
    ∀ u : BinaryPoly, u.getLsbD 700 = false → modphi2 (cycMul2 u p) = 1 → u = (bDescent p).1)

/-- What the descents keep (R119, R120, R150, R151): in the binary one coefficient 0 of f is 1 after every iteration; in both
`delta` stays within -1399 and 1400; and the polynomial 0 gives 0 with `delta` 1400. -/
def Obligations.DescentBounds : Prop :=
  (∀ (p : BinaryPoly) (n : Nat), n ≤ 1399 →
    (Nat.iterate bDescentStep n (bDescentStart p)).f.getLsbD 0 = true ∧
    -1399 ≤ (Nat.iterate bDescentStep n (bDescentStart p)).delta ∧
    (Nat.iterate bDescentStep n (bDescentStart p)).delta ≤ 1400) ∧
  (∀ (p : TernaryPoly) (n : Nat), n ≤ 1399 →
    -1399 ≤ (Nat.iterate tDescentStep n (tDescentStart p)).delta ∧
    (Nat.iterate tDescentStep n (tDescentStart p)).delta ≤ 1400) ∧
  bDescent 0 = (0, 1400) ∧ tDescent ⟨0, 0⟩ = (⟨0, 0⟩, 1400)

/-! ### Ternary commands -/

/-- TZERO, TLSH1 and TRSH1 (R136, R137, R138), pair by pair. -/
def Obligations.TernaryShifts : Prop := ∀ (s : State) (td : Reg),
  (EncodedR (.tzero td) 0x30 (fieldOf td) 0 0 0 ∧
    ∃ t, exec (.tzero td) s = .next t ∧ RetiredQuietly s t [] [td] [] [] ∧ t.t[td] = ⟨0, 0⟩) ∧
  (EncodedR (.tlsh1 td) 0x31 (fieldOf td) 0 0 0 ∧
    ∃ t, exec (.tlsh1 td) s = .next t ∧ RetiredQuietly s t [] [td] [] [] ∧
      pairAt t.t[td] 0 = .zero ∧ ∀ i < 700, pairAt t.t[td] (i + 1) = pairAt s.t[td] i) ∧
  (EncodedR (.trsh1 td) 0x32 (fieldOf td) 0 0 0 ∧
    ∃ t, exec (.trsh1 td) s = .next t ∧ RetiredQuietly s t [] [td] [] [] ∧
      pairAt t.t[td] 700 = .zero ∧ ∀ i < 700, pairAt t.t[td] i = pairAt s.t[td] (i + 1))

/-- The four circuits of R131 to R134 give in every lane the tables of R135, the invalid pair included. The tables are the spec's
own derivation: "by evaluating the formulas of rules R131 to R134 on all 16 inputs". -/
def Obligations.CircuitTables : Prop := ∀ (x y : TernaryPoly) (i : Nat), i < 701 →
  pairAt (tMul x y) i = tableMul (pairAt x i) (pairAt y i) ∧
  pairAt (tAdd x y) i = tableAdd (pairAt x i) (pairAt y i) ∧
  pairAt (tSub x y) i = tableSub (pairAt x i) (pairAt y i) ∧
  pairAt (tNeg x) i = tableNeg (pairAt x i)

/-- TADD, TSUB, TCMUL and TNEG (R140 to R143): every lane by the tables of R135; and on valid operands the sum, difference,
product and negation in GF(3), the result valid. -/
def Obligations.TernaryLanewise : Prop := ∀ (s : State) (td ta tb : Reg),
  (EncodedR (.tadd td ta tb) 0x34 (fieldOf td) (fieldOf ta) (fieldOf tb) 0 ∧
    ∃ t, exec (.tadd td ta tb) s = .next t ∧ RetiredQuietly s t [] [td] [] [] ∧
      (∀ i < 701, pairAt t.t[td] i = tableAdd (pairAt s.t[ta] i) (pairAt s.t[tb] i)) ∧
      (tValid s.t[ta] → tValid s.t[tb] →
        tValid t.t[td] ∧ ∀ i < 701, tValue t.t[td] i = tValue s.t[ta] i + tValue s.t[tb] i)) ∧
  (EncodedR (.tsub td ta tb) 0x35 (fieldOf td) (fieldOf ta) (fieldOf tb) 0 ∧
    ∃ t, exec (.tsub td ta tb) s = .next t ∧ RetiredQuietly s t [] [td] [] [] ∧
      (∀ i < 701, pairAt t.t[td] i = tableSub (pairAt s.t[ta] i) (pairAt s.t[tb] i)) ∧
      (tValid s.t[ta] → tValid s.t[tb] →
        tValid t.t[td] ∧ ∀ i < 701, tValue t.t[td] i = tValue s.t[ta] i - tValue s.t[tb] i)) ∧
  (EncodedR (.tcmul td ta tb) 0x36 (fieldOf td) (fieldOf ta) (fieldOf tb) 0 ∧
    ∃ t, exec (.tcmul td ta tb) s = .next t ∧ RetiredQuietly s t [] [td] [] [] ∧
      (∀ i < 701, pairAt t.t[td] i = tableMul (pairAt s.t[ta] i) (pairAt s.t[tb] i)) ∧
      (tValid s.t[ta] → tValid s.t[tb] →
        tValid t.t[td] ∧ ∀ i < 701, tValue t.t[td] i = tValue s.t[ta] i * tValue s.t[tb] i)) ∧
  (EncodedR (.tneg td) 0x37 (fieldOf td) 0 0 0 ∧
    ∃ t, exec (.tneg td) s = .next t ∧ RetiredQuietly s t [] [td] [] [] ∧
      (∀ i < 701, pairAt t.t[td] i = tableNeg (pairAt s.t[td] i)) ∧
      (tValid s.t[td] → tValid t.t[td] ∧ ∀ i < 701, tValue t.t[td] i = -tValue s.t[td] i))

/-- TMULC and TFMSUB (R144, R145): the scalar is the pair of bits 0 of the two scalar registers, the same in every lane. -/
def Obligations.TernaryScalar : Prop := ∀ (s : State) (td ts wms wma : Reg),
  (EncodedR (.tmulc td wms wma) 0x38 (fieldOf td) (fieldOf wms) (fieldOf wma) 0 ∧
    ∃ t, exec (.tmulc td wms wma) s = .next t ∧ RetiredQuietly s t [] [td] [] [] ∧
      ∀ i < 701, pairAt t.t[td] i =
        tableMul (pairAt s.t[td] i) (pairOf ((s.readW wms).getLsbD 0) ((s.readW wma).getLsbD 0))) ∧
  (EncodedR (.tfmsub td ts wms wma) 0x39 (fieldOf td) (fieldOf ts) (fieldOf wms) (fieldOf wma) ∧
    ∃ t, exec (.tfmsub td ts wms wma) s = .next t ∧ RetiredQuietly s t [] [td] [] [] ∧
      ∀ i < 701, pairAt t.t[td] i = tableSub (pairAt s.t[td] i)
        (tableMul (pairAt s.t[ts] i) (pairOf ((s.readW wms).getLsbD 0) ((s.readW wma).getLsbD 0))))

/-- TMODPHI (R146): the top coefficient subtracted from every coefficient, itself included; for a valid register the top
one becomes 0. -/
def Obligations.TernaryModPhi : Prop := ∀ (s : State) (td : Reg),
  EncodedR (.tmodphi td) 0x3A (fieldOf td) 0 0 0 ∧
  ∃ t, exec (.tmodphi td) s = .next t ∧ RetiredQuietly s t [] [td] [] [] ∧
    (∀ i < 701, pairAt t.t[td] i = tableSub (pairAt s.t[td] i) (pairAt s.t[td] 700)) ∧
    (tValid s.t[td] → pairAt t.t[td] 700 = .zero) ∧
    (pairAt s.t[td] 700 = .invalid → pairAt t.t[td] 700 = .invalid) ∧
    (pairAt s.t[td] 700 = .zero → tValid s.t[td] → t.t[td] = s.t[td])

/-- TMUL (R148): on valid operands the product modulo x^701 - 1 reduced modulo Φ(N), as a valid polynomial with top
coefficient 0; on any operands it completes and writes only its destination, of whose value nothing else is said (U2). -/
def Obligations.TernaryProduct : Prop := ∀ (s : State) (td ta tb : Reg),
  EncodedR (.tmul td ta tb) 0x3C (fieldOf td) (fieldOf ta) (fieldOf tb) 0 ∧
  ∃ t, exec (.tmul td ta tb) s = .next t ∧ RetiredQuietly s t [] [td] [] [] ∧
    (tValid s.t[ta] → tValid s.t[tb] → tValid t.t[td] ∧ pairAt t.t[td] 700 = .zero ∧
      ∃ p : Nat → ZMod 3,
        (∀ k < 701, p k = ∑ i ∈ Finset.range 701, ∑ j ∈ Finset.range 701,
          if (i + j) % 701 = k then tValue s.t[ta] i * tValue s.t[tb] j else 0) ∧
        ∀ k < 701, tValue t.t[td] k = p k - p 700) ∧
    ((tValid s.t[ta] = false ∨ tValid s.t[tb] = false) → t.t[td] = Config.tmulInvalid s.t[ta] s.t[tb])

/-- TINV (R151) writes what the descent of R150 returns and sets AFAIL where its final `delta` is not 0. -/
def Obligations.TernaryInverse : Prop := ∀ (s : State) (td ts : Reg),
  EncodedR (.tinv td ts) 0x3D (fieldOf td) (fieldOf ts) 0 0 ∧
  ∃ t, exec (.tinv td ts) s = .next t ∧ Retired s t [] [td] [] [] ∧ SameMemory s t ∧
    t.t[td] = (tDescent s.t[ts]).1 ∧ (t.afail = true ↔ s.afail = true ∨ (tDescent s.t[ts]).2 ≠ 0)

/-- The ternary descent inverts (R151, R152): for a valid source with top coefficient 0, the final `delta` is 0 exactly when
the source is invertible modulo (3, Φ(N)); then the result is the one valid polynomial with top coefficient 0 whose product
with the source is 1, and inverting it again gives the source back. -/
def Obligations.TernaryDescentInverts : Prop := ∀ p : TernaryPoly, tValid p → pairAt p 700 = .zero →
  ((tDescent p).2 = 0 ↔ ∃ u, tValid u ∧ productGF3 u p = ⟨0, 1⟩) ∧
  ((tDescent p).2 = 0 → tValid (tDescent p).1 ∧ pairAt (tDescent p).1 700 = .zero ∧
    productGF3 (tDescent p).1 p = ⟨0, 1⟩ ∧ tDescent (tDescent p).1 = (p, 0) ∧
    ∀ u : TernaryPoly, tValid u → pairAt u 700 = .zero → productGF3 u p = ⟨0, 1⟩ → u = (tDescent p).1)

/-! ### Mod-Q arithmetic commands -/

/-- QNORM and QANORM (R161, R162): the padding written 0, coefficients as they were; and the padding tested into AFAIL, the
register not changed. -/
def Obligations.PaddingCommands : Prop := ∀ (s : State) (r : Reg),
  (EncodedR (.qnorm r) 0x40 (fieldOf r) 0 0 0 ∧
    ∃ t, exec (.qnorm r) s = .next t ∧ RetiredQuietly s t [] [] [r] [] ∧ PaddingZero t.q[r] ∧
      ∀ i < 701, coef t.q[r] i = coef s.q[r] i) ∧
  (EncodedR (.qanorm r) 0x41 (fieldOf r) 0 0 0 ∧
    ∃ t, exec (.qanorm r) s = .next t ∧ Retired s t [] [] [] [] ∧ SameMemory s t ∧
      (t.afail = true ↔ s.afail = true ∨ ¬ PaddingZero s.q[r]))

/-- QCLAMP, QMODPHI, QMULXM1, QADD and QSUB (R163, R164, R165, R171, R172), coefficient by coefficient on 16-bit patterns
(R160), the padding 0. That coefficient 0 of QMULXM1 receives the old top coefficient is the spec's own derivation in R165: "the
product is in the ring Z[x]/(x^N − 1) of §3, where x·x^700 = 1". -/
def Obligations.ModQLanewise : Prop := ∀ (s : State) (qd qa qb : Reg),
  (EncodedR (.qclamp qd) 0x42 (fieldOf qd) 0 0 0 ∧
    ∃ t, exec (.qclamp qd) s = .next t ∧ RetiredQuietly s t [] [] [qd] [] ∧ PaddingZero t.q[qd] ∧
      ∀ i < 701, coef t.q[qd] i = coef s.q[qd] i &&& 0x1FFF) ∧
  (EncodedR (.qmodphi qd) 0x43 (fieldOf qd) 0 0 0 ∧
    ∃ t, exec (.qmodphi qd) s = .next t ∧ RetiredQuietly s t [] [] [qd] [] ∧ PaddingZero t.q[qd] ∧
      ∀ i < 701, coef t.q[qd] i = coef s.q[qd] i - coef s.q[qd] 700) ∧
  (EncodedR (.qmulxm1 qd) 0x44 (fieldOf qd) 0 0 0 ∧
    ∃ t, exec (.qmulxm1 qd) s = .next t ∧ RetiredQuietly s t [] [] [qd] [] ∧ PaddingZero t.q[qd] ∧
      coef t.q[qd] 0 = coef s.q[qd] 700 - coef s.q[qd] 0 ∧
      (∀ i < 700, coef t.q[qd] (i + 1) = coef s.q[qd] i - coef s.q[qd] (i + 1)) ∧
      ∑ i ∈ Finset.range 701, coef t.q[qd] i = 0) ∧
  (EncodedR (.qadd qd qa qb) 0x47 (fieldOf qd) (fieldOf qa) (fieldOf qb) 0 ∧
    ∃ t, exec (.qadd qd qa qb) s = .next t ∧ RetiredQuietly s t [] [] [qd] [] ∧ PaddingZero t.q[qd] ∧
      ∀ i < 701, coef t.q[qd] i = coef s.q[qa] i + coef s.q[qb] i) ∧
  (EncodedR (.qsub qd qa qb) 0x48 (fieldOf qd) (fieldOf qa) (fieldOf qb) 0 ∧
    ∃ t, exec (.qsub qd qa qb) s = .next t ∧ RetiredQuietly s t [] [] [qd] [] ∧ PaddingZero t.q[qd] ∧
      ∀ i < 701, coef t.q[qd] i = coef s.q[qa] i - coef s.q[qb] i)

/-- QMUL (R166, R167): the product modulo x^701 - 1 on 16-bit patterns, over every pair of indices. -/
def Obligations.ModQProduct : Prop := ∀ (s : State) (qd qa qb : Reg),
  EncodedR (.qmul qd qa qb) 0x45 (fieldOf qd) (fieldOf qa) (fieldOf qb) 0 ∧
  ∃ t, exec (.qmul qd qa qb) s = .next t ∧ RetiredQuietly s t [] [] [qd] [] ∧ PaddingZero t.q[qd] ∧
    ∀ k < 701, coef t.q[qd] k = ∑ i ∈ Finset.range 701, ∑ j ∈ Finset.range 701,
      if (i + j) % 701 = k then coef s.q[qa] i * coef s.q[qb] j else 0

/-- QINV (R169): the source modulo 2, reduced modulo Φ(N), goes through the binary descent; its vector starts four Newton steps,
each `tmp = (-in)·b`, `tmp[0] += 2`, `b = b·tmp` with the products of R166; AFAIL where the final `delta` is not 0. That the
reduction modulo Φ(N) stands before the descent is general knowledge by the spec's own mark (PRESUMED, log entry 15; G2). -/
def Obligations.ModQInverse : Prop := ∀ (s : State) (qd qs : Reg),
  EncodedR (.qinv qd qs) 0x46 (fieldOf qd) (fieldOf qs) 0 0 ∧
  ∃ t, exec (.qinv qd qs) s = .next t ∧ Retired s t [] [] [qd] [] ∧ SameMemory s t ∧ PaddingZero t.q[qd] ∧
    ∃ (g : BinaryPoly) (b tmp : Nat → Nat → Coeff),
      g.getLsbD 700 = false ∧
      (∀ i < 700, g.getLsbD i = ((coef s.q[qs] i).getLsbD 0 ^^ (coef s.q[qs] 700).getLsbD 0)) ∧
      (∀ i < 701, b 0 i = if (bDescent g).1.getLsbD i then 1 else 0) ∧
      (∀ n < 4, ∀ k < 701,
        tmp n k = cyclicSum (fun i => 0 - coef s.q[qs] i) (b n) k + (if k = 0 then 2 else 0) ∧
        b (n + 1) k = cyclicSum (b n) (tmp n) k) ∧
      (∀ k < 701, coef t.q[qd] k = b 4 k) ∧
      (t.afail = true ↔ s.afail = true ∨ (bDescent g).2 ≠ 0)

/-- The property of R170: where the descent of the source ends with `delta` 0, which R170 says witnesses that the source is
invertible modulo (2, Φ(N)) (`Obligations.BinaryDescentInverts` links the two), `QINV q1, q0`, `QMUL q2, q1, q0`, `QMODPHI q2`,
`QCLAMP q2` leave the polynomial 1 in `q2`. With q1 = q0 the sequence would multiply the inverse by itself, which R170 does not
speak of. That the source is reduced modulo Φ(N) before the descent is general knowledge by the spec's own mark (PRESUMED, log
entry 15; G2). -/
def Obligations.ModQInverseInverts : Prop := ∀ (s : State) (q0 q1 q2 : Reg), q1 ≠ q0 →
  (bDescent (modphi2 (bitsOfCoeffs (s.coeffs q0)))).2 = 0 →
  ∃ s1 s2 s3 s4, exec (.qinv q1 q0) s = .next s1 ∧ exec (.qmul q2 q1 q0) s1 = .next s2 ∧
    exec (.qmodphi q2) s2 = .next s3 ∧ exec (.qclamp q2) s3 = .next s4 ∧ s4.afail = s.afail ∧
    ∀ i < 701, coef s4.q[q2] i = if i = 0 then 1 else 0

/-- The low 13 bits of the results depend on the low 13 bits of the operands only, so every result is right modulo Q
whatever the upper three bits were (R160). -/
def Obligations.UpperBitsIrrelevant : Prop := ∀ u u' v v' : Coeffs, SameModQ u u' → SameModQ v v' →
  SameModQ (addQ u v) (addQ u' v') ∧ SameModQ (subQ u v) (subQ u' v') ∧ SameModQ (cycMul16 u v) (cycMul16 u' v') ∧
  SameModQ (modphiQ u) (modphiQ u') ∧ SameModQ (mulXm1 u) (mulXm1 u') ∧ SameModQ (negQ u) (negQ u') ∧
  SameModQ (newtonStep u v) (newtonStep u' v') ∧ SameModQ (invQ u).1 (invQ u').1 ∧ clampQ u = clampQ u'

/-! ### Sampler, lift and packing -/

/-- The bit formula of R186 computes the non-negative remainder on every signed 16-bit value, as R186 derives. Its constant 21845
is general knowledge by the spec's own mark (PRESUMED, log entry 15; G3). -/
def Obligations.Mod3Formula : Prop := ∀ x : BitVec 16, ((mod3Formula x).toNat : Int) = x.toInt % 3 ∧ mod3 x.toInt < 3 ∧
  (mod3Formula x).toNat = mod3 x.toInt

/-- QSAMPLE (R189): cause 3 where the 700 bytes do not lie in `MEM`, else each byte modulo 3, read as signed or not by
SAMPLE_BYTE_SIGNED, as 0, 1 or 0xFFFF, the last coefficient and the padding 0. -/
def Obligations.Sample : Prop := ∀ (s : State) (qd : Reg) (imm : BitVec 16),
  EncodedI (.qsample qd imm) 0x50 (fieldOf qd) 0 imm ∧
  (s.params.memBytes < imm.toNat + 700 → TakesFault (.qsample qd imm) .memRange s) ∧
  (imm.toNat + 700 ≤ s.params.memBytes →
    ∃ t, exec (.qsample qd imm) s = .next t ∧ RetiredQuietly s t [] [] [qd] [] ∧ PaddingZero t.q[qd] ∧
      coef t.q[qd] 700 = 0 ∧
      ∀ i < 700, coef t.q[qd] i =
        t16 (((if s.params.sampleByteSigned then (s.readByte (imm.toNat + i)).toInt
          else ((s.readByte (imm.toNat + i)).toNat : Int)) % 3).toNat))

/-- QSAMPLEP (R190): what QSAMPLE writes, its even coefficients negated where the 16-bit sum of neighbouring products is
negative; the sum of the result is never negative. -/
def Obligations.SamplePlus : Prop := ∀ (s : State) (qd : Reg) (imm : BitVec 16),
  EncodedI (.qsamplep qd imm) 0x51 (fieldOf qd) 0 imm ∧
  (s.params.memBytes < imm.toNat + 700 → TakesFault (.qsamplep qd imm) .memRange s) ∧
  (imm.toNat + 700 ≤ s.params.memBytes →
    ∃ u t, exec (.qsample qd imm) s = .next u ∧ exec (.qsamplep qd imm) s = .next t ∧
      RetiredQuietly s t [] [] [qd] [] ∧ PaddingZero t.q[qd] ∧
      (∀ i < 701, coef t.q[qd] i =
        if (∑ k ∈ Finset.range 699, coef u.q[qd] k * coef u.q[qd] (k + 1)).getLsbD 15 && i % 2 == 0
        then 0 - coef u.q[qd] i else coef u.q[qd] i) ∧
      (∑ k ∈ Finset.range 699, coef t.q[qd] k * coef t.q[qd] (k + 1)).getLsbD 15 = false)

/-- QLIFT (R192, R193): some list o with the prefix, the recurrence and the two sums of R192 gives the result, for every
source. The prefix and the two sums are general knowledge by the spec's own mark (PRESUMED, log entry 15; G4). -/
def Obligations.Lift : Prop := ∀ (s : State) (qd qs : Reg),
  EncodedR (.qlift qd qs) 0x52 (fieldOf qd) (fieldOf qs) 0 0 ∧
  ∃ t, exec (.qlift qd qs) s = .next t ∧ RetiredQuietly s t [] [] [qd] [] ∧ PaddingZero t.q[qd] ∧
    ∃ (a o r : Nat → Coeff) (s0 s2 : Coeff),
      (∀ i, a i = if i < 701 then coef s.q[qs] i else 0) ∧
      s0 = (∑ j ∈ Finset.Icc 1 232, (0 - a (3 * j) + a (3 * j + 2))) - a 699 ∧
      s2 = (∑ j ∈ Finset.Icc 1 232, (a (3 * j + 1) - a (3 * j + 2))) + a 700 ∧
      o 0 = a 0 + a 2 + s0 ∧ o 1 = a 1 - (s0 + s2) ∧ o 2 = a 2 - a 0 + s2 ∧
      (∀ i, 3 ≤ i → i ≤ 700 → o i = o (i - 3) - (a (i - 2) + a (i - 1) + a i)) ∧
      (∀ i < 701, r i = t16 (((o i - o 700).toInt % 3).toNat)) ∧
      coef t.q[qd] 0 = r 700 - r 0 ∧ ∀ i < 700, coef t.q[qd] (i + 1) = r i - r (i + 1)

/-- What QLIFT computes on a source in T16 form (R191): a / (x - 1) modulo (3, Φ(N)) with top coefficient 0, as T16 patterns,
times x - 1. Every result coefficient is one of five patterns and they sum to 0, whatever the source is. -/
def Obligations.LiftMeaning : Prop := ∀ (s t : State) (qd qs : Reg), exec (.qlift qd qs) s = .next t →
  (∀ i < 701, coef t.q[qd] i ∈ ([0, 1, 2, 0xFFFE, 0xFFFF] : List Coeff)) ∧
  ∑ i ∈ Finset.range 701, coef t.q[qd] i = 0 ∧
  (T16Form (s.coeffs qs) → ∃ b : Nat → ZMod 3, b 700 = 0 ∧
    (∃ k : ZMod 3, ∀ i < 701, b ((i + 700) % 701) - b i = t16Value (coef s.q[qs] i) + k) ∧
    ∀ i < 701, coef t.q[qd] i = t16Of (b ((i + 700) % 701)) - t16Of (b i))

/-- QMARSH (R195, R197): cause 3 where the 1138 bytes do not lie in `MEM`, else bit k of coefficient i at stream bit
13·i + k, the four trailing bits 0, and every other byte as it was. -/
def Obligations.Marshal : Prop := ∀ (s : State) (qs : Reg) (imm : BitVec 16),
  EncodedI (.qmarsh qs imm) 0x53 (fieldOf qs) 0 imm ∧
  (s.params.memBytes < imm.toNat + 1138 → TakesFault (.qmarsh qs imm) .memRange s) ∧
  (imm.toNat + 1138 ≤ s.params.memBytes →
    ∃ t, exec (.qmarsh qs imm) s = .next t ∧ Retired s t [] [] [] [] ∧ t.afail = s.afail ∧
      (∀ i < 700, ∀ k < 13, t.memoryBit imm.toNat (13 * i + k) = (coef s.q[qs] i).getLsbD k) ∧
      (∀ n, 9100 ≤ n → n < 9104 → t.memoryBit imm.toNat n = false) ∧
      ∀ a, a < imm.toNat ∨ imm.toNat + 1138 ≤ a → t.readByte a = s.readByte a)

/-- QUNMARSH (R198): cause 3 where the 1138 bytes do not lie in `MEM`, else every 13-bit field sign-extended, coefficient 700
the one that makes the sum 0, the padding 0, and the mask of the four trailing bits. -/
def Obligations.Unmarshal : Prop := ∀ (s : State) (qd wk : Reg) (imm : BitVec 16),
  EncodedI (.qunmarsh qd wk imm) 0x54 (fieldOf qd) (fieldOf wk) imm ∧
  (s.params.memBytes < imm.toNat + 1138 → TakesFault (.qunmarsh qd wk imm) .memRange s) ∧
  (imm.toNat + 1138 ≤ s.params.memBytes →
    ∃ t, exec (.qunmarsh qd wk imm) s = .next t ∧ RetiredQuietly s t [] [] [qd] [wk] ∧ PaddingZero t.q[qd] ∧
      (∀ i < 700, ∀ k < 16, (coef t.q[qd] i).getLsbD k = s.memoryBit imm.toNat (13 * i + min k 12)) ∧
      ∑ i ∈ Finset.range 701, coef t.q[qd] i = 0 ∧
      t.readW wk = if s.readByte (imm.toNat + 1137) &&& 0xF0 = 0 then s.ones else 0)

/-- QMARSH3 (R199): cause 3 where the 140 bytes do not lie in `MEM`, else five digits to a byte with weights 1, 3, 9, 27 and
81, modulo 256, and every other byte as it was. -/
def Obligations.MarshalBase3 : Prop := ∀ (s : State) (qs : Reg) (imm : BitVec 16),
  EncodedI (.qmarsh3 qs imm) 0x55 (fieldOf qs) 0 imm ∧
  (s.params.memBytes < imm.toNat + 140 → TakesFault (.qmarsh3 qs imm) .memRange s) ∧
  (imm.toNat + 140 ≤ s.params.memBytes →
    ∃ t, exec (.qmarsh3 qs imm) s = .next t ∧ Retired s t [] [] [] [] ∧ t.afail = s.afail ∧
      (∀ j < 140, (t.readByte (imm.toNat + j)).toNat =
        (digitOf (coef s.q[qs] (5 * j)) + 3 * digitOf (coef s.q[qs] (5 * j + 1)) + 9 * digitOf (coef s.q[qs] (5 * j + 2)) +
          27 * digitOf (coef s.q[qs] (5 * j + 3)) + 81 * digitOf (coef s.q[qs] (5 * j + 4))) % 256) ∧
      ∀ a, a < imm.toNat ∨ imm.toNat + 140 ≤ a → t.readByte a = s.readByte a)

/-- The round trip of R200: QMARSH then QUNMARSH gives a true mask; it restores all 701 coefficients where coefficients 0 to
699 are sign extensions of their low 13 bits and all sum to 0; where the sum is 0 modulo Q it restores every coefficient
modulo Q; and a source that QLIFT wrote is restored. -/
def Obligations.MarshalRoundTrip : Prop := ∀ (s : State) (qs qd wk : Reg) (imm : BitVec 16),
  imm.toNat + 1138 ≤ s.params.memBytes →
  ∃ s1 s2, exec (.qmarsh qs imm) s = .next s1 ∧ exec (.qunmarsh qd wk imm) s1 = .next s2 ∧ s2.readW wk = s.ones ∧
    ((∀ i < 700, coef s.q[qs] i = ((coef s.q[qs] i).setWidth 13).signExtend 16) →
      ∑ i ∈ Finset.range 701, coef s.q[qs] i = 0 → ∀ i < 701, coef s2.q[qd] i = coef s.q[qs] i) ∧
    (∀ i < 700, (coef s2.q[qd] i).setWidth 13 = (coef s.q[qs] i).setWidth 13) ∧
    ((∑ i ∈ Finset.range 701, coef s.q[qs] i) &&& 0x1FFF = 0 →
      (coef s2.q[qd] 700).setWidth 13 = (coef s.q[qs] 700).setWidth 13) ∧
    (∀ c : Coeffs, s.coeffs qs = liftQ c → ∀ i < 701, coef s2.q[qd] i = coef s.q[qs] i)

/-! ### Conversions -/

/-- Q2B and B2Q (R211, R212). Both formulas are the spec's own derivation: "the residue modulo 2 of a value held modulo 8192 (or
modulo 65536) is its bit 0", and "the representatives of GF(2) are 0 and 1". -/
def Obligations.BinaryConversions : Prop := ∀ (s : State) (d r : Reg),
  (EncodedR (.q2b d r) 0x60 (fieldOf d) (fieldOf r) 0 0 ∧
    ∃ t, exec (.q2b d r) s = .next t ∧ RetiredQuietly s t [d] [] [] [] ∧
      ∀ i < 701, t.b[d].getLsbD i = (coef s.q[r] i).getLsbD 0) ∧
  (EncodedR (.b2q d r) 0x61 (fieldOf d) (fieldOf r) 0 0 ∧
    ∃ t, exec (.b2q d r) s = .next t ∧ RetiredQuietly s t [] [] [d] [] ∧ PaddingZero t.q[d] ∧
      ∀ i < 701, coef t.q[d] i = if s.b[r].getLsbD i then 1 else 0)

/-- Q2T and T2Q (R213, R214): the centred representative modulo 3, always valid; and 0, 1, 0xFFFF for the three valid pairs,
0xFFFF for the invalid one. The centred reduction, and the formula that gives 0xFFFF for the invalid pair, are general knowledge
by the spec's own mark (PRESUMED, log entry 15; G5, G8). -/
def Obligations.TernaryConversions : Prop := ∀ (s : State) (d r : Reg),
  (EncodedR (.q2t d r) 0x62 (fieldOf d) (fieldOf r) 0 0 ∧
    ∃ t, exec (.q2t d r) s = .next t ∧ RetiredQuietly s t [] [d] [] [] ∧ tValid t.t[d] ∧
      ∀ i < 701, tValue t.t[d] i = ((((coef s.q[r] i).setWidth 13).toInt : Int) : ZMod 3)) ∧
  (EncodedR (.t2q d r) 0x63 (fieldOf d) (fieldOf r) 0 0 ∧
    ∃ t, exec (.t2q d r) s = .next t ∧ RetiredQuietly s t [] [] [d] [] ∧ PaddingZero t.q[d] ∧
      ∀ i < 701, coef t.q[d] i = match pairAt s.t[r] i with
        | .zero => 0
        | .plus => 1
        | .minus => 0xFFFF
        | .invalid => 0xFFFF)

/-- Q2TC (R215): the pair of the two low bits of every coefficient, always valid; the mask says whether every coefficient is
0, 1 or 0x1FFF on all 16 bits; and where it is true the ternary result is that of Q2T. That the ternary result is made from the
two low bits is general knowledge by the spec's own mark (PRESUMED, log entry 15; G6). -/
def Obligations.CheckedConversion : Prop := ∀ (s : State) (td qs wk : Reg),
  EncodedR (.q2tc td qs wk) 0x64 (fieldOf td) (fieldOf qs) (fieldOf wk) 0 ∧
  ∃ t u, exec (.q2tc td qs wk) s = .next t ∧ exec (.q2t td qs) s = .next u ∧
    RetiredQuietly s t [] [td] [] [wk] ∧ tValid t.t[td] ∧
    (∀ i < 701, pairAt t.t[td] i = match digitOf (coef s.q[qs] i) with
      | 0 => .zero
      | 1 => .plus
      | _ => .minus) ∧
    ((∀ i < 701, coef s.q[qs] i = 0 ∨ coef s.q[qs] i = 1 ∨ coef s.q[qs] i = 0x1FFF) →
      t.readW wk = s.ones ∧ t.t[td] = u.t[td]) ∧
    ((∃ i < 701, coef s.q[qs] i ≠ 0 ∧ coef s.q[qs] i ≠ 1 ∧ coef s.q[qs] i ≠ 0x1FFF) → t.readW wk = 0)

/-- The properties of R216: for a valid register, T2Q then Q2T gives it back; with a QCLAMP between, Q2TC gives it back with
a true mask; without the QCLAMP the mask is 0 whenever a coefficient is -1. -/
def Obligations.ConversionRoundTrips : Prop := ∀ (s : State) (t0 t1 q0 w0 : Reg), tValid s.t[t0] →
  ∃ s1 s2 s3 s4 s5, exec (.t2q q0 t0) s = .next s1 ∧ exec (.q2t t1 q0) s1 = .next s2 ∧ s2.t[t1] = s.t[t0] ∧
    exec (.qclamp q0) s1 = .next s3 ∧ exec (.q2tc t1 q0 w0) s3 = .next s4 ∧ s4.readW w0 = s.ones ∧ s4.t[t1] = s.t[t0] ∧
    exec (.q2tc t1 q0 w0) s1 = .next s5 ∧ ((∃ i < 701, pairAt s.t[t0] i = .minus) → s5.readW w0 = 0)
end

