-- ==== Sys2Proof/Laws/Poly.lean ====
section
/-!
SUPPORT. What a bit vector or a coefficient list built position by position holds at each position, and extensionality.
-/

namespace Sys2Proof.Machine

theorem natOfBits_lt (f : Nat → Bool) (n : Nat) : natOfBits f n < 2 ^ n := by
  induction n with
  | zero => simp [natOfBits]
  | succ n ih =>
    have h : (f n).toNat ≤ 1 := Bool.toNat_le (f n)
    have : 2 ^ n * (f n).toNat ≤ 2 ^ n * 1 := Nat.mul_le_mul_left _ h
    simp only [natOfBits, pow_succ]
    omega

theorem testBit_natOfBits (f : Nat → Bool) (n i : Nat) : (natOfBits f n).testBit i = (decide (i < n) && f i) := by
  induction n with
  | zero => simp [natOfBits]
  | succ n ih =>
    have key : natOfBits f (n + 1) = 2 ^ n * (f n).toNat + natOfBits f n := by rw [natOfBits, Nat.add_comm]
    rw [key, Nat.testBit_two_pow_mul_add _ (natOfBits_lt f n), ih]
    by_cases h : i < n
    · have h1 : i < n + 1 := by omega
      simp [h, h1]
    · by_cases e : i = n
      · subst e
        cases f i <;> simp
      · have h1 : ¬ i < n + 1 := by omega
        have h2 : i - n ≠ 0 := by omega
        have h3 : Nat.testBit 1 (i - n) = false := by
          rw [← Bool.not_eq_true, Nat.testBit_one_eq_true_iff_self_eq_zero]
          exact h2
        cases f n <;> simp [h, h1, h3]

@[simp] theorem getLsbD_bitsOf (n : Nat) (f : Nat → Bool) (i : Nat) :
    (bitsOf n f).getLsbD i = (decide (i < n) && f i) := by
  simp only [bitsOf, BitVec.getLsbD_ofNat, testBit_natOfBits]
  cases decide (i < n) <;> simp

/-- Two bit vectors that agree at every position below their width are equal. -/
theorem bits_ext {n : Nat} {u v : BitVec n} (h : ∀ i, i < n → u.getLsbD i = v.getLsbD i) : u = v :=
  BitVec.eq_of_getLsbD_eq h

@[simp] theorem coef_tabulate (n : Nat) (f : Nat → Coeff) (i : Nat) :
    coef (tabulate n f) i = if i < n then f i else 0 := by
  simp only [coef, tabulate, Array.getD_eq_getD_getElem?, List.getElem?_toArray, List.getElem?_map]
  by_cases h : i < n
  · simp [h]
  · simp [h]

theorem coef_getElem {n : Nat} (v : Vector Coeff n) (i : Nat) (h : i < n) : coef v i = v[i] := by
  simp [coef, Array.getD_eq_getD_getElem?, h]

theorem coef_outside {n : Nat} (v : Vector Coeff n) (i : Nat) (h : n ≤ i) : coef v i = 0 := by
  simp [coef, Array.getD_eq_getD_getElem?, h]

/-- Two coefficient lists that agree at every position are equal. -/
theorem coeffs_ext {n : Nat} {u v : Vector Coeff n} (h : ∀ i, i < n → coef u i = coef v i) : u = v := by
  apply Vector.ext
  intro i hi
  rw [← coef_getElem u i hi, ← coef_getElem v i hi, h i hi]

@[simp] theorem coef_dropPadding (v : ModQPoly) (i : Nat) : coef (dropPadding v) i = if i < 701 then coef v i else 0 := by
  simp [dropPadding]

@[simp] theorem coef_withPadding (c : Coeffs) (i : Nat) : coef (withPadding c) i = coef c i := by
  simp only [withPadding, coef_tabulate]
  split
  · rfl
  · rw [coef_outside c i (by omega)]

/-- Reading back the coefficients written: the padding is dropped again. -/
@[simp] theorem dropPadding_withPadding (c : Coeffs) : dropPadding (withPadding c) = c := by
  apply coeffs_ext
  intro i hi
  simp [hi]

@[simp] theorem getLsbD_bcast (bit : Bool) (i : Nat) : (bcast bit).getLsbD i = (decide (i < 701) && bit) := by
  cases bit
  · simp [bcast]
  · rw [bcast, if_pos rfl, BitVec.getLsbD_allOnes, Bool.and_true]

end Sys2Proof.Machine
end

