-- ==== Sys2Proof/Laws/State.lean ====
section
/-!
SUPPORT. One lemma per field per update of the state, true by rfl, and what reading a register gives after a write.
-/

namespace Sys2Proof.Machine

/-! ### setB -/

@[simp] theorem setB_params (s : State) (r : Reg) (v : BinaryPoly) : (s.setB r v).params = s.params := rfl
@[simp] theorem setB_b (s : State) (r : Reg) (v : BinaryPoly) : (s.setB r v).b = s.b.set r v := rfl
@[simp] theorem setB_t (s : State) (r : Reg) (v : BinaryPoly) : (s.setB r v).t = s.t := rfl
@[simp] theorem setB_q (s : State) (r : Reg) (v : BinaryPoly) : (s.setB r v).q = s.q := rfl
@[simp] theorem setB_w (s : State) (r : Reg) (v : BinaryPoly) : (s.setB r v).w = s.w := rfl
@[simp] theorem setB_pc (s : State) (r : Reg) (v : BinaryPoly) : (s.setB r v).pc = s.pc := rfl
@[simp] theorem setB_runState (s : State) (r : Reg) (v : BinaryPoly) : (s.setB r v).runState = s.runState := rfl
@[simp] theorem setB_afail (s : State) (r : Reg) (v : BinaryPoly) : (s.setB r v).afail = s.afail := rfl
@[simp] theorem setB_cause (s : State) (r : Reg) (v : BinaryPoly) : (s.setB r v).cause = s.cause := rfl
@[simp] theorem setB_epc (s : State) (r : Reg) (v : BinaryPoly) : (s.setB r v).epc = s.epc := rfl
@[simp] theorem setB_mem (s : State) (r : Reg) (v : BinaryPoly) : (s.setB r v).mem = s.mem := rfl
@[simp] theorem setB_cmd (s : State) (r : Reg) (v : BinaryPoly) : (s.setB r v).cmd = s.cmd := rfl

/-! ### setT -/

@[simp] theorem setT_params (s : State) (r : Reg) (v : TernaryPoly) : (s.setT r v).params = s.params := rfl
@[simp] theorem setT_b (s : State) (r : Reg) (v : TernaryPoly) : (s.setT r v).b = s.b := rfl
@[simp] theorem setT_t (s : State) (r : Reg) (v : TernaryPoly) : (s.setT r v).t = s.t.set r v := rfl
@[simp] theorem setT_q (s : State) (r : Reg) (v : TernaryPoly) : (s.setT r v).q = s.q := rfl
@[simp] theorem setT_w (s : State) (r : Reg) (v : TernaryPoly) : (s.setT r v).w = s.w := rfl
@[simp] theorem setT_pc (s : State) (r : Reg) (v : TernaryPoly) : (s.setT r v).pc = s.pc := rfl
@[simp] theorem setT_runState (s : State) (r : Reg) (v : TernaryPoly) : (s.setT r v).runState = s.runState := rfl
@[simp] theorem setT_afail (s : State) (r : Reg) (v : TernaryPoly) : (s.setT r v).afail = s.afail := rfl
@[simp] theorem setT_cause (s : State) (r : Reg) (v : TernaryPoly) : (s.setT r v).cause = s.cause := rfl
@[simp] theorem setT_epc (s : State) (r : Reg) (v : TernaryPoly) : (s.setT r v).epc = s.epc := rfl
@[simp] theorem setT_mem (s : State) (r : Reg) (v : TernaryPoly) : (s.setT r v).mem = s.mem := rfl
@[simp] theorem setT_cmd (s : State) (r : Reg) (v : TernaryPoly) : (s.setT r v).cmd = s.cmd := rfl

/-! ### setCoeffs -/

@[simp] theorem setCoeffs_params (s : State) (r : Reg) (c : Coeffs) : (s.setCoeffs r c).params = s.params := rfl
@[simp] theorem setCoeffs_b (s : State) (r : Reg) (c : Coeffs) : (s.setCoeffs r c).b = s.b := rfl
@[simp] theorem setCoeffs_t (s : State) (r : Reg) (c : Coeffs) : (s.setCoeffs r c).t = s.t := rfl
@[simp] theorem setCoeffs_q (s : State) (r : Reg) (c : Coeffs) : (s.setCoeffs r c).q = s.q.set r (withPadding c) := rfl
@[simp] theorem setCoeffs_w (s : State) (r : Reg) (c : Coeffs) : (s.setCoeffs r c).w = s.w := rfl
@[simp] theorem setCoeffs_pc (s : State) (r : Reg) (c : Coeffs) : (s.setCoeffs r c).pc = s.pc := rfl
@[simp] theorem setCoeffs_runState (s : State) (r : Reg) (c : Coeffs) : (s.setCoeffs r c).runState = s.runState := rfl
@[simp] theorem setCoeffs_afail (s : State) (r : Reg) (c : Coeffs) : (s.setCoeffs r c).afail = s.afail := rfl
@[simp] theorem setCoeffs_cause (s : State) (r : Reg) (c : Coeffs) : (s.setCoeffs r c).cause = s.cause := rfl
@[simp] theorem setCoeffs_epc (s : State) (r : Reg) (c : Coeffs) : (s.setCoeffs r c).epc = s.epc := rfl
@[simp] theorem setCoeffs_mem (s : State) (r : Reg) (c : Coeffs) : (s.setCoeffs r c).mem = s.mem := rfl
@[simp] theorem setCoeffs_cmd (s : State) (r : Reg) (c : Coeffs) : (s.setCoeffs r c).cmd = s.cmd := rfl

/-! ### setW -/

@[simp] theorem setW_params (s : State) (r : Reg) (v : Word) : (s.setW r v).params = s.params := rfl
@[simp] theorem setW_b (s : State) (r : Reg) (v : Word) : (s.setW r v).b = s.b := rfl
@[simp] theorem setW_t (s : State) (r : Reg) (v : Word) : (s.setW r v).t = s.t := rfl
@[simp] theorem setW_q (s : State) (r : Reg) (v : Word) : (s.setW r v).q = s.q := rfl
@[simp] theorem setW_w (s : State) (r : Reg) (v : Word) : (s.setW r v).w = s.w.set r (v &&& s.ones) := rfl
@[simp] theorem setW_pc (s : State) (r : Reg) (v : Word) : (s.setW r v).pc = s.pc := rfl
@[simp] theorem setW_runState (s : State) (r : Reg) (v : Word) : (s.setW r v).runState = s.runState := rfl
@[simp] theorem setW_afail (s : State) (r : Reg) (v : Word) : (s.setW r v).afail = s.afail := rfl
@[simp] theorem setW_cause (s : State) (r : Reg) (v : Word) : (s.setW r v).cause = s.cause := rfl
@[simp] theorem setW_epc (s : State) (r : Reg) (v : Word) : (s.setW r v).epc = s.epc := rfl
@[simp] theorem setW_mem (s : State) (r : Reg) (v : Word) : (s.setW r v).mem = s.mem := rfl
@[simp] theorem setW_cmd (s : State) (r : Reg) (v : Word) : (s.setW r v).cmd = s.cmd := rfl

/-! ### memWrite -/

@[simp] theorem memWrite_params (s : State) (a : Nat) (bytes : List Byte) : (s.memWrite a bytes).params = s.params := rfl
@[simp] theorem memWrite_b (s : State) (a : Nat) (bytes : List Byte) : (s.memWrite a bytes).b = s.b := rfl
@[simp] theorem memWrite_t (s : State) (a : Nat) (bytes : List Byte) : (s.memWrite a bytes).t = s.t := rfl
@[simp] theorem memWrite_q (s : State) (a : Nat) (bytes : List Byte) : (s.memWrite a bytes).q = s.q := rfl
@[simp] theorem memWrite_w (s : State) (a : Nat) (bytes : List Byte) : (s.memWrite a bytes).w = s.w := rfl
@[simp] theorem memWrite_pc (s : State) (a : Nat) (bytes : List Byte) : (s.memWrite a bytes).pc = s.pc := rfl
@[simp] theorem memWrite_runState (s : State) (a : Nat) (bytes : List Byte) : (s.memWrite a bytes).runState = s.runState := rfl
@[simp] theorem memWrite_afail (s : State) (a : Nat) (bytes : List Byte) : (s.memWrite a bytes).afail = s.afail := rfl
@[simp] theorem memWrite_cause (s : State) (a : Nat) (bytes : List Byte) : (s.memWrite a bytes).cause = s.cause := rfl
@[simp] theorem memWrite_epc (s : State) (a : Nat) (bytes : List Byte) : (s.memWrite a bytes).epc = s.epc := rfl
@[simp] theorem memWrite_mem (s : State) (a : Nat) (bytes : List Byte) : (s.memWrite a bytes).mem = writeCells s.mem a bytes := rfl
@[simp] theorem memWrite_cmd (s : State) (a : Nat) (bytes : List Byte) : (s.memWrite a bytes).cmd = s.cmd := rfl

/-! ### noteAssertion -/

@[simp] theorem noteAssertion_params (s : State) (failed : Bool) : (s.noteAssertion failed).params = s.params := rfl
@[simp] theorem noteAssertion_b (s : State) (failed : Bool) : (s.noteAssertion failed).b = s.b := rfl
@[simp] theorem noteAssertion_t (s : State) (failed : Bool) : (s.noteAssertion failed).t = s.t := rfl
@[simp] theorem noteAssertion_q (s : State) (failed : Bool) : (s.noteAssertion failed).q = s.q := rfl
@[simp] theorem noteAssertion_w (s : State) (failed : Bool) : (s.noteAssertion failed).w = s.w := rfl
@[simp] theorem noteAssertion_pc (s : State) (failed : Bool) : (s.noteAssertion failed).pc = s.pc := rfl
@[simp] theorem noteAssertion_runState (s : State) (failed : Bool) : (s.noteAssertion failed).runState = s.runState := rfl
@[simp] theorem noteAssertion_afail (s : State) (failed : Bool) : (s.noteAssertion failed).afail = (s.afail || failed) := rfl
@[simp] theorem noteAssertion_cause (s : State) (failed : Bool) : (s.noteAssertion failed).cause = s.cause := rfl
@[simp] theorem noteAssertion_epc (s : State) (failed : Bool) : (s.noteAssertion failed).epc = s.epc := rfl
@[simp] theorem noteAssertion_mem (s : State) (failed : Bool) : (s.noteAssertion failed).mem = s.mem := rfl
@[simp] theorem noteAssertion_cmd (s : State) (failed : Bool) : (s.noteAssertion failed).cmd = s.cmd := rfl

/-! ### advance -/

@[simp] theorem advance_params (s : State) : (s.advance).params = s.params := rfl
@[simp] theorem advance_b (s : State) : (s.advance).b = s.b := rfl
@[simp] theorem advance_t (s : State) : (s.advance).t = s.t := rfl
@[simp] theorem advance_q (s : State) : (s.advance).q = s.q := rfl
@[simp] theorem advance_w (s : State) : (s.advance).w = s.w := rfl
@[simp] theorem advance_pc (s : State) : (s.advance).pc = s.pc + 1 := rfl
@[simp] theorem advance_runState (s : State) : (s.advance).runState = s.runState := rfl
@[simp] theorem advance_afail (s : State) : (s.advance).afail = s.afail := rfl
@[simp] theorem advance_cause (s : State) : (s.advance).cause = s.cause := rfl
@[simp] theorem advance_epc (s : State) : (s.advance).epc = s.epc := rfl
@[simp] theorem advance_mem (s : State) : (s.advance).mem = s.mem := rfl
@[simp] theorem advance_cmd (s : State) : (s.advance).cmd = s.cmd := rfl

/-! ### raiseFault -/

@[simp] theorem raiseFault_params (c : FaultCause) (s : State) : (s.raiseFault c).params = s.params := rfl
@[simp] theorem raiseFault_b (c : FaultCause) (s : State) : (s.raiseFault c).b = s.b := rfl
@[simp] theorem raiseFault_t (c : FaultCause) (s : State) : (s.raiseFault c).t = s.t := rfl
@[simp] theorem raiseFault_q (c : FaultCause) (s : State) : (s.raiseFault c).q = s.q := rfl
@[simp] theorem raiseFault_w (c : FaultCause) (s : State) : (s.raiseFault c).w = s.w := rfl
@[simp] theorem raiseFault_pc (c : FaultCause) (s : State) : (s.raiseFault c).pc = s.pc := rfl
@[simp] theorem raiseFault_runState (c : FaultCause) (s : State) : (s.raiseFault c).runState = .faulted := rfl
@[simp] theorem raiseFault_afail (c : FaultCause) (s : State) : (s.raiseFault c).afail = s.afail := rfl
@[simp] theorem raiseFault_cause (c : FaultCause) (s : State) : (s.raiseFault c).cause = c.code := rfl
@[simp] theorem raiseFault_epc (c : FaultCause) (s : State) : (s.raiseFault c).epc = s.pc := rfl
@[simp] theorem raiseFault_mem (c : FaultCause) (s : State) : (s.raiseFault c).mem = s.mem := rfl
@[simp] theorem raiseFault_cmd (c : FaultCause) (s : State) : (s.raiseFault c).cmd = s.cmd := rfl

/-! ### The state after power-up and reset -/

@[simp] theorem resetWith_params (p : Params) : (State.resetWith p).params = p := rfl
@[simp] theorem resetWith_b (p : Params) : (State.resetWith p).b = Vector.replicate 8 0 := rfl
@[simp] theorem resetWith_t (p : Params) : (State.resetWith p).t = Vector.replicate 8 ⟨0, 0⟩ := rfl
@[simp] theorem resetWith_q (p : Params) : (State.resetWith p).q = Vector.replicate 8 (Vector.replicate 704 0) := rfl
@[simp] theorem resetWith_w (p : Params) : (State.resetWith p).w = Vector.replicate 8 0 := rfl
@[simp] theorem resetWith_pc (p : Params) : (State.resetWith p).pc = 0 := rfl
@[simp] theorem resetWith_runState (p : Params) : (State.resetWith p).runState = .idle := rfl
@[simp] theorem resetWith_afail (p : Params) : (State.resetWith p).afail = false := rfl
@[simp] theorem resetWith_cause (p : Params) : (State.resetWith p).cause = 0 := rfl
@[simp] theorem resetWith_epc (p : Params) : (State.resetWith p).epc = 0 := rfl
@[simp] theorem resetWith_mem (p : Params) : (State.resetWith p).mem = [] := rfl
@[simp] theorem resetWith_cmd (p : Params) : (State.resetWith p).cmd = [] := rfl

/-! ### Derived views -/

@[simp] theorem setB_ones (s : State) (r : Reg) (v : BinaryPoly) : (s.setB r v).ones = s.ones := rfl
@[simp] theorem setT_ones (s : State) (r : Reg) (v : TernaryPoly) : (s.setT r v).ones = s.ones := rfl
@[simp] theorem setCoeffs_ones (s : State) (r : Reg) (c : Coeffs) : (s.setCoeffs r c).ones = s.ones := rfl
@[simp] theorem setW_ones (s : State) (r : Reg) (v : Word) : (s.setW r v).ones = s.ones := rfl
@[simp] theorem memWrite_ones (s : State) (a : Nat) (bytes : List Byte) : (s.memWrite a bytes).ones = s.ones := rfl
@[simp] theorem noteAssertion_ones (s : State) (failed : Bool) : (s.noteAssertion failed).ones = s.ones := rfl
@[simp] theorem advance_ones (s : State) : s.advance.ones = s.ones := rfl
@[simp] theorem raiseFault_ones (c : FaultCause) (s : State) : (s.raiseFault c).ones = s.ones := rfl

/-! ### Reading a register after a write of the file -/

/-- An element of a register file after one of its elements was written. -/
theorem file_set {α : Type} (v : Vector α 8) (r k : Reg) (x : α) : (v.set r x)[k] = if k = r then x else v[k] := by
  rw [Fin.getElem_fin, Vector.getElem_set]
  by_cases h : k = r
  · simp [h]
  · have : ¬ r.val = k.val := fun e => h (Fin.ext e.symm)
    simp [h, this]

@[simp] theorem file_set_same {α : Type} (v : Vector α 8) (r : Reg) (x : α) : (v.set r x)[r] = x := by
  rw [file_set]; simp

theorem file_set_other {α : Type} (v : Vector α 8) {r k : Reg} (x : α) (h : k ≠ r) : (v.set r x)[k] = v[k] := by
  rw [file_set]; simp [h]

@[simp] theorem file_replicate {α : Type} (r : Reg) (x : α) : (Vector.replicate 8 x)[r] = x := by
  rw [Fin.getElem_fin, Vector.getElem_replicate]

/-- The coefficients of a mod-Q register after one was written. -/
theorem setCoeffs_coeffs (s : State) (r k : Reg) (c : Coeffs) :
    (s.setCoeffs r c).coeffs k = if k = r then c else s.coeffs k := by
  simp only [State.coeffs, setCoeffs_q, file_set]
  by_cases h : k = r
  · rw [if_pos h, if_pos h, dropPadding_withPadding]
  · rw [if_neg h, if_neg h]

/-- The word of a scalar register after one was written: its W bits. -/
theorem setW_readW (s : State) (r k : Reg) (v : Word) :
    (s.setW r v).readW k = if k = r then v &&& s.ones else s.readW k := by
  simp only [State.readW, setW_w, setW_ones, file_set]
  by_cases h : k = r
  · rw [if_pos h, if_pos h, BitVec.and_assoc, BitVec.and_self]
  · rw [if_neg h, if_neg h]

end Sys2Proof.Machine
end

