-- ==== Sys2Proof/Laws/Memory.lean ====
section
/-!
SUPPORT. The laws of the memories: reading back a write, that every write keeps the canonical form, and what a range
written holds.
-/

namespace Sys2Proof.Machine

/-! ### One cell -/

/-- A write is read back, and leaves every other position alone. -/
theorem cellLookup_cellWrite {α : Type} (m : List (Nat × α)) (a k : Nat) (x : α) :
    cellLookup (cellWrite m a x) k = if k = a then some x else cellLookup m k := by
  induction m with
  | nil =>
    by_cases h : k = a
    · simp [cellWrite, cellLookup, h]
    · simp [cellWrite, cellLookup, h]
      exact fun e => h e.symm
  | cons c rest ih =>
    obtain ⟨j, v⟩ := c
    unfold cellWrite
    split
    · by_cases h : k = a
      · simp [cellLookup, h]
      · have : a ≠ k := fun e => h e.symm
        simp [cellLookup, h, this]
    · split
      · rename_i h2
        subst h2
        by_cases h : k = a
        · simp [cellLookup, h]
        · have : a ≠ k := fun e => h e.symm
          simp [cellLookup, h, this]
      · rename_i h2
        rw [cellLookup, ih, cellLookup]
        by_cases h : k = a
        · have : j ≠ k := fun e => h2 (by rw [e, h])
          subst h
          simp [this]
        · simp [h]

/-- The positions after a write are the position written and those before. -/
theorem mem_cellWrite {α : Type} {m : List (Nat × α)} {a : Nat} {x : α} {c : Nat × α} (h : c ∈ cellWrite m a x) :
    c = (a, x) ∨ c ∈ m := by
  induction m with
  | nil => simpa [cellWrite] using h
  | cons d rest ih =>
    obtain ⟨j, v⟩ := d
    unfold cellWrite at h
    split at h
    · simpa using h
    · split at h
      · rcases List.mem_cons.mp h with e | e
        · exact Or.inl e
        · exact Or.inr (List.mem_cons_of_mem _ e)
      · rcases List.mem_cons.mp h with e | e
        · exact Or.inr (by simp [e])
        · rcases ih e with e | e
          · exact Or.inl e
          · exact Or.inr (List.mem_cons_of_mem _ e)

/-- A write keeps the canonical form. -/
theorem cellWrite_wf {α : Type} {m : List (Nat × α)} (h : Memory.wf m) (a : Nat) (x : α) :
    Memory.wf (cellWrite m a x) := by
  induction m with
  | nil => simp [cellWrite, Memory.wf]
  | cons d rest ih =>
    obtain ⟨j, v⟩ := d
    rw [Memory.wf, List.pairwise_cons] at h
    unfold cellWrite
    split
    · rename_i h1
      refine List.pairwise_cons.mpr ⟨?_, List.pairwise_cons.mpr h⟩
      intro c hc
      rcases List.mem_cons.mp hc with e | e
      · simpa [e] using h1
      · exact Nat.lt_trans h1 (h.1 c e)
    · split
      · rename_i h1 h2
        subst h2
        exact List.pairwise_cons.mpr ⟨h.1, h.2⟩
      · rename_i h1 h2
        refine List.pairwise_cons.mpr ⟨?_, ih h.2⟩
        intro c hc
        rcases mem_cellWrite hc with e | e
        · simp only [e]
          omega
        · exact h.1 c e

/-! ### A range of bytes -/

/-- What `MemWrite` leaves at a position: the byte written there, or what was there. -/
theorem cellLookup_writeCells (bytes : List Byte) (m : Memory) (a k : Nat) :
    cellLookup (writeCells m a bytes) k =
      if a ≤ k ∧ k < a + bytes.length then some (bytes.getD (k - a) 0) else cellLookup m k := by
  induction bytes generalizing m a with
  | nil =>
    have : ¬ (a ≤ k ∧ k < a + ([] : List Byte).length) := by simp
    rw [if_neg this, writeCells]
  | cons v rest ih =>
    rw [writeCells, ih, cellLookup_cellWrite]
    by_cases h : k = a
    · subst h
      have h1 : ¬ (k + 1 ≤ k ∧ k < k + 1 + rest.length) := by omega
      simp
    · by_cases h2 : a + 1 ≤ k ∧ k < a + 1 + rest.length
      · have h3 : a ≤ k ∧ k < a + (v :: rest).length := by simp only [List.length_cons]; omega
        have h4 : k - a = (k - (a + 1)) + 1 := by omega
        rw [if_pos h2, if_pos h3, h4, List.getD_cons_succ]
      · have h3 : ¬ (a ≤ k ∧ k < a + (v :: rest).length) := by simp only [List.length_cons]; omega
        rw [if_neg h2, if_neg h3, if_neg h]

theorem writeCells_wf (bytes : List Byte) {m : Memory} (h : Memory.wf m) (a : Nat) : Memory.wf (writeCells m a bytes) := by
  induction bytes generalizing m a with
  | nil => exact h
  | cons v rest ih => exact ih (cellWrite_wf h a v) (a + 1)

theorem mem_writeCells {bytes : List Byte} {m : Memory} {a : Nat} {c : Host.Cell} (h : c ∈ writeCells m a bytes) :
    (a ≤ c.1 ∧ c.1 < a + bytes.length) ∨ c ∈ m := by
  induction bytes generalizing m a with
  | nil => exact Or.inr h
  | cons v rest ih =>
    simp only [List.length_cons]
    rcases ih h with e | e
    · exact Or.inl (by omega)
    · rcases mem_cellWrite e with e | e
      · exact Or.inl (by simp only [e]; omega)
      · exact Or.inr e

/-- Every byte after `MemWrite`: those of the range are the ones written, every other one is as before. -/
theorem readByte_memWrite (s : State) (a : Nat) (bytes : List Byte) (k : Nat) :
    (s.memWrite a bytes).readByte k =
      if a ≤ k ∧ k < a + bytes.length then bytes.getD (k - a) 0 else s.readByte k := by
  simp only [State.readByte, memWrite_mem, cellLookup_writeCells]
  split <;> simp

/-- A byte inside the range written. -/
theorem readByte_memWrite_inside (s : State) (a : Nat) (bytes : List Byte) (i : Nat) (h : i < bytes.length) :
    (s.memWrite a bytes).readByte (a + i) = bytes.getD i 0 := by
  rw [readByte_memWrite, if_pos ⟨Nat.le_add_right a i, Nat.add_lt_add_left h a⟩, Nat.add_sub_cancel_left]

/-- A byte outside the range written. -/
theorem readByte_memWrite_outside (s : State) (a : Nat) (bytes : List Byte) (k : Nat) (h : k < a ∨ a + bytes.length ≤ k) :
    (s.memWrite a bytes).readByte k = s.readByte k := by
  rw [readByte_memWrite, if_neg]
  omega

@[simp] theorem length_memRead (s : State) (a n : Nat) : (s.memRead a n).length = n := by simp [State.memRead]

/-- Byte i of what `MemRead` returns. -/
theorem getD_memRead (s : State) (a n i : Nat) (h : i < n) : (s.memRead a n).getD i 0 = s.readByte (a + i) := by
  simp [State.memRead, List.getD_eq_getElem?_getD, h]

/-! ### Reading a byte after an update that is no store -/

@[simp] theorem setB_readByte (s : State) (r : Reg) (v : BinaryPoly) (a : Nat) : (s.setB r v).readByte a = s.readByte a := rfl
@[simp] theorem setT_readByte (s : State) (r : Reg) (v : TernaryPoly) (a : Nat) : (s.setT r v).readByte a = s.readByte a := rfl
@[simp] theorem setCoeffs_readByte (s : State) (r : Reg) (c : Coeffs) (a : Nat) :
    (s.setCoeffs r c).readByte a = s.readByte a := rfl
@[simp] theorem setW_readByte (s : State) (r : Reg) (v : Word) (a : Nat) : (s.setW r v).readByte a = s.readByte a := rfl
@[simp] theorem noteAssertion_readByte (s : State) (failed : Bool) (a : Nat) :
    (s.noteAssertion failed).readByte a = s.readByte a := rfl
@[simp] theorem advance_readByte (s : State) (a : Nat) : s.advance.readByte a = s.readByte a := rfl
@[simp] theorem raiseFault_readByte (c : FaultCause) (s : State) (a : Nat) :
    (s.raiseFault c).readByte a = s.readByte a := rfl

/-- The state after power-up and reset has both memories in canonical form. -/
theorem resetWith_mem_wf (p : Params) : Memory.wf (State.resetWith p).mem ∧ Memory.wf (State.resetWith p).cmd := by
  simp [Memory.wf]

end Sys2Proof.Machine
end

