-- ==== Sys2Proof/Laws/Commands.lean ====
section
/-!
SUPPORT. What the shared ends of a command and the step can do, said once.
-/

namespace Sys2Proof.Machine

/-- A command that retires answers the written state with `pc` moved on. -/
theorem retire_next {s t : State} (h : retire s = .next t) : t = s.advance := by
  cases h
  rfl

/-- A command that faults answers the state with the fault raised. -/
theorem takeFault_next {c : FaultCause} {s t : State} (h : takeFault c s = .next t) : t = s.raiseFault c := by
  cases h
  rfl

/-- What the fetch answers (R81): a cause, or the command the word at `pc` decodes to. -/
theorem fetch_ok {s : State} {i : Instr} (h : s.fetch = .ok i) :
    s.pc.toNat < s.params.cmdWords ∧ decode (s.readCmd s.pc.toNat) = .ok i := by
  unfold State.fetch at h
  split at h
  · cases h
  · rename_i h1
    split at h
    · rename_i j hj
      cases h
      exact ⟨by omega, hj⟩
    · cases h

/-- What a step can do: nothing outside RUN, a fault of the fetch, or one command. -/
theorem step_cases {s t : State} (h : step s = .next t) :
    (s.runState ≠ .run ∧ t = s) ∨
    (s.runState = .run ∧ ∃ c, s.fetch = .error c ∧ t = s.raiseFault c) ∨
    (s.runState = .run ∧ ∃ i, s.fetch = .ok i ∧ exec i s = .next t) := by
  unfold step at h
  split at h
  · rename_i hr
    split at h
    · rename_i i hi
      exact Or.inr (Or.inr ⟨hr, i, hi, h⟩)
    · rename_i c hc
      exact Or.inr (Or.inl ⟨hr, c, hc, takeFault_next h⟩)
  all_goals
    rename_i hr
    cases h
    exact Or.inl ⟨by simp [hr], rfl⟩

end Sys2Proof.Machine
end

