-- ==== Sys2Proof/Laws/Lanes.lean ====
section
/-!
SUPPORT. Every operation on polynomials read at one position: what it holds there, of the operands' values at some
positions. No later proof unfolds an operation.
-/

namespace Sys2Proof.Machine

/-! ### Binary polynomials -/

theorem getLsbD_lsh1 (v : BinaryPoly) (i : Nat) :
    (lsh1 v).getLsbD i = (decide (i < 701) && !decide (i < 1) && v.getLsbD (i - 1)) := by
  rw [lsh1, BitVec.getLsbD_shiftLeft]

theorem getLsbD_rsh1 (v : BinaryPoly) (i : Nat) : (rsh1 v).getLsbD i = v.getLsbD (1 + i) := by
  rw [rsh1, BitVec.getLsbD_ushiftRight]

theorem getLsbD_modphi2 (v : BinaryPoly) (i : Nat) :
    (modphi2 v).getLsbD i = (decide (i < 700) && (v.getLsbD i ^^ v.getLsbD 700)) := by
  rw [modphi2, getLsbD_bitsOf]
  by_cases h : i < 700
  · have : i < 701 := by omega
    simp [h, this]
  · simp [h]

theorem getLsbD_rev700 (v : BinaryPoly) (i : Nat) : (rev700 v).getLsbD i = (decide (i < 700) && v.getLsbD (699 - i)) := by
  rw [rev700, getLsbD_bitsOf]
  by_cases h : i < 700
  · have : i < 701 := by omega
    simp [h, this]
  · simp [h]

theorem getLsbD_fmadd (out addend mask : BinaryPoly) (i : Nat) :
    (fmadd out addend mask).getLsbD i = (out.getLsbD i ^^ (addend.getLsbD i && mask.getLsbD i)) := by
  rw [fmadd, BitVec.getLsbD_xor, BitVec.getLsbD_and]

/-! ### Ternary polynomials: the planes at one position -/

/-- A polynomial whose planes both hold the bits of one coefficient everywhere. -/
theorem getLsbD_lane_s (x : TernaryPoly) (k i : Nat) (h : i < 701) : (lane x k).s.getLsbD i = x.s.getLsbD k := by
  rw [lane, getLsbD_bcast, decide_eq_true h, Bool.true_and]

theorem getLsbD_lane_a (x : TernaryPoly) (k i : Nat) (h : i < 701) : (lane x k).a.getLsbD i = x.a.getLsbD k := by
  rw [lane, getLsbD_bcast, decide_eq_true h, Bool.true_and]

theorem getLsbD_encodeGF3_s (f : Nat → ZMod 3) (i : Nat) (h : i < 701) :
    (encodeGF3 f).s.getLsbD i = decide (f i = -1) := by
  rw [encodeGF3, getLsbD_bitsOf, decide_eq_true h, Bool.true_and]

theorem getLsbD_encodeGF3_a (f : Nat → ZMod 3) (i : Nat) (h : i < 701) :
    (encodeGF3 f).a.getLsbD i = decide (f i ≠ 0) := by
  rw [encodeGF3, getLsbD_bitsOf, decide_eq_true h, Bool.true_and]

/-- A polynomial is valid exactly when no position holds the invalid pair (R24). -/
theorem tValid_iff (x : TernaryPoly) : tValid x = true ↔ ∀ i < 701, x.s.getLsbD i = true → x.a.getLsbD i = true := by
  rw [tValid, beq_iff_eq]
  constructor
  · intro h i hi hs
    have hz := congrArg (fun v => BitVec.getLsbD v i) h
    simp only [BitVec.getLsbD_and, BitVec.getLsbD_not, hs, decide_eq_true hi, Bool.true_and, BitVec.ofNat_eq_ofNat,
      BitVec.getLsbD_zero, Bool.not_eq_eq_eq_not, Bool.not_false] at hz
    exact hz
  · intro h
    apply bits_ext
    intro i hi
    rw [BitVec.getLsbD_and, BitVec.getLsbD_not]
    cases hs : x.s.getLsbD i
    · exact (BitVec.getLsbD_zero).symm
    · rw [h i hi hs, Bool.not_true, Bool.and_false, Bool.and_false]
      exact (BitVec.getLsbD_zero).symm

/-! ### Mod-Q polynomials -/

theorem coef_clampQ (c : Coeffs) (i : Nat) (h : i < 701) : coef (clampQ c) i = coef c i &&& 0x1FFF := by
  simp [clampQ, h]

theorem coef_modphiQ (c : Coeffs) (i : Nat) (h : i < 701) : coef (modphiQ c) i = coef c i - coef c 700 := by
  simp [modphiQ, h]

theorem coef_mulXm1_zero (c : Coeffs) : coef (mulXm1 c) 0 = coef c 700 - coef c 0 := by simp [mulXm1]

theorem coef_mulXm1_succ (c : Coeffs) (i : Nat) (h : i < 700) : coef (mulXm1 c) (i + 1) = coef c i - coef c (i + 1) := by
  simp [mulXm1, h]

theorem coef_addQ (u v : Coeffs) (i : Nat) (h : i < 701) : coef (addQ u v) i = coef u i + coef v i := by simp [addQ, h]

theorem coef_subQ (u v : Coeffs) (i : Nat) (h : i < 701) : coef (subQ u v) i = coef u i - coef v i := by simp [subQ, h]

theorem coef_negQ (c : Coeffs) (i : Nat) (h : i < 701) : coef (negQ c) i = 0 - coef c i := by simp [negQ, h]

theorem coef_cycMul16 (u v : Coeffs) (k : Nat) (h : k < 701) :
    coef (cycMul16 u v) k = ∑ i ∈ Finset.range 701, coef u i * coef v ((k + 701 - i) % 701) := by simp [cycMul16, h]

theorem getLsbD_bitsOfCoeffs (c : Coeffs) (i : Nat) (h : i < 701) : (bitsOfCoeffs c).getLsbD i = (coef c i).getLsbD 0 := by
  rw [bitsOfCoeffs, getLsbD_bitsOf]
  simp [h]

theorem coef_coeffsOfBits (v : BinaryPoly) (i : Nat) (h : i < 701) :
    coef (coeffsOfBits v) i = if v.getLsbD i then 1 else 0 := by
  rw [coeffsOfBits, coef_tabulate, if_pos h]
  cases v.getLsbD i <;> rfl

/-! ### Sampler, lift and packing -/

theorem coef_shortSample (signed : Bool) (bytes : List Byte) (i : Nat) (h : i < 700) :
    coef (shortSample signed bytes) i = t16 (mod3 (sampleByte signed (bytes.getD i 0))) := by
  have : i < 701 := by omega
  simp [shortSample, h, this]

theorem coef_shortSample_top (signed : Bool) (bytes : List Byte) : coef (shortSample signed bytes) 700 = 0 := by
  simp [shortSample]

theorem coef_plusCorrection (p : Coeffs) (i : Nat) (h : i < 701) :
    coef (plusCorrection p) i = if (neighbourSum p).getLsbD 15 && i % 2 == 0 then 0 - coef p i else coef p i := by
  cases hs : (neighbourSum p).getLsbD 15
  · rw [plusCorrection, hs]
    simp
  · rw [plusCorrection, hs, if_pos rfl, coef_tabulate, if_pos h]
    simp

theorem coef_liftReduced (a : Coeffs) (i : Nat) (h : i < 701) :
    coef (liftReduced a) i = t16 (mod3 (liftRaw a i - liftRaw a 700).toInt) := by simp [liftReduced, h]

@[simp] theorem length_marshalBytes (c : Coeffs) : (marshalBytes c).length = 1138 := by simp [marshalBytes]

@[simp] theorem length_marshal3Bytes (c : Coeffs) : (marshal3Bytes c).length = 140 := by simp [marshal3Bytes]

/-- Bit j of byte m of the packed form is stream bit 8·m + j (R195). -/
theorem getLsbD_marshalBytes (c : Coeffs) (m j : Nat) (hm : m < 1138) (hj : j < 8) :
    ((marshalBytes c).getD m 0).getLsbD j = streamBit c (8 * m + j) := by
  rw [marshalBytes, List.getD_eq_getElem?_getD, List.getElem?_map, List.getElem?_range hm]
  rw [Option.map_some, Option.getD_some, getLsbD_bitsOf]
  simp [hj]

theorem coef_unmarshalCoeffs (bytes : List Byte) (i : Nat) (h : i < 700) :
    coef (unmarshalCoeffs bytes) i = unmarshalField bytes i := by
  have : i < 701 := by omega
  simp [unmarshalCoeffs, h, this]

/-! ### Conversions -/

theorem coef_coeffsOfTernary (x : TernaryPoly) (i : Nat) (h : i < 701) :
    coef (coeffsOfTernary x) i =
      if x.s.getLsbD i then 0xFFFF else if x.a.getLsbD i then 1 else 0 := by
  rw [coeffsOfTernary, coef_tabulate, if_pos h]
  cases x.s.getLsbD i <;> cases x.a.getLsbD i <;> rfl

theorem getLsbD_ternaryOfCoeffs_s (c : Coeffs) (i : Nat) (h : i < 701) :
    (ternaryOfCoeffs c).s.getLsbD i = decide (mod3 (centred (coef c i)) = 2) := by
  rw [ternaryOfCoeffs, getLsbD_bitsOf, decide_eq_true h, Bool.true_and]

theorem getLsbD_ternaryOfCoeffs_a (c : Coeffs) (i : Nat) (h : i < 701) :
    (ternaryOfCoeffs c).a.getLsbD i = decide (mod3 (centred (coef c i)) ≠ 0) := by
  rw [ternaryOfCoeffs, getLsbD_bitsOf, decide_eq_true h, Bool.true_and]

theorem getLsbD_checkedTernary_s (c : Coeffs) (i : Nat) (h : i < 701) :
    (checkedTernary c).s.getLsbD i = (mod3FromModQ (coef c i)).getLsbD 1 := by
  rw [checkedTernary, getLsbD_bitsOf, decide_eq_true h, Bool.true_and]

theorem getLsbD_checkedTernary_a (c : Coeffs) (i : Nat) (h : i < 701) :
    (checkedTernary c).a.getLsbD i = ((mod3FromModQ (coef c i)).getLsbD 1 || (mod3FromModQ (coef c i)).getLsbD 0) := by
  rw [checkedTernary, getLsbD_bitsOf, decide_eq_true h, Bool.true_and]

theorem morallyTernary_iff (c : Coeffs) :
    morallyTernary c = true ↔ ∀ i < 701, coef c i = 0 ∨ coef c i = 1 ∨ coef c i = 0x1FFF := by
  simp [morallyTernary, or_assoc]

end Sys2Proof.Machine
end

