-- ==== Sys2Proof/Laws/Words.lean ====
section
/-!
SUPPORT. Bits of the scalar operand forms: `ONES_W`, masks, the word reversal and the lane mask.
-/

namespace Sys2Proof.Machine

@[simp] theorem getLsbD_onesW (width : WordWidth) (i : Nat) : (onesW width).getLsbD i = decide (i < width.bits) := by
  cases width with
  | w32 =>
    have h : onesW .w32 = (BitVec.allOnes 32).setWidth 64 := by decide
    rw [h, BitVec.getLsbD_setWidth, BitVec.getLsbD_allOnes]
    by_cases h2 : i < 32
    · have : i < 64 := by omega
      simp [h2, this, WordWidth.bits]
    · simp [h2, WordWidth.bits]
  | w64 =>
    have h : onesW .w64 = BitVec.allOnes 64 := by decide
    rw [h, BitVec.getLsbD_allOnes]
    rfl

theorem onesW_ne_zero (width : WordWidth) : onesW width ≠ 0 := by cases width <;> decide

@[simp] theorem ones_ne_zero (s : State) : s.ones ≠ 0 := onesW_ne_zero _

/-- Bit i of a scalar register: a bit of its cell below W, and 0 from W up. -/
theorem getLsbD_readW (s : State) (r : Reg) (i : Nat) :
    (s.readW r).getLsbD i = (s.w[r].getLsbD i && decide (i < s.params.width.bits)) := by
  simp [State.readW, State.ones]

@[simp] theorem readW_and_ones (s : State) (r : Reg) : s.readW r &&& s.ones = s.readW r := by
  rw [State.readW, BitVec.and_assoc, BitVec.and_self]

@[simp] theorem maskOf_and_ones (s : State) (cond : Bool) : s.maskOf cond &&& s.ones = s.maskOf cond := by
  cases cond <;> simp [State.maskOf]

/-- A mask made by `maskOf` says which condition it stands for. -/
theorem maskOf_eq_ones (s : State) (cond : Bool) : s.maskOf cond = s.ones ↔ cond = true := by
  cases cond
  · simpa [State.maskOf] using fun h => ones_ne_zero s h.symm
  · simp [State.maskOf]

/-- A canonical mask register holds 0 or `ONES_W` (R93). -/
theorem canonicalMask_iff (s : State) (r : Reg) :
    s.canonicalMask r = true ↔ s.readW r = 0 ∨ s.readW r = s.ones := by
  simp [State.canonicalMask]

theorem getLsbD_wordReverse (width : WordWidth) (w : Word) (i : Nat) (h : i < width.bits) :
    (wordReverse width w).getLsbD i = w.getLsbD (width.bits - 1 - i) := by
  have : i < 64 := by cases width <;> simp [WordWidth.bits] at h <;> omega
  rw [wordReverse, getLsbD_bitsOf]
  simp [h, this]

theorem getLsbD_maskLanes (width : WordWidth) (m : Word) (i : Nat) (h : i < 701) :
    (maskLanes width m).getLsbD i = m.getLsbD (i % width.bits) := by
  rw [maskLanes, getLsbD_bitsOf]
  simp [h]

end Sys2Proof.Machine
end

