-- ==== Sys2Proof/Laws/Frames.lean ====
section
/-!
SUPPORT. What each way of ending a command leaves unchanged, said once: a meaning is one of these updates followed by
`advance`, or a fault.
-/

namespace Sys2Proof.Machine

/-- Raising a fault is fault entry and nothing else. -/
theorem raised_raiseFault (c : FaultCause) (s : State) : Raised c s (s.raiseFault c) :=
  ⟨rfl, rfl, rfl, rfl, rfl, rfl, rfl, rfl, rfl, rfl, rfl, rfl, fun _ => rfl⟩

/-- A register of a file outside the one written reads as before. -/
theorem file_frame {α : Type} (v : Vector α 8) (r : Reg) (x : α) (k : Reg) (h : k ∉ [r]) : (v.set r x)[k] = v[k] :=
  file_set_other v x (by simpa using h)

/-- Nothing but `pc`. -/
theorem retiredQuietly_advance (s : State) : RetiredQuietly s s.advance [] [] [] [] :=
  ⟨⟨rfl, rfl, rfl, rfl, rfl, rfl, fun _ _ => rfl, fun _ _ => rfl, fun _ _ => rfl, fun _ _ => rfl⟩, rfl, fun _ => rfl⟩

theorem retiredQuietly_setB (s : State) (r : Reg) (v : BinaryPoly) : RetiredQuietly s (s.setB r v).advance [r] [] [] [] :=
  ⟨⟨rfl, rfl, rfl, rfl, rfl, rfl, file_frame s.b r v, fun _ _ => rfl, fun _ _ => rfl, fun _ _ => rfl⟩, rfl, fun _ => rfl⟩

theorem retiredQuietly_setT (s : State) (r : Reg) (v : TernaryPoly) : RetiredQuietly s (s.setT r v).advance [] [r] [] [] :=
  ⟨⟨rfl, rfl, rfl, rfl, rfl, rfl, fun _ _ => rfl, file_frame s.t r v, fun _ _ => rfl, fun _ _ => rfl⟩, rfl, fun _ => rfl⟩

theorem retiredQuietly_setCoeffs (s : State) (r : Reg) (c : Coeffs) :
    RetiredQuietly s (s.setCoeffs r c).advance [] [] [r] [] :=
  ⟨⟨rfl, rfl, rfl, rfl, rfl, rfl, fun _ _ => rfl, fun _ _ => rfl, file_frame s.q r _, fun _ _ => rfl⟩, rfl, fun _ => rfl⟩

theorem retiredQuietly_setW (s : State) (r : Reg) (v : Word) : RetiredQuietly s (s.setW r v).advance [] [] [] [r] :=
  ⟨⟨rfl, rfl, rfl, rfl, rfl, rfl, fun _ _ => rfl, fun _ _ => rfl, fun _ _ => rfl, file_frame s.w r _⟩, rfl, fun _ => rfl⟩

/-- The two destinations of QUNMARSH. -/
theorem retiredQuietly_setCoeffs_setW (s : State) (r k : Reg) (c : Coeffs) (v : Word) :
    RetiredQuietly s ((s.setCoeffs r c).setW k v).advance [] [] [r] [k] :=
  ⟨⟨rfl, rfl, rfl, rfl, rfl, rfl, fun _ _ => rfl, fun _ _ => rfl, file_frame s.q r _, file_frame s.w k _⟩, rfl, fun _ => rfl⟩

/-- The two destinations of Q2TC. -/
theorem retiredQuietly_setT_setW (s : State) (r k : Reg) (x : TernaryPoly) (v : Word) :
    RetiredQuietly s ((s.setT r x).setW k v).advance [] [r] [] [k] :=
  ⟨⟨rfl, rfl, rfl, rfl, rfl, rfl, fun _ _ => rfl, file_frame s.t r _, fun _ _ => rfl, file_frame s.w k _⟩, rfl, fun _ => rfl⟩

/-- The two destinations of BCSWAP. -/
theorem retiredQuietly_swapB (s : State) (x y : Reg) (u v : BinaryPoly) :
    RetiredQuietly s ((s.setB x u).setB y v).advance [x, y] [] [] [] := by
  refine ⟨⟨rfl, rfl, rfl, rfl, rfl, rfl, ?_, fun _ _ => rfl, fun _ _ => rfl, fun _ _ => rfl⟩, rfl, fun _ => rfl⟩
  intro k h
  simp only [List.mem_cons, List.not_mem_nil, or_false, not_or] at h
  exact (file_set_other _ v h.2).trans (file_set_other _ u h.1)

/-- The two destinations of TCSWAP. -/
theorem retiredQuietly_swapT (s : State) (x y : Reg) (u v : TernaryPoly) :
    RetiredQuietly s ((s.setT x u).setT y v).advance [] [x, y] [] [] := by
  refine ⟨⟨rfl, rfl, rfl, rfl, rfl, rfl, fun _ _ => rfl, ?_, fun _ _ => rfl, fun _ _ => rfl⟩, rfl, fun _ => rfl⟩
  intro k h
  simp only [List.mem_cons, List.not_mem_nil, or_false, not_or] at h
  exact (file_set_other _ v h.2).trans (file_set_other _ u h.1)

/-- An assertion noted after an update changes AFAIL only. -/
theorem retired_noteAssertion {s t : State} {bs ts qs ws : List Reg} (h : RetiredQuietly s t.advance bs ts qs ws)
    (failed : Bool) : Retired s (t.noteAssertion failed).advance bs ts qs ws ∧ SameMemory s (t.noteAssertion failed).advance :=
  ⟨⟨h.pc, h.params, h.cmd, h.runState, h.cause, h.epc, h.binary, h.ternary, h.modQ, h.scalar⟩, h.memory⟩

/-- A store changes `MEM` only. -/
theorem retired_memWrite (s : State) (a : Nat) (bytes : List Byte) :
    Retired s (s.memWrite a bytes).advance [] [] [] [] ∧ (s.memWrite a bytes).advance.afail = s.afail :=
  ⟨⟨rfl, rfl, rfl, rfl, rfl, rfl, fun _ _ => rfl, fun _ _ => rfl, fun _ _ => rfl, fun _ _ => rfl⟩, rfl⟩

/-- A register written with coefficients has zero padding (R27). -/
theorem paddingZero_withPadding (c : Coeffs) : PaddingZero (withPadding c) := by
  simp [PaddingZero, coef_outside]

/-- The range check of the model is the one R54 states. -/
theorem inRange_iff (s : State) (a len : Nat) : s.InRange a len ↔ ¬ s.RangeFails a len := by
  simp only [State.InRange, State.RangeFails]
  omega

end Sys2Proof.Machine
end

