-- ==== Sys2Proof/Laws/MemoryCommands.lean ====
section
/-!
SUPPORT. The seven commands that touch `MEM`: each one's state where its ranges pass, and the fault where one fails.
-/

namespace Sys2Proof.Machine

theorem exec_qsample_ok (s : State) (qd : Reg) (imm : BitVec 16) (h : imm.toNat + 700 ≤ s.params.memBytes) :
    exec (.qsample qd imm) s =
      .next (s.setCoeffs qd (shortSample s.params.sampleByteSigned (s.memRead imm.toNat 700))).advance :=
  if_pos (Or.inr h)

theorem exec_qsample_fault (s : State) (qd : Reg) (imm : BitVec 16) (h : s.params.memBytes < imm.toNat + 700) :
    exec (.qsample qd imm) s = .next (s.raiseFault .memRange) :=
  if_neg fun e => e.elim (fun e => nomatch e) (fun e => Nat.not_le_of_lt h e)

theorem exec_qsamplep_ok (s : State) (qd : Reg) (imm : BitVec 16) (h : imm.toNat + 700 ≤ s.params.memBytes) :
    exec (.qsamplep qd imm) s =
      .next (s.setCoeffs qd
        (plusCorrection (shortSample s.params.sampleByteSigned (s.memRead imm.toNat 700)))).advance :=
  if_pos (Or.inr h)

theorem exec_qsamplep_fault (s : State) (qd : Reg) (imm : BitVec 16) (h : s.params.memBytes < imm.toNat + 700) :
    exec (.qsamplep qd imm) s = .next (s.raiseFault .memRange) :=
  if_neg fun e => e.elim (fun e => nomatch e) (fun e => Nat.not_le_of_lt h e)

theorem exec_qmarsh_ok (s : State) (qs : Reg) (imm : BitVec 16) (h : imm.toNat + 1138 ≤ s.params.memBytes) :
    exec (.qmarsh qs imm) s = .next (s.memWrite imm.toNat (marshalBytes (s.coeffs qs))).advance :=
  if_pos (Or.inr h)

theorem exec_qmarsh_fault (s : State) (qs : Reg) (imm : BitVec 16) (h : s.params.memBytes < imm.toNat + 1138) :
    exec (.qmarsh qs imm) s = .next (s.raiseFault .memRange) :=
  if_neg fun e => e.elim (fun e => nomatch e) (fun e => Nat.not_le_of_lt h e)

theorem exec_qunmarsh_ok (s : State) (qd wk : Reg) (imm : BitVec 16) (h : imm.toNat + 1138 ≤ s.params.memBytes) :
    exec (.qunmarsh qd wk imm) s =
      .next ((s.setCoeffs qd (unmarshalCoeffs (s.memRead imm.toNat 1138))).setW wk
        (s.maskOf (trailingBitsZero (s.memRead imm.toNat 1138)))).advance :=
  if_pos (Or.inr h)

theorem exec_qunmarsh_fault (s : State) (qd wk : Reg) (imm : BitVec 16) (h : s.params.memBytes < imm.toNat + 1138) :
    exec (.qunmarsh qd wk imm) s = .next (s.raiseFault .memRange) :=
  if_neg fun e => e.elim (fun e => nomatch e) (fun e => Nat.not_le_of_lt h e)

theorem exec_qmarsh3_ok (s : State) (qs : Reg) (imm : BitVec 16) (h : imm.toNat + 140 ≤ s.params.memBytes) :
    exec (.qmarsh3 qs imm) s = .next (s.memWrite imm.toNat (marshal3Bytes (s.coeffs qs))).advance :=
  if_pos (Or.inr h)

theorem exec_qmarsh3_fault (s : State) (qs : Reg) (imm : BitVec 16) (h : s.params.memBytes < imm.toNat + 140) :
    exec (.qmarsh3 qs imm) s = .next (s.raiseFault .memRange) :=
  if_neg fun e => e.elim (fun e => nomatch e) (fun e => Nat.not_le_of_lt h e)

theorem exec_ctmemeq_ok (s : State) (wd wa wb wc : Reg)
    (ha : ¬ s.RangeFails (s.unsignedW wa) (s.unsignedW wc)) (hb : ¬ s.RangeFails (s.unsignedW wb) (s.unsignedW wc)) :
    exec (.ctmemeq wd wa wb wc) s =
      .next (s.setW wd (s.maskOf (byteDifference (s.memRead (s.unsignedW wa) (s.unsignedW wc))
        (s.memRead (s.unsignedW wb) (s.unsignedW wc)) == 0))).advance :=
  if_pos ⟨(inRange_iff s _ _).mpr ha, (inRange_iff s _ _).mpr hb⟩

theorem exec_ctmemeq_fault (s : State) (wd wa wb wc : Reg)
    (h : s.RangeFails (s.unsignedW wa) (s.unsignedW wc) ∨ s.RangeFails (s.unsignedW wb) (s.unsignedW wc)) :
    exec (.ctmemeq wd wa wb wc) s = .next (s.raiseFault .memRange) :=
  if_neg fun e => h.elim ((inRange_iff s _ _).mp e.1) ((inRange_iff s _ _).mp e.2)

theorem exec_ctbsel_ok (s : State) (wm wa wb wc : Reg)
    (ha : ¬ s.RangeFails (s.unsignedW wa) (s.unsignedW wc)) (hb : ¬ s.RangeFails (s.unsignedW wb) (s.unsignedW wc)) :
    exec (.ctbsel wm wa wb wc) s =
      .next (s.memWrite (s.unsignedW wa) (List.zipWith (selectBits (s.byteMask wm))
        (s.memRead (s.unsignedW wa) (s.unsignedW wc)) (s.memRead (s.unsignedW wb) (s.unsignedW wc)))).advance :=
  if_pos ⟨(inRange_iff s _ _).mpr ha, (inRange_iff s _ _).mpr hb⟩

theorem exec_ctbsel_fault (s : State) (wm wa wb wc : Reg)
    (h : s.RangeFails (s.unsignedW wa) (s.unsignedW wc) ∨ s.RangeFails (s.unsignedW wb) (s.unsignedW wc)) :
    exec (.ctbsel wm wa wb wc) s = .next (s.raiseFault .memRange) :=
  if_neg fun e => h.elim ((inRange_iff s _ _).mp e.1) ((inRange_iff s _ _).mp e.2)

end Sys2Proof.Machine
end

