-- ==== Sys2Proof/Laws/Exec.lean ====
section
/-!
SUPPORT. What a command can do, said once for all of them: halt, fault, or retire with at most one scalar register, one
mod-Q register and one range of `MEM` written, each in the one way its file is written, and AFAIL never cleared.
-/

namespace Sys2Proof.Machine

/-- The update a command that retires makes before `pc` moves on, in the parts every command treats alike. -/
structure Updated (s u : State) : Prop where
  params : u.params = s.params
  cmd : u.cmd = s.cmd
  pc : u.pc = s.pc
  runState : u.runState = s.runState
  cause : u.cause = s.cause
  epc : u.epc = s.epc
  afail : s.afail = true → u.afail = true
  scalar : u.w = s.w ∨ ∃ (r : Reg) (v : Word), u.w = s.w.set r (v &&& s.ones)
  modQ : u.q = s.q ∨ ∃ (r : Reg) (c : Coeffs), u.q = s.q.set r (withPadding c)
  mem : u.mem = s.mem ∨ ∃ (a : Nat) (bytes : List Byte), s.InRange a bytes.length ∧ u.mem = writeCells s.mem a bytes

theorem updated_self (s : State) : Updated s s :=
  ⟨rfl, rfl, rfl, rfl, rfl, rfl, fun h => h, Or.inl rfl, Or.inl rfl, Or.inl rfl⟩

theorem updated_setB {s u : State} (h : Updated s u) (r : Reg) (v : BinaryPoly) : Updated s (u.setB r v) :=
  ⟨h.params, h.cmd, h.pc, h.runState, h.cause, h.epc, h.afail, h.scalar, h.modQ, h.mem⟩

theorem updated_setT {s u : State} (h : Updated s u) (r : Reg) (v : TernaryPoly) : Updated s (u.setT r v) :=
  ⟨h.params, h.cmd, h.pc, h.runState, h.cause, h.epc, h.afail, h.scalar, h.modQ, h.mem⟩

theorem updated_noteAssertion {s u : State} (h : Updated s u) (failed : Bool) : Updated s (u.noteAssertion failed) :=
  ⟨h.params, h.cmd, h.pc, h.runState, h.cause, h.epc, fun e => by simp [h.afail e], h.scalar, h.modQ, h.mem⟩

theorem updated_setCoeffs (s : State) (r : Reg) (c : Coeffs) : Updated s (s.setCoeffs r c) :=
  ⟨rfl, rfl, rfl, rfl, rfl, rfl, fun h => h, Or.inl rfl, Or.inr ⟨r, c, rfl⟩, Or.inl rfl⟩

/-- The scalar file is written last, by a command that wrote no scalar register before. -/
theorem updated_setW {s u : State} (h : Updated s u) (hw : u.w = s.w) (r : Reg) (v : Word) : Updated s (u.setW r v) := by
  refine ⟨h.params, h.cmd, h.pc, h.runState, h.cause, h.epc, h.afail, Or.inr ⟨r, v, ?_⟩, h.modQ, h.mem⟩
  rw [setW_w, State.ones, State.ones, h.params, hw]

theorem updated_memWrite (s : State) (a : Nat) (bytes : List Byte) (h : s.InRange a bytes.length) :
    Updated s (s.memWrite a bytes) :=
  ⟨rfl, rfl, rfl, rfl, rfl, rfl, fun h => h, Or.inl rfl, Or.inl rfl, Or.inr ⟨a, bytes, h, rfl⟩⟩

/-- The faults a command itself can raise (R231): the seven commands that touch `MEM`, and the two swaps. -/
inductive CanFault : Instr → FaultCause → Prop
  | ctmemeq (wd wa wb wc : Reg) : CanFault (.ctmemeq wd wa wb wc) .memRange
  | ctbsel (wm wa wb wc : Reg) : CanFault (.ctbsel wm wa wb wc) .memRange
  | qsample (qd : Reg) (imm : BitVec 16) : CanFault (.qsample qd imm) .memRange
  | qsamplep (qd : Reg) (imm : BitVec 16) : CanFault (.qsamplep qd imm) .memRange
  | qmarsh (qs : Reg) (imm : BitVec 16) : CanFault (.qmarsh qs imm) .memRange
  | qunmarsh (qd wk : Reg) (imm : BitVec 16) : CanFault (.qunmarsh qd wk imm) .memRange
  | qmarsh3 (qs : Reg) (imm : BitVec 16) : CanFault (.qmarsh3 qs imm) .memRange
  | bcswap (x y wm : Reg) : CanFault (.bcswap x y wm) .maskNoncanonical
  | tcswap (x y wm : Reg) : CanFault (.tcswap x y wm) .maskNoncanonical

/-- The three ends of a command. -/
inductive Ends (i : Instr) (s t : State) : Prop
  | halts (hi : i = .halt) (ht : t = { s with runState := .halted })
  | faults (c : FaultCause) (hc : CanFault i c) (ht : t = s.raiseFault c)
  | retires (hi : i ≠ .halt) (u : State) (hu : Updated s u) (ht : t = u.advance)

/-- Every command answers a next state, in one of the three ways. -/
theorem exec_ends (i : Instr) (s : State) : ∃ t, exec i s = .next t ∧ Ends i s t := by
  cases i with
  | halt => exact ⟨_, rfl, .halts rfl rfl⟩
  | wli _ _ | wbrev _ _ | wlsb _ _ | ctsel _ _ _ _ | ctisz _ _ | cteq _ _ _ =>
    exact ⟨_, rfl, .retires nofun _ (updated_setW (updated_self s) rfl _ _) rfl⟩
  | ctmemeq wd wa wb wc =>
    by_cases ha : s.RangeFails (s.unsignedW wa) (s.unsignedW wc)
    · exact ⟨_, exec_ctmemeq_fault s wd wa wb wc (Or.inl ha), .faults _ (by constructor) rfl⟩
    · by_cases hb : s.RangeFails (s.unsignedW wb) (s.unsignedW wc)
      · exact ⟨_, exec_ctmemeq_fault s wd wa wb wc (Or.inr hb), .faults _ (by constructor) rfl⟩
      · exact ⟨_, exec_ctmemeq_ok s wd wa wb wc ha hb, .retires nofun _ (updated_setW (updated_self s) rfl _ _) rfl⟩
  | ctbsel wm wa wb wc =>
    by_cases ha : s.RangeFails (s.unsignedW wa) (s.unsignedW wc)
    · exact ⟨_, exec_ctbsel_fault s wm wa wb wc (Or.inl ha), .faults _ (by constructor) rfl⟩
    · by_cases hb : s.RangeFails (s.unsignedW wb) (s.unsignedW wc)
      · exact ⟨_, exec_ctbsel_fault s wm wa wb wc (Or.inr hb), .faults _ (by constructor) rfl⟩
      · refine ⟨_, exec_ctbsel_ok s wm wa wb wc ha hb, .retires nofun _ (updated_memWrite s _ _ ?_) rfl⟩
        rw [List.length_zipWith, length_memRead, length_memRead, Nat.min_self]
        exact (inRange_iff s _ _).mpr ha
  | bzero _ | blsh1 _ | brsh1 _ | bfmadd _ _ _ | bmodphi _ | brev700 _ _ | bclrtop _ | q2b _ _ =>
    exact ⟨_, rfl, .retires nofun _ (updated_setB (updated_self s) _ _) rfl⟩
  | bcswap x y wm =>
    simp only [exec, execBcswap]
    split
    · split
      · exact ⟨_, rfl, .retires nofun _ (updated_setB (updated_setB (updated_self s) _ _) _ _) rfl⟩
      · exact ⟨_, rfl, .retires nofun _ (updated_self s) rfl⟩
    · exact ⟨_, rfl, .faults _ (by constructor) rfl⟩
  | binv _ _ => exact ⟨_, rfl, .retires nofun _ (updated_noteAssertion (updated_setB (updated_self s) _ _) _) rfl⟩
  | tzero _ | tlsh1 _ | trsh1 _ | tadd _ _ _ | tsub _ _ _ | tcmul _ _ _ | tneg _ | tmulc _ _ _ | tfmsub _ _ _ _
  | tmodphi _ | trev700 _ _ | tmul _ _ _ | q2t _ _ =>
    exact ⟨_, rfl, .retires nofun _ (updated_setT (updated_self s) _ _) rfl⟩
  | tcswap x y wm =>
    simp only [exec, execTcswap]
    split
    · split
      · exact ⟨_, rfl, .retires nofun _ (updated_setT (updated_setT (updated_self s) _ _) _ _) rfl⟩
      · exact ⟨_, rfl, .retires nofun _ (updated_self s) rfl⟩
    · exact ⟨_, rfl, .faults _ (by constructor) rfl⟩
  | tinv _ _ => exact ⟨_, rfl, .retires nofun _ (updated_noteAssertion (updated_setT (updated_self s) _ _) _) rfl⟩
  | qnorm _ | qclamp _ | qmodphi _ | qmulxm1 _ | qmul _ _ _ | qadd _ _ _ | qsub _ _ _ | qlift _ _ | b2q _ _ | t2q _ _ =>
    exact ⟨_, rfl, .retires nofun _ (updated_setCoeffs s _ _) rfl⟩
  | qanorm _ => exact ⟨_, rfl, .retires nofun _ (updated_noteAssertion (updated_self s) _) rfl⟩
  | qinv _ _ => exact ⟨_, rfl, .retires nofun _ (updated_noteAssertion (updated_setCoeffs s _ _) _) rfl⟩
  | qsample qd imm =>
    by_cases h : imm.toNat + 700 ≤ s.params.memBytes
    · exact ⟨_, exec_qsample_ok s qd imm h, .retires nofun _ (updated_setCoeffs s _ _) rfl⟩
    · exact ⟨_, exec_qsample_fault s qd imm (Nat.lt_of_not_le h), .faults _ (by constructor) rfl⟩
  | qsamplep qd imm =>
    by_cases h : imm.toNat + 700 ≤ s.params.memBytes
    · exact ⟨_, exec_qsamplep_ok s qd imm h, .retires nofun _ (updated_setCoeffs s _ _) rfl⟩
    · exact ⟨_, exec_qsamplep_fault s qd imm (Nat.lt_of_not_le h), .faults _ (by constructor) rfl⟩
  | qmarsh qs imm =>
    by_cases h : imm.toNat + 1138 ≤ s.params.memBytes
    · refine ⟨_, exec_qmarsh_ok s qs imm h, .retires nofun _ (updated_memWrite s _ _ ?_) rfl⟩
      rw [length_marshalBytes]
      exact Or.inr h
    · exact ⟨_, exec_qmarsh_fault s qs imm (Nat.lt_of_not_le h), .faults _ (by constructor) rfl⟩
  | qunmarsh qd wk imm =>
    by_cases h : imm.toNat + 1138 ≤ s.params.memBytes
    · exact ⟨_, exec_qunmarsh_ok s qd wk imm h, .retires nofun _ (updated_setW (updated_setCoeffs s _ _) rfl _ _) rfl⟩
    · exact ⟨_, exec_qunmarsh_fault s qd wk imm (Nat.lt_of_not_le h), .faults _ (by constructor) rfl⟩
  | qmarsh3 qs imm =>
    by_cases h : imm.toNat + 140 ≤ s.params.memBytes
    · refine ⟨_, exec_qmarsh3_ok s qs imm h, .retires nofun _ (updated_memWrite s _ _ ?_) rfl⟩
      rw [length_marshal3Bytes]
      exact Or.inr h
    · exact ⟨_, exec_qmarsh3_fault s qs imm (Nat.lt_of_not_le h), .faults _ (by constructor) rfl⟩
  | q2tc _ _ _ => exact ⟨_, rfl, .retires nofun _ (updated_setW (updated_setT (updated_self s) _ _) rfl _ _) rfl⟩

/-- What the next state of a command is. -/
theorem ends_of_exec {i : Instr} {s t : State} (h : exec i s = .next t) : Ends i s t := by
  obtain ⟨u, hu, he⟩ := exec_ends i s
  rw [hu] at h
  cases h
  exact he

end Sys2Proof.Machine
end

