-- ==== Sys2Proof/Laws/Fields.lean ====
section
/-!
SUPPORT. The fields of a packed word, and that a word is what its fields pack to.
-/

namespace Sys2Proof

@[simp] theorem regOf_fieldOf (r : Reg) : regOf (fieldOf r) = some r := by
  revert r
  decide

/-- A used field holds the register it decodes to (R73). -/
theorem fieldOf_of_regOf {f : BitVec 4} {r : Reg} (h : regOf f = some r) : fieldOf r = f := by
  revert f r
  decide

/-- A slice of an appended word that lies in its low part. -/
theorem extract_low {m n : Nat} (x : BitVec m) (y : BitVec n) (lo len : Nat) (h : lo + len ≤ n) :
    (x ++ y).extractLsb' lo len = y.extractLsb' lo len := by
  apply BitVec.eq_of_getLsbD_eq
  intro i hi
  have : lo + i < n := by omega
  simp [BitVec.getLsbD_append, hi, this]

/-- A slice of an appended word that lies in its high part. -/
theorem extract_high {m n : Nat} (x : BitVec m) (y : BitVec n) (lo len : Nat) (h : n ≤ lo) :
    (x ++ y).extractLsb' lo len = x.extractLsb' (lo - n) len := by
  apply BitVec.eq_of_getLsbD_eq
  intro i hi
  have h1 : ¬ lo + i < n := by omega
  have h2 : lo + i - n = lo - n + i := by omega
  simp [BitVec.getLsbD_append, hi, h1, h2]

/-- The slice that is the whole word. -/
theorem extract_whole {n : Nat} (x : BitVec n) : x.extractLsb' 0 n = x := by
  apply BitVec.eq_of_getLsbD_eq
  intro i hi
  simp [hi]

/-- The fields of a word in format R (R71). -/
@[simp] theorem fieldsOf_packR (op : BitVec 8) (fd fa fb fc : BitVec 4) :
    fieldsOf (packR op fd fa fb fc) = { op := op, fd := fd, fa := fa, fb := fb, fc := fc, z := 0 } := by
  simp only [fieldsOf, packR, Fields.mk.injEq]
  refine ⟨?_, ?_, ?_, ?_, ?_, ?_⟩ <;>
    simp (disch := omega) only [extract_high, extract_low, Nat.reduceSub, extract_whole]
  rfl

/-- The fields of a word in format I (R72): `fb`, `fc` and `z` hold the immediate. -/
@[simp] theorem fieldsOf_packI (op : BitVec 8) (fd fa : BitVec 4) (imm : BitVec 16) :
    fieldsOf (packI op fd fa imm) =
      { op := op, fd := fd, fa := fa, fb := imm.extractLsb' 12 4, fc := imm.extractLsb' 8 4, z := imm.extractLsb' 0 8 } := by
  simp only [fieldsOf, packI, Fields.mk.injEq]
  refine ⟨?_, ?_, ?_, ?_, ?_, ?_⟩ <;>
    simp (disch := omega) only [extract_high, extract_low, Nat.reduceSub, extract_whole]

/-- Adjacent slices appended are the slice of both. -/
theorem extract_append {n : Nat} (x : BitVec n) (lo len hi : Nat) :
    x.extractLsb' (lo + len) hi ++ x.extractLsb' lo len = x.extractLsb' lo (hi + len) := by
  apply BitVec.eq_of_getLsbD_eq
  intro i h
  rw [BitVec.getLsbD_append, BitVec.getLsbD_extractLsb', BitVec.getLsbD_extractLsb', BitVec.getLsbD_extractLsb']
  by_cases h1 : i < len
  · have h2 : i < hi + len := by omega
    simp [h1, h2]
  · have h2 : i - len < hi := by omega
    have h3 : lo + len + (i - len) = lo + i := by omega
    simp [h1, h2, h3, h]

/-- The immediate of a word in format I (R74). -/
@[simp] theorem imm_packI (op : BitVec 8) (fd fa : BitVec 4) (imm : BitVec 16) :
    (fieldsOf (packI op fd fa imm)).imm = imm := by
  rw [fieldsOf_packI]
  have h1 := extract_append imm 8 4 4
  have h2 := extract_append imm 0 8 8
  simp only [Fields.imm]
  exact (congrArg (· ++ imm.extractLsb' 0 8) h1).trans (h2.trans (extract_whole imm))

/-- A word is the concatenation of its fields (R71). -/
theorem fields_append (c : CommandWord) :
    (fieldsOf c).op ++ (fieldsOf c).fd ++ (fieldsOf c).fa ++ (fieldsOf c).fb ++ (fieldsOf c).fc ++ (fieldsOf c).z = c := by
  have h1 := extract_append c 20 4 8
  have h2 := extract_append c 16 4 12
  have h3 := extract_append c 12 4 16
  have h4 := extract_append c 8 4 20
  have h5 := extract_append c 0 8 24
  simp only [fieldsOf]
  simp only [Nat.reduceAdd] at h1 h2 h3 h4 h5
  rw [h1, h2, h3, h4, h5, extract_whole]

end Sys2Proof
end

