-- ==== Sys2Proof/Laws/Host.lean ====
section
/-!
SUPPORT. What a move of the host can do, said once for all of them, and the view of `STATUS` the host reads.
-/

namespace Sys2Proof.Machine

/-- The ends of a move of the host that is one (R257, R259). -/
inductive HostEnds (a : HostAction) (s t : State) : Prop
  | resets (ha : a = .reset) (ht : t = s.hostReset)
  | starts (ha : a = .start) (hs : s.runState = .idle) (ht : t = { s with runState := .run })
  | ignored (hs : s.runState ≠ .run) (ht : t = s)
  | command (i : Nat) (word : CommandWord) (ha : a = .writeCmd i word) (hs : s.runState ≠ .run)
      (hi : i < s.params.cmdWords) (ht : t = { s with cmd := cellWrite s.cmd i word })
  | byte (i : Nat) (value : Byte) (ha : a = .writeMem i value) (hs : s.runState ≠ .run)
      (hi : i < s.params.memBytes) (ht : t = { s with mem := cellWrite s.mem i value })
  | binary (r : Reg) (value : BinaryPoly) (ha : a = .writeB r value) (hs : s.runState = .idle) (ht : t = s.setB r value)
  | ternary (r : Reg) (value : TernaryPoly) (ha : a = .writeT r value) (hs : s.runState = .idle) (ht : t = s.setT r value)
  | modQ (r : Reg) (value : ModQPoly) (ha : a = .writeQ r value) (hs : s.runState = .idle)
      (ht : t = { s with q := s.q.set r value })
  | scalar (r : Reg) (value : Word) (ha : a = .writeW r value) (hs : s.runState = .idle) (ht : t = s.setW r value)

theorem whileStopped_next {s t u : State} (h : whileStopped s t = .next u) : s.runState ≠ .run ∧ u = t := by
  unfold whileStopped at h
  split at h
  · cases h
  · cases h
    exact ⟨‹_›, rfl⟩

theorem whileIdle_next {s t u : State} (h : whileIdle s t = .next u) : s.runState = .idle ∧ u = t := by
  unfold whileIdle at h
  split at h <;> cases h
  exact ⟨‹_›, rfl⟩

/-- A move of the host ends in one of these ways and no other. -/
theorem hostMove_ends {a : HostAction} {s t : State} (h : hostMove a s = .next t) : HostEnds a s t := by
  cases a with
  | reset => cases h; exact .resets rfl rfl
  | start =>
    simp only [hostMove, State.hostStart] at h
    split at h <;> cases h
    · exact .starts rfl ‹_› rfl
    all_goals exact .ignored (by simp_all) rfl
  | writeCmd i word =>
    simp only [hostMove] at h
    split at h
    · obtain ⟨hs, ht⟩ := whileStopped_next h
      exact .command i word rfl hs ‹_› ht
    · cases h
  | writeMem i value =>
    simp only [hostMove] at h
    split at h
    · obtain ⟨hs, ht⟩ := whileStopped_next h
      exact .byte i value rfl hs ‹_› ht
    · cases h
  | writeB r value => obtain ⟨hs, ht⟩ := whileIdle_next h; exact .binary r value rfl hs ht
  | writeT r value => obtain ⟨hs, ht⟩ := whileIdle_next h; exact .ternary r value rfl hs ht
  | writeQ r value => obtain ⟨hs, ht⟩ := whileIdle_next h; exact .modQ r value rfl hs ht
  | writeW r value => obtain ⟨hs, ht⟩ := whileIdle_next h; exact .scalar r value rfl hs ht
  | writeStatus value =>
    simp only [hostMove] at h
    split at h
    · cases h
    · obtain ⟨hs, ht⟩ := whileStopped_next h
      exact .ignored hs ht

/-- `STATUS` as a number: the code of STATE, plus 4 where AFAIL is set (R32). -/
theorem status_toNat (s : State) : s.status.toNat = s.runState.code.toNat + 4 * s.afail.toNat := by
  unfold State.status
  cases s.runState <;> cases s.afail <;> rfl

end Sys2Proof.Machine
end

