-- ==== Sys2Proof/Laws/PerInstr.lean ====
section
/-!
SUPPORT. For every command: the opcode byte of its word is the one R75 gives it. What the statements say by opcode
(which commands write which part of the state) reads the commands off through these.
-/

namespace Sys2Proof

/-- The opcode byte of a word in format R. -/
theorem opcode_packR (op : BitVec 8) (fd fa fb fc : BitVec 4) : (packR op fd fa fb fc).toNat / 2 ^ 24 = op.toNat := by
  have h := congrArg (fun f => f.op.toNat) (fieldsOf_packR op fd fa fb fc)
  simp only [fieldsOf, BitVec.extractLsb'_toNat, Nat.shiftRight_eq_div_pow] at h
  rw [← h]
  have := (packR op fd fa fb fc).isLt
  omega

/-- The opcode byte of a word in format I. -/
theorem opcode_packI (op : BitVec 8) (fd fa : BitVec 4) (imm : BitVec 16) : (packI op fd fa imm).toNat / 2 ^ 24 = op.toNat := by
  have h := congrArg (fun f => f.op.toNat) (fieldsOf_packI op fd fa imm)
  simp only [fieldsOf, BitVec.extractLsb'_toNat, Nat.shiftRight_eq_div_pow] at h
  rw [← h]
  have := (packI op fd fa imm).isLt
  omega

/-- The opcode R75 gives a command. -/
def Laws.Opcode.ofTable : Instr → Nat
  | .halt => 0x00
  | .wli _ _ => 0x10
  | .wbrev _ _ => 0x11
  | .wlsb _ _ => 0x12
  | .ctsel _ _ _ _ => 0x13
  | .ctisz _ _ => 0x14
  | .cteq _ _ _ => 0x15
  | .ctmemeq _ _ _ _ => 0x16
  | .ctbsel _ _ _ _ => 0x17
  | .bzero _ => 0x20
  | .blsh1 _ => 0x21
  | .brsh1 _ => 0x22
  | .bcswap _ _ _ => 0x23
  | .bfmadd _ _ _ => 0x24
  | .bmodphi _ => 0x25
  | .brev700 _ _ => 0x26
  | .bclrtop _ => 0x27
  | .binv _ _ => 0x28
  | .tzero _ => 0x30
  | .tlsh1 _ => 0x31
  | .trsh1 _ => 0x32
  | .tcswap _ _ _ => 0x33
  | .tadd _ _ _ => 0x34
  | .tsub _ _ _ => 0x35
  | .tcmul _ _ _ => 0x36
  | .tneg _ => 0x37
  | .tmulc _ _ _ => 0x38
  | .tfmsub _ _ _ _ => 0x39
  | .tmodphi _ => 0x3A
  | .trev700 _ _ => 0x3B
  | .tmul _ _ _ => 0x3C
  | .tinv _ _ => 0x3D
  | .qnorm _ => 0x40
  | .qanorm _ => 0x41
  | .qclamp _ => 0x42
  | .qmodphi _ => 0x43
  | .qmulxm1 _ => 0x44
  | .qmul _ _ _ => 0x45
  | .qinv _ _ => 0x46
  | .qadd _ _ _ => 0x47
  | .qsub _ _ _ => 0x48
  | .qsample _ _ => 0x50
  | .qsamplep _ _ => 0x51
  | .qlift _ _ => 0x52
  | .qmarsh _ _ => 0x53
  | .qunmarsh _ _ _ => 0x54
  | .qmarsh3 _ _ => 0x55
  | .q2b _ _ => 0x60
  | .b2q _ _ => 0x61
  | .q2t _ _ => 0x62
  | .t2q _ _ => 0x63
  | .q2tc _ _ _ => 0x64

/-- The opcode byte of the command's word is the table's. -/
def Laws.Opcode.Statement (i : Instr) : Prop := Machine.opcodeOf i = Laws.Opcode.ofTable i

theorem Laws.Opcode.halt : Laws.Opcode.Statement .halt :=
  opcode_packR _ _ _ _ _

theorem Laws.Opcode.wli (wd : Reg) (imm : BitVec 16) : Laws.Opcode.Statement (.wli wd imm) :=
  opcode_packI _ _ _ _

theorem Laws.Opcode.wbrev (wd wa : Reg) : Laws.Opcode.Statement (.wbrev wd wa) :=
  opcode_packR _ _ _ _ _

theorem Laws.Opcode.wlsb (wd wa : Reg) : Laws.Opcode.Statement (.wlsb wd wa) :=
  opcode_packR _ _ _ _ _

theorem Laws.Opcode.ctsel (wd wm wa wb : Reg) : Laws.Opcode.Statement (.ctsel wd wm wa wb) :=
  opcode_packR _ _ _ _ _

theorem Laws.Opcode.ctisz (wd wa : Reg) : Laws.Opcode.Statement (.ctisz wd wa) :=
  opcode_packR _ _ _ _ _

theorem Laws.Opcode.cteq (wd wa wb : Reg) : Laws.Opcode.Statement (.cteq wd wa wb) :=
  opcode_packR _ _ _ _ _

theorem Laws.Opcode.ctmemeq (wd wa wb wc : Reg) : Laws.Opcode.Statement (.ctmemeq wd wa wb wc) :=
  opcode_packR _ _ _ _ _

theorem Laws.Opcode.ctbsel (wm wa wb wc : Reg) : Laws.Opcode.Statement (.ctbsel wm wa wb wc) :=
  opcode_packR _ _ _ _ _

theorem Laws.Opcode.bzero (bd : Reg) : Laws.Opcode.Statement (.bzero bd) :=
  opcode_packR _ _ _ _ _

theorem Laws.Opcode.blsh1 (bd : Reg) : Laws.Opcode.Statement (.blsh1 bd) :=
  opcode_packR _ _ _ _ _

theorem Laws.Opcode.brsh1 (bd : Reg) : Laws.Opcode.Statement (.brsh1 bd) :=
  opcode_packR _ _ _ _ _

theorem Laws.Opcode.bcswap (ba bb wm : Reg) : Laws.Opcode.Statement (.bcswap ba bb wm) :=
  opcode_packR _ _ _ _ _

theorem Laws.Opcode.bfmadd (bd bs wm : Reg) : Laws.Opcode.Statement (.bfmadd bd bs wm) :=
  opcode_packR _ _ _ _ _

theorem Laws.Opcode.bmodphi (bd : Reg) : Laws.Opcode.Statement (.bmodphi bd) :=
  opcode_packR _ _ _ _ _

theorem Laws.Opcode.brev700 (bd bs : Reg) : Laws.Opcode.Statement (.brev700 bd bs) :=
  opcode_packR _ _ _ _ _

theorem Laws.Opcode.bclrtop (bd : Reg) : Laws.Opcode.Statement (.bclrtop bd) :=
  opcode_packR _ _ _ _ _

theorem Laws.Opcode.binv (bd bs : Reg) : Laws.Opcode.Statement (.binv bd bs) :=
  opcode_packR _ _ _ _ _

theorem Laws.Opcode.tzero (td : Reg) : Laws.Opcode.Statement (.tzero td) :=
  opcode_packR _ _ _ _ _

theorem Laws.Opcode.tlsh1 (td : Reg) : Laws.Opcode.Statement (.tlsh1 td) :=
  opcode_packR _ _ _ _ _

theorem Laws.Opcode.trsh1 (td : Reg) : Laws.Opcode.Statement (.trsh1 td) :=
  opcode_packR _ _ _ _ _

theorem Laws.Opcode.tcswap (ta tb wm : Reg) : Laws.Opcode.Statement (.tcswap ta tb wm) :=
  opcode_packR _ _ _ _ _

theorem Laws.Opcode.tadd (td ta tb : Reg) : Laws.Opcode.Statement (.tadd td ta tb) :=
  opcode_packR _ _ _ _ _

theorem Laws.Opcode.tsub (td ta tb : Reg) : Laws.Opcode.Statement (.tsub td ta tb) :=
  opcode_packR _ _ _ _ _

theorem Laws.Opcode.tcmul (td ta tb : Reg) : Laws.Opcode.Statement (.tcmul td ta tb) :=
  opcode_packR _ _ _ _ _

theorem Laws.Opcode.tneg (td : Reg) : Laws.Opcode.Statement (.tneg td) :=
  opcode_packR _ _ _ _ _

theorem Laws.Opcode.tmulc (td wms wma : Reg) : Laws.Opcode.Statement (.tmulc td wms wma) :=
  opcode_packR _ _ _ _ _

theorem Laws.Opcode.tfmsub (td ts wms wma : Reg) : Laws.Opcode.Statement (.tfmsub td ts wms wma) :=
  opcode_packR _ _ _ _ _

theorem Laws.Opcode.tmodphi (td : Reg) : Laws.Opcode.Statement (.tmodphi td) :=
  opcode_packR _ _ _ _ _

theorem Laws.Opcode.trev700 (td ts : Reg) : Laws.Opcode.Statement (.trev700 td ts) :=
  opcode_packR _ _ _ _ _

theorem Laws.Opcode.tmul (td ta tb : Reg) : Laws.Opcode.Statement (.tmul td ta tb) :=
  opcode_packR _ _ _ _ _

theorem Laws.Opcode.tinv (td ts : Reg) : Laws.Opcode.Statement (.tinv td ts) :=
  opcode_packR _ _ _ _ _

theorem Laws.Opcode.qnorm (qd : Reg) : Laws.Opcode.Statement (.qnorm qd) :=
  opcode_packR _ _ _ _ _

theorem Laws.Opcode.qanorm (qs : Reg) : Laws.Opcode.Statement (.qanorm qs) :=
  opcode_packR _ _ _ _ _

theorem Laws.Opcode.qclamp (qd : Reg) : Laws.Opcode.Statement (.qclamp qd) :=
  opcode_packR _ _ _ _ _

theorem Laws.Opcode.qmodphi (qd : Reg) : Laws.Opcode.Statement (.qmodphi qd) :=
  opcode_packR _ _ _ _ _

theorem Laws.Opcode.qmulxm1 (qd : Reg) : Laws.Opcode.Statement (.qmulxm1 qd) :=
  opcode_packR _ _ _ _ _

theorem Laws.Opcode.qmul (qd qa qb : Reg) : Laws.Opcode.Statement (.qmul qd qa qb) :=
  opcode_packR _ _ _ _ _

theorem Laws.Opcode.qinv (qd qs : Reg) : Laws.Opcode.Statement (.qinv qd qs) :=
  opcode_packR _ _ _ _ _

theorem Laws.Opcode.qadd (qd qa qb : Reg) : Laws.Opcode.Statement (.qadd qd qa qb) :=
  opcode_packR _ _ _ _ _

theorem Laws.Opcode.qsub (qd qa qb : Reg) : Laws.Opcode.Statement (.qsub qd qa qb) :=
  opcode_packR _ _ _ _ _

theorem Laws.Opcode.qsample (qd : Reg) (imm : BitVec 16) : Laws.Opcode.Statement (.qsample qd imm) :=
  opcode_packI _ _ _ _

theorem Laws.Opcode.qsamplep (qd : Reg) (imm : BitVec 16) : Laws.Opcode.Statement (.qsamplep qd imm) :=
  opcode_packI _ _ _ _

theorem Laws.Opcode.qlift (qd qs : Reg) : Laws.Opcode.Statement (.qlift qd qs) :=
  opcode_packR _ _ _ _ _

theorem Laws.Opcode.qmarsh (qs : Reg) (imm : BitVec 16) : Laws.Opcode.Statement (.qmarsh qs imm) :=
  opcode_packI _ _ _ _

theorem Laws.Opcode.qunmarsh (qd wk : Reg) (imm : BitVec 16) : Laws.Opcode.Statement (.qunmarsh qd wk imm) :=
  opcode_packI _ _ _ _

theorem Laws.Opcode.qmarsh3 (qs : Reg) (imm : BitVec 16) : Laws.Opcode.Statement (.qmarsh3 qs imm) :=
  opcode_packI _ _ _ _

theorem Laws.Opcode.q2b (bd qs : Reg) : Laws.Opcode.Statement (.q2b bd qs) :=
  opcode_packR _ _ _ _ _

theorem Laws.Opcode.b2q (qd bs : Reg) : Laws.Opcode.Statement (.b2q qd bs) :=
  opcode_packR _ _ _ _ _

theorem Laws.Opcode.q2t (td qs : Reg) : Laws.Opcode.Statement (.q2t td qs) :=
  opcode_packR _ _ _ _ _

theorem Laws.Opcode.t2q (qd ts : Reg) : Laws.Opcode.Statement (.t2q qd ts) :=
  opcode_packR _ _ _ _ _

theorem Laws.Opcode.q2tc (td qs wk : Reg) : Laws.Opcode.Statement (.q2tc td qs wk) :=
  opcode_packR _ _ _ _ _

end Sys2Proof
end

