-- ==== Sys2Proof/Tests/Slice0.lean ====
section
/-!
SUPPORT. The model's own tests. Expected results come from the examples of the spec's rules, named in each comment, and from
the layout of R71 and R72 for the words. Then a witness for every statement that has premises.
-/

namespace Sys2Proof.Tests

open Sys2Proof Sys2Proof.Machine

/-! ### Words the checks refuse (R76): the WellFormed smoke test -/

theorem test_refuse_undefined_opcode : wellFormedWord 0x01000000#32 = false ∧ definedOpcode 0x01000000#32 = false := by decide

theorem test_refuse_all_ones : wellFormedWord 0xFFFFFFFF#32 = false := by decide

theorem test_refuse_unused_register_field : wellFormedWord 0x20010000#32 = false ∧ definedOpcode 0x20010000#32 = true := by
  decide

theorem test_refuse_nonzero_z : wellFormedWord 0x20000001#32 = false := by decide

theorem test_refuse_register_8 : wellFormedWord 0x20800000#32 = false := by decide

theorem test_refuse_register_15_in_fc : wellFormedWord 0x13000F00#32 = false := by decide

theorem test_refuse_fa_of_wli : wellFormedWord 0x10010000#32 = false := by decide

theorem test_refuse_halt_with_operand : wellFormedWord 0x00100000#32 = false := by decide

/-- The decoder refuses the same words, the opcode before the fields (R81). -/
theorem test_decode_refuses :
    decode 0x01800001#32 = .error .illegalOpcode ∧ decode 0x3E000000#32 = .error .illegalOpcode ∧
    decode 0x65000000#32 = .error .illegalOpcode ∧ decode 0x20800000#32 = .error .illegalField ∧
    decode 0x20000001#32 = .error .illegalField ∧ decode 0x45201800#32 = .error .illegalField ∧
    decode 0x54380000#32 = .error .illegalField ∧ decode 0x00000001#32 = .error .illegalField := by decide

/-! ### Every constructor from a word written out by the layout of R71, R72 and the table of R75 -/

theorem test_decode_scalar :
    decode 0x00000000#32 = .ok .halt ∧
    decode 0x10508A51#32 = .ok (.wli 5 0x8A51#16) ∧
    decode 0x11560000#32 = .ok (.wbrev 5 6) ∧
    decode 0x12560000#32 = .ok (.wlsb 5 6) ∧
    decode 0x13563700#32 = .ok (.ctsel 5 6 3 7) ∧
    decode 0x14560000#32 = .ok (.ctisz 5 6) ∧
    decode 0x15563000#32 = .ok (.cteq 5 6 3) ∧
    decode 0x16563700#32 = .ok (.ctmemeq 5 6 3 7) ∧
    decode 0x17563700#32 = .ok (.ctbsel 5 6 3 7) := by decide

theorem test_decode_binary :
    decode 0x20500000#32 = .ok (.bzero 5) ∧
    decode 0x21500000#32 = .ok (.blsh1 5) ∧
    decode 0x22500000#32 = .ok (.brsh1 5) ∧
    decode 0x23563000#32 = .ok (.bcswap 5 6 3) ∧
    decode 0x24563000#32 = .ok (.bfmadd 5 6 3) ∧
    decode 0x25500000#32 = .ok (.bmodphi 5) ∧
    decode 0x26560000#32 = .ok (.brev700 5 6) ∧
    decode 0x27500000#32 = .ok (.bclrtop 5) ∧
    decode 0x28560000#32 = .ok (.binv 5 6) := by decide

theorem test_decode_ternary :
    decode 0x30500000#32 = .ok (.tzero 5) ∧
    decode 0x31500000#32 = .ok (.tlsh1 5) ∧
    decode 0x32500000#32 = .ok (.trsh1 5) ∧
    decode 0x33563000#32 = .ok (.tcswap 5 6 3) ∧
    decode 0x34563000#32 = .ok (.tadd 5 6 3) ∧
    decode 0x35563000#32 = .ok (.tsub 5 6 3) ∧
    decode 0x36563000#32 = .ok (.tcmul 5 6 3) ∧
    decode 0x37500000#32 = .ok (.tneg 5) ∧
    decode 0x38563000#32 = .ok (.tmulc 5 6 3) ∧
    decode 0x39563700#32 = .ok (.tfmsub 5 6 3 7) ∧
    decode 0x3A500000#32 = .ok (.tmodphi 5) ∧
    decode 0x3B560000#32 = .ok (.trev700 5 6) ∧
    decode 0x3C563000#32 = .ok (.tmul 5 6 3) ∧
    decode 0x3D560000#32 = .ok (.tinv 5 6) := by decide

theorem test_decode_modq :
    decode 0x40500000#32 = .ok (.qnorm 5) ∧
    decode 0x41500000#32 = .ok (.qanorm 5) ∧
    decode 0x42500000#32 = .ok (.qclamp 5) ∧
    decode 0x43500000#32 = .ok (.qmodphi 5) ∧
    decode 0x44500000#32 = .ok (.qmulxm1 5) ∧
    decode 0x45563000#32 = .ok (.qmul 5 6 3) ∧
    decode 0x46560000#32 = .ok (.qinv 5 6) ∧
    decode 0x47563000#32 = .ok (.qadd 5 6 3) ∧
    decode 0x48563000#32 = .ok (.qsub 5 6 3) := by decide

theorem test_decode_io :
    decode 0x50508A51#32 = .ok (.qsample 5 0x8A51#16) ∧
    decode 0x51508A51#32 = .ok (.qsamplep 5 0x8A51#16) ∧
    decode 0x52560000#32 = .ok (.qlift 5 6) ∧
    decode 0x53508A51#32 = .ok (.qmarsh 5 0x8A51#16) ∧
    decode 0x54568A51#32 = .ok (.qunmarsh 5 6 0x8A51#16) ∧
    decode 0x55508A51#32 = .ok (.qmarsh3 5 0x8A51#16) := by decide

theorem test_decode_convert :
    decode 0x60560000#32 = .ok (.q2b 5 6) ∧
    decode 0x61560000#32 = .ok (.b2q 5 6) ∧
    decode 0x62560000#32 = .ok (.q2t 5 6) ∧
    decode 0x63560000#32 = .ok (.t2q 5 6) ∧
    decode 0x64563000#32 = .ok (.q2tc 5 6 3) := by decide

/-! ### One step -/

/-- The state a command leaves of another. -/
def after (i : Instr) (s : State) : State :=
  match exec i s with
  | .next t => t
  | .fault _ => s
  | .refused _ => s

/-- A state with W = 32. -/
def base32 : State := State.resetWith { Params.standard with width := .w32 }

/-- A state with W = 64. -/
def base : State := State.reset

/-- The binary polynomial with ones at these positions. -/
def bin (l : List Nat) : BinaryPoly := bitsOf 701 fun i => l.contains i

/-- The ternary polynomial with +1 and -1 at these positions. -/
def ter (plus minus : List Nat) : TernaryPoly := ⟨bin minus, bitsOf 701 fun i => plus.contains i || minus.contains i⟩

/-- The mod-Q polynomial with these coefficients first and 0 above. -/
def mq (l : List Coeff) : Coeffs := tabulate 701 fun i => l.getD i 0

/-- A memory that holds these bytes from address 0. -/
def memory (l : List Byte) : Memory := writeCells [] 0 l

/-- 0x8000 sign-extended at both widths (R94). -/
theorem test_wli : (after (.wli 3 0x8000#16) base).readW 3 = 0xFFFFFFFFFFFF8000#64 ∧
    (after (.wli 3 0xFFFF#16) base32).readW 3 = 0xFFFFFFFF#64 := by decide

/-- The examples of R95. -/
theorem test_wbrev : (after (.wbrev 1 0) (base.setW 0 1)).readW 1 = 0x8000000000000000#64 ∧
    (after (.wbrev 0 0) (base32.setW 0 6)).readW 0 = 0x60000000#64 := by decide

/-- The examples of R96. -/
theorem test_wlsb : (after (.wlsb 1 0) (base.setW 0 3)).readW 1 = 0xFFFFFFFFFFFFFFFF#64 ∧
    (after (.wlsb 1 0) (base.setW 0 0xFFFFFFFFFFFFFFFE#64)).readW 1 = 0 := by decide

/-- The examples of R97. -/
theorem test_ctsel : (after (.ctsel 0 1 2 3) (((base.setW 1 base.ones).setW 2 5).setW 3 9)).readW 0 = 5 ∧
    (after (.ctsel 0 1 2 3) ((base.setW 2 5).setW 3 9)).readW 0 = 9 := by decide

/-- The examples of R98 and R99. -/
theorem test_compare : (after (.ctisz 1 0) base).readW 1 = base.ones ∧
    (after (.ctisz 1 0) (base32.setW 0 0x80000000#64)).readW 1 = 0 ∧
    (after (.cteq 2 0 1) ((base.setW 0 7).setW 1 7)).readW 2 = base.ones ∧
    (after (.cteq 2 0 1) ((base.setW 0 7).setW 1 8)).readW 2 = 0 := by decide

/-- The registers of the examples of R100 and R101: addresses 0 and 16, length 3. -/
def ranges (bytes : List Byte) : State := { (base.setW 2 16).setW 3 3 with mem := memory bytes }

/-- The bytes of the example of R100. -/
def twoStrings (last : Byte) : List Byte := [1, 2, 3, 0, 0, 0, 0, 0, 0, 0, 0, 0, 0, 0, 0, 0, 1, 2, last]

theorem test_ctmemeq : (after (.ctmemeq 0 1 2 3) (ranges (twoStrings 3))).readW 0 = base.ones ∧
    (after (.ctmemeq 0 1 2 3) (ranges (twoStrings 4))).readW 0 = 0 := by decide

/-- Under the false mask the first range becomes a copy of the second, byte 2 and no further (R101). -/
theorem test_ctbsel : (after (.ctbsel 0 1 2 3) (ranges (twoStrings 9))).readByte 2 = 9 ∧
    (after (.ctbsel 0 1 2 3) (ranges (twoStrings 9))).readByte 3 = 0 ∧
    (after (.ctbsel 3 1 2 3) (ranges (twoStrings 9))).readByte 2 = 0x0B#8 := by decide

/-- A range one byte past the end of `MEM` faults, `EPC` the command's index (R54, R236). -/
theorem test_memory_fault : (after (.ctmemeq 0 1 2 3) ((base.setW 2 8190).setW 3 3)).cause = 3 ∧
    (after (.ctmemeq 0 1 2 3) ((base.setW 2 8190).setW 3 3)).runState = .faulted ∧
    (after (.ctmemeq 0 1 2 3) ((base.setW 2 8190).setW 3 3)).pc = 0 ∧
    (after (.qsample 0 7493#16) base).cause = 3 ∧ (after (.qsample 0 7492#16) base).cause = 0 := by decide

/-- HALT keeps `pc` (R217). -/
theorem test_halt : (after .halt base).runState = .halted ∧ (after .halt base).pc = 0 := by decide

/-- The examples of R112, R113 and R118. -/
theorem test_binary_shifts : (after (.blsh1 1) (base.setB 1 (bin [5, 700]))).b[(1 : Reg)] = bin [6] ∧
    (after (.brsh1 1) (base.setB 1 (bin [0, 700]))).b[(1 : Reg)] = bin [699] ∧
    (after (.bclrtop 1) (base.setB 1 (bin [700]))).b[(1 : Reg)] = bin [700] ∧
    (after (.bzero 1) (base.setB 1 (bin [5]))).b[(1 : Reg)] = 0 := by decide +kernel

/-- The example of R114, and a mask that is not canonical at W = 64 (R235). -/
theorem test_bcswap :
    (after (.bcswap 1 2 7) (((base.setB 1 1).setB 2 2).setW 7 base.ones)).b[(1 : Reg)] = 2 ∧
    (after (.bcswap 1 2 7) (((base.setB 1 1).setB 2 2).setW 7 base.ones)).b[(2 : Reg)] = 1 ∧
    (after (.bcswap 1 2 7) (((base.setB 1 1).setB 2 2).setW 7 0xFFFFFFFF#64)).cause = 4 ∧
    (after (.bcswap 1 2 7) (((base.setB 1 1).setB 2 2).setW 7 0xFFFFFFFF#64)).b[(1 : Reg)] = 1 := by decide +kernel

/-- The example of R115, and mask bit 0 gating coefficients 0, 32 and 64 at W = 32. -/
theorem test_bfmadd :
    (after (.bfmadd 0 1 2) (((base.setB 0 (bin [0, 1])).setB 1 (bin [1, 2])).setW 2 base.ones)).b[(0 : Reg)] = bin [0, 2] ∧
    (after (.bfmadd 0 1 2) ((base32.setB 1 (bin [0, 1, 32, 33, 64])).setW 2 1)).b[(0 : Reg)] = bin [0, 32, 64] := by
  decide +kernel

/-- The examples of R116 and R117. -/
theorem test_bmodphi_brev700 :
    (after (.bmodphi 0) (base.setB 0 (bin [700]))).b[(0 : Reg)] = BitVec.ofNat 701 (2 ^ 700 - 1) ∧
    (after (.brev700 0 1) (base.setB 1 (bin [0, 2]))).b[(0 : Reg)] = bin [697, 699] := by decide +kernel

set_option maxRecDepth 100000 in
/-- x^699 has the inverse x^2; 0 has none and sets AFAIL (R120). -/
theorem test_binv : (after (.binv 0 1) (base.setB 1 (bin [699]))).b[(0 : Reg)] = bin [2] ∧
    (after (.binv 0 1) (base.setB 1 (bin [699]))).afail = false ∧ (after (.binv 0 1) base).afail = true := by
  decide +kernel

/-- The examples of R137 and R138. -/
theorem test_ternary_shifts : (after (.tlsh1 0) (base.setT 0 (ter [0] [700]))).t[(0 : Reg)] = ter [1] [] ∧
    (after (.trsh1 0) (base.setT 0 (ter [0] [700]))).t[(0 : Reg)] = ter [] [699] ∧
    (after (.tzero 0) (base.setT 0 (ter [0] [700]))).t[(0 : Reg)] = ter [] [] := by decide +kernel

/-- The example of R139. -/
theorem test_tcswap :
    (after (.tcswap 0 1 2) (((base.setT 0 (ter [0] [])).setT 1 (ter [] [1])).setW 2 base.ones)).t[(0 : Reg)] = ter [] [1] ∧
    (after (.tcswap 0 1 2) (((base.setT 0 (ter [0] [])).setT 1 (ter [] [1])).setW 2 1)).cause = 4 := by decide +kernel

/-- The operands of the examples of R140 and R141. -/
def sums : State := (base.setT 1 (ter [0, 1] [])).setT 2 (ter [0] [1])

/-- The examples of R140, R141, R142 and R143. -/
theorem test_ternary_lanes : (after (.tadd 0 1 2) sums).t[(0 : Reg)] = ter [] [0] ∧
    (after (.tsub 0 1 2) sums).t[(0 : Reg)] = ter [] [1] ∧
    (after (.tcmul 0 1 2) ((base.setT 1 (ter [0, 2] [1])).setT 2 (ter [] [0, 1]))).t[(0 : Reg)] = ter [1] [0] ∧
    (after (.tneg 0) (base.setT 0 (ter [0] [5]))).t[(0 : Reg)] = ter [5] [0] := by decide +kernel

/-- The example of R161, and QANORM on the same register (R162). -/
def dirty : State := { base with q := base.q.set (0 : Reg) (tabulate 704 fun i => if i = 702 then 5 else 0) }

theorem test_padding : coef (after (.qnorm 0) dirty).q[(0 : Reg)] 702 = 0 ∧ (after (.qanorm 0) dirty).afail = true ∧
    coef (after (.qanorm 0) dirty).q[(0 : Reg)] 702 = 5 ∧ (after (.qanorm 0) base).afail = false := by decide +kernel

/-- The examples of R163 and R164. -/
theorem test_qclamp_qmodphi :
    (let s := after (.qclamp 0) (base.setCoeffs 0 (mq [0xFFFF, 0xE000, 0x2001]));
      coef s.q[(0 : Reg)] 0 = 0x1FFF ∧ coef s.q[(0 : Reg)] 1 = 0 ∧ coef s.q[(0 : Reg)] 2 = 1) ∧
    (let s := after (.qmodphi 0) (base.setCoeffs 0 (tabulate 701 fun i => if i = 0 then 5 else if i = 700 then 2 else 0));
      coef s.q[(0 : Reg)] 0 = 3 ∧ coef s.q[(0 : Reg)] 699 = 0xFFFE ∧ coef s.q[(0 : Reg)] 700 = 0) := by decide +kernel

/-- The examples of R165, R171 and R172. -/
theorem test_qmulxm1_qadd_qsub :
    (let s := after (.qmulxm1 0) (base.setCoeffs 0 (tabulate 701 fun i => if i = 700 then 1 else 0));
      coef s.q[(0 : Reg)] 0 = 1 ∧ coef s.q[(0 : Reg)] 700 = 0xFFFF) ∧
    coef (after (.qadd 2 0 1) ((base.setCoeffs 0 (mq [0xFFFF])).setCoeffs 1 (mq [1]))).q[(2 : Reg)] 0 = 0 ∧
    coef (after (.qsub 2 0 1) (base.setCoeffs 1 (mq [1]))).q[(2 : Reg)] 0 = 0xFFFF := by decide +kernel

/-- 700 sample bytes of which these come first. -/
def samples (l : List Byte) : State := { base with mem := memory (l ++ List.replicate (700 - l.length) 0) }

/-- The examples of R189, signed and not. -/
theorem test_qsample :
    (let s := after (.qsample 0 0) (samples [2, 0x80, 0xFF]);
      coef s.q[(0 : Reg)] 0 = 0xFFFF ∧ coef s.q[(0 : Reg)] 1 = 1 ∧ coef s.q[(0 : Reg)] 2 = 0xFFFF) ∧
    (let s := after (.qsample 0 0) { samples [2, 0x80, 0xFF] with params := { Params.standard with sampleByteSigned := false } };
      coef s.q[(0 : Reg)] 1 = 0xFFFF ∧ coef s.q[(0 : Reg)] 2 = 0) := by decide +kernel

/-- The example of R197. -/
def packed : Coeffs := tabulate 701 fun i => if i = 699 then 0x1ABC else ([1, 0x1FFF, 0x1000] : List Coeff).getD i 0

/-- The examples of R199: 6A, and 6B for five digits equal to 3. -/
theorem test_qmarsh3 :
    (after (.qmarsh3 0 0) (base.setCoeffs 0 (mq [1, 0xFFFF, 0x1FFF, 0, 1, 2, 2, 2, 2, 2]))).readByte 0 = 0x6A ∧
    (after (.qmarsh3 0 0) (base.setCoeffs 0 (mq [1, 0xFFFF, 0x1FFF, 0, 1, 2, 2, 2, 2, 2]))).readByte 1 = 0x6B := by
  decide +kernel

/-- The examples of R144 and R145. -/
theorem test_ternary_scalars :
    (after (.tmulc 0 1 2) (((base.setT 0 (ter [0] [1])).setW 1 1).setW 2 1)).t[(0 : Reg)] = ter [1] [0] ∧
    (after (.tfmsub 0 1 1 2) ((((base.setT 0 (ter [0] [])).setT 1 (ter [1] [])).setW 1 1).setW 2 1)).t[(0 : Reg)]
      = ter [0, 1] [] := by decide +kernel

/-- x^700 + x^3 becomes -1 everywhere below 700 but 0 at 3 (R146). -/
theorem test_tmodphi :
    (after (.tmodphi 0) (base.setT 0 (ter [3, 700] []))).t[(0 : Reg)].s = BitVec.ofNat 701 (2 ^ 700 - 1 - 8) := by
  decide +kernel

/-- The example of R147. -/
theorem test_trev700 : (after (.trev700 0 1) (base.setT 1 (ter [0] [2]))).t[(0 : Reg)] = ter [699] [697] := by decide +kernel

set_option maxRecDepth 100000 in
/-- -1 is its own inverse (R151). -/
theorem test_tinv : (after (.tinv 0 1) (base.setT 1 (ter [] [0]))).t[(0 : Reg)] = ter [] [0] := by decide +kernel

/-- x^700 · x = 1: coefficient 0 of the product (R148). -/
theorem test_tmul : tValue (tPolyMul (ter [700] []) (ter [1] [])) 0 = 1 := by
  have hv : (tValid (ter [700] []) && tValid (ter [1] [])) = true := by decide +kernel
  rw [tPolyMul, if_pos hv, productGF3, tValue, getLsbD_encodeGF3_s _ _ (by decide), getLsbD_encodeGF3_a _ _ (by decide)]
  decide +kernel

/-- (1 + 2x)(3 + x^700) has coefficient 0 equal to 5 (R167). -/
theorem test_qmul :
    coef (cycMul16 (mq [1, 2]) (tabulate 701 fun i => if i = 0 then 3 else if i = 700 then 1 else 0)) 0 = 5 := by
  rw [coef_cycMul16 _ _ _ (by decide)]
  simp only [mq, coef_tabulate]
  decide +kernel

theorem coef_mq (l : List Coeff) (i : Nat) (h : i < 701) : coef (mq l) i = l.getD i 0 := by
  rw [mq, coef_tabulate, if_pos h]

/-- The sample 1, -1 has the sum -1: coefficient 0 is negated, coefficient 1 is not (R190). -/
theorem test_qsamplep :
    coef (plusCorrection (mq [1, 0xFFFF])) 0 = 0xFFFF ∧ coef (plusCorrection (mq [1, 0xFFFF])) 1 = 0xFFFF := by
  have h : neighbourSum (mq [1, 0xFFFF]) = 0xFFFF := by
    rw [neighbourSum, Finset.sum_eq_single 0]
    · rw [coef_mq _ _ (by decide), coef_mq _ _ (by decide)]
      decide
    · intro i hi h0
      rw [Finset.mem_range] at hi
      rw [coef_mq _ (i + 1) (by omega)]
      obtain ⟨k, rfl⟩ := Nat.exists_eq_succ_of_ne_zero h0
      simp
    · exact fun h => absurd (Finset.mem_range.mpr (by decide)) h
  rw [coef_plusCorrection _ _ (by decide), coef_plusCorrection _ _ (by decide), h, coef_mq _ _ (by decide),
    coef_mq _ _ (by decide)]
  decide

/-- Bits 5 and 4 of byte E0, bits 3 and 4 of the last byte 0D of the example of R197. -/
theorem test_qmarsh :
    ((marshalBytes packed).getD 1 0).getLsbD 5 = true ∧ ((marshalBytes packed).getD 1 0).getLsbD 4 = false ∧
    ((marshalBytes packed).getD 1137 0).getLsbD 3 = true ∧ ((marshalBytes packed).getD 1137 0).getLsbD 4 = false := by
  rw [getLsbD_marshalBytes _ _ _ (by decide) (by decide), getLsbD_marshalBytes _ _ _ (by decide) (by decide),
    getLsbD_marshalBytes _ _ _ (by decide) (by decide), getLsbD_marshalBytes _ _ _ (by decide) (by decide)]
  simp only [streamBit, packed, coef_tabulate]
  decide +kernel

/-- The fields 1 and 2 of the example of R198, and the trailing bits of 0D and 1D. -/
theorem test_qunmarsh : unmarshalField [0x01, 0xE0, 0xFF, 0x03, 0x40] 1 = 0xFFFF ∧
    unmarshalField [0x01, 0xE0, 0xFF, 0x03, 0x40] 2 = 0xF000 ∧
    trailingBitsZero (List.replicate 1137 0 ++ [0x0D]) = true ∧
    trailingBitsZero (List.replicate 1137 0 ++ [0x1D]) = false := by decide +kernel

/-- The examples of R211 and R212. -/
theorem test_q2b_b2q : (bitsOfCoeffs (mq [3, 2, 0xFFFF])).getLsbD 2 = true ∧
    coef (after (.b2q 0 0) (base.setB 0 (bin [0, 2]))).q[(0 : Reg)] 2 = 1 := by
  rw [getLsbD_bitsOfCoeffs _ _ (by decide)]
  decide +kernel

/-- The examples of R213 and R214: 2 is -1, 0x1FFE is +1, and -1 is 0xFFFF. -/
theorem test_q2t_t2q :
    (ternaryOfCoeffs (mq [0, 1, 0x1FFF, 0xFFFF, 2, 0x1FFE])).s.getLsbD 4 = true ∧
    (ternaryOfCoeffs (mq [0, 1, 0x1FFF, 0xFFFF, 2, 0x1FFE])).s.getLsbD 5 = false ∧
    coef (after (.t2q 0 0) (base.setT 0 (ter [0] [2]))).q[(0 : Reg)] 2 = 0xFFFF := by
  rw [getLsbD_ternaryOfCoeffs_s _ _ (by decide), getLsbD_ternaryOfCoeffs_s _ _ (by decide)]
  decide +kernel

/-- The examples of R215: the mask is true, and false on 0xFFFF, which is still taken as -1. -/
theorem test_q2tc : morallyTernary (mq [0, 1, 0x1FFF]) = true ∧ morallyTernary (mq [0, 1, 0xFFFF]) = false ∧
    (checkedTernary (mq [0, 1, 0xFFFF])).s.getLsbD 2 = true := by
  refine ⟨?_, by decide +kernel, ?_⟩
  · rw [morallyTernary_iff]
    intro i hi
    rw [coef_mq _ _ hi]
    match i with
    | 0 | 1 | 2 | _ + 3 => simp
  · rw [getLsbD_checkedTernary_s _ _ (by decide)]
    decide +kernel

/-- A step of a started program: the word at `pc` runs, and the next one faults as no opcode (R81). -/
theorem test_step : step (base.withFetchWord 32 0x00000000) = .next { base.withFetchWord 32 0 with runState := .halted } ∧
    decodeTableWord 32 0x10000000 = some (.wli 0 0) := ⟨rfl, by decide⟩

/-! ### Witnesses: the premises of every statement that has some, met together, each clause at a boundary -/

/-- A started block at an index of `CMD`, with one word written there. -/
def started (pc : BitVec 16) (word : CommandWord) : State :=
  { base with runState := .run, pc := pc, cmd := [(pc.toNat, word)] }

/-- The invariant holds of it up to the last word of `CMD`. -/
theorem inv_started (pc : BitVec 16) (word : CommandWord) (h : pc.toNat < 1024) : (started pc word).Inv := by
  refine ⟨show Params.standard.Legal by decide, List.Pairwise.nil, nofun, List.pairwise_singleton _ _, ?_, ?_, Nat.le_of_lt h, nofun,
    fun _ => ⟨rfl, rfl⟩, nofun⟩
  · intro c hc
    rw [List.mem_singleton.mp hc]
    exact h
  · intro r
    show (Vector.replicate 8 (0 : Word))[r] &&& _ = (Vector.replicate 8 (0 : Word))[r]
    rw [file_replicate]
    exact BitVec.zero_and

/-- The block started and run off the end of `CMD`. -/
def offEnd : State := { base with runState := .run, pc := 1024 }

theorem inv_offEnd : offEnd.Inv := by
  refine ⟨by decide, List.Pairwise.nil, nofun, List.Pairwise.nil, nofun, ?_, by decide, nofun, fun _ => ⟨rfl, rfl⟩, nofun⟩
  intro r
  show (Vector.replicate 8 (0 : Word))[r] &&& _ = (Vector.replicate 8 (0 : Word))[r]
  rw [file_replicate]
  exact BitVec.zero_and

theorem witness_EncodeDecode : decode 0x1030FFFF#32 = .ok (.wli 3 0xFFFF) := by decide

theorem witness_StepRunsCommand : (started 1023 0x1030FFFF#32).runState = .run ∧
    (started 1023 0x1030FFFF#32).pc.toNat < (started 1023 0x1030FFFF#32).params.cmdWords ∧
    decode ((started 1023 0x1030FFFF#32).readCmd (started 1023 0x1030FFFF#32).pc.toNat) = .ok (.wli 3 0xFFFF) := by decide

theorem witness_FetchWordRuns : base.pc.toNat < base.params.cmdWords ∧
    (started 1023 0).pc.toNat < (started 1023 0).params.cmdWords := by decide

theorem witness_FetchFaults_end : offEnd.runState = .run ∧ offEnd.params.cmdWords ≤ offEnd.pc.toNat ∧ offEnd.Inv :=
  ⟨rfl, by decide, inv_offEnd⟩

theorem witness_FetchFaults_words :
    (started 1023 0x01000000#32).pc.toNat < (started 1023 0x01000000#32).params.cmdWords ∧
    definedOpcode ((started 1023 0x01000000#32).readCmd (started 1023 0x01000000#32).pc.toNat) = false ∧
    definedOpcode ((started 1023 0x20800000#32).readCmd (started 1023 0x20800000#32).pc.toNat) = true ∧
    wellFormedWord ((started 1023 0x20800000#32).readCmd (started 1023 0x20800000#32).pc.toNat) = false := by decide

theorem witness_FaultsArePrecise :
    offEnd.runState = .run ∧ step offEnd = .next (offEnd.raiseFault .pcRange) ∧
    (offEnd.raiseFault .pcRange).runState = .faulted := ⟨rfl, rfl, rfl⟩

set_option maxRecDepth 100000 in
/-- A step that raises each of the other four causes (R231): an undefined opcode, an illegal field, a buffer past the end of
`MEM`, and a swap under the mask 1. -/
theorem witness_FaultsArePrecise_causes :
    step (started 1023 0x01000000#32) = .next ((started 1023 0x01000000#32).raiseFault .illegalOpcode) ∧
    step (started 1023 0x20800000#32) = .next ((started 1023 0x20800000#32).raiseFault .illegalField) ∧
    step (started 0 0x50001D45#32) = .next ((started 0 0x50001D45#32).raiseFault .memRange) ∧
    step ((started 0 0x23127000#32).setW 7 1) = .next (((started 0 0x23127000#32).setW 7 1).raiseFault .maskNoncanonical) :=
  ⟨rfl, rfl, rfl, rfl⟩

theorem witness_StepMoves : base.runState ≠ .run ∧ offEnd.runState = .run := by decide

/-- A state with dirty padding about to run `QANORM q0`. -/
def asserting : State := { dirty with runState := .run, cmd := [(0, 0x41000000)] }

theorem witness_AssertionFlagSticky : asserting.afail = false ∧ step asserting = .next (after (.qanorm 0) asserting) ∧
    (after (.qanorm 0) asserting).afail = true ∧
    step { base with afail := true } = .next { base with afail := true } :=
  ⟨rfl, rfl, by decide +kernel, rfl⟩

theorem witness_OnlyTheseWrite : exec .halt base = .next { base with runState := .halted } := rfl

theorem witness_RunsEnd : (started 1023 0x10000000#32).Inv ∧ (started 1023 0x10000000#32).runState = .run :=
  ⟨inv_started 1023 _ (by decide), rfl⟩

theorem witness_InvStep : offEnd.Inv ∧ step offEnd = .next (offEnd.raiseFault .pcRange) := ⟨inv_offEnd, rfl⟩

theorem witness_Reachable : Reachable (fun _ => True) (State.resetWith Params.standard) ∧
    Reachable HostAction.Dutiful (State.resetWith Params.standard) :=
  ⟨.powerUp _ (by decide), .powerUp _ (by decide)⟩

theorem witness_TernaryStaysValid : offEnd.TernaryValid ∧ step offEnd = .next (offEnd.raiseFault .pcRange) := by
  refine ⟨fun r => ?_, rfl⟩
  show tValid (Vector.replicate 8 (⟨0, 0⟩ : TernaryPoly))[r] = true
  rw [file_replicate]
  decide +kernel

/-- Every register is normalized after power-up and reset, and a step and moves of a dutiful host answer. -/
theorem witness_DutifulInvariants : (offEnd.Normalized ∧ step offEnd = .next (offEnd.raiseFault .pcRange)) ∧
    (HostAction.writeQ 7 (withPadding (tabulate 701 fun _ => 0xFFFF))).Dutiful ∧
    hostMove (.writeQ 7 (withPadding (tabulate 701 fun _ => 0xFFFF))) base =
      .next { base with q := base.q.set (7 : Reg) (withPadding (tabulate 701 fun _ => 0xFFFF)) } ∧
    (HostAction.writeT 7 (ter [0] [700])).Dutiful ∧
    hostMove (.writeT 7 (ter [0] [700])) base = .next (base.setT 7 (ter [0] [700])) := by
  refine ⟨⟨fun r => ?_, rfl⟩, paddingZero_withPadding _, rfl, ?_, rfl⟩
  · show PaddingZero (Vector.replicate 8 (Vector.replicate 704 (0 : Coeff)))[r]
    rw [file_replicate]
    exact ⟨by decide +kernel, by decide +kernel, by decide +kernel⟩
  · show tValid (ter [0] [700]) = true
    decide +kernel

/-- A host move from a state with the invariant: a reset of a block run off the end of `CMD`, and its last byte of `MEM` written
after the fault. -/
theorem witness_InvReachable : offEnd.Inv ∧ hostMove .reset offEnd = .next offEnd.hostReset ∧
    hostMove (.writeMem 8191 0xFF) (offEnd.raiseFault .pcRange) =
      .next { offEnd.raiseFault .pcRange with mem := [(8191, 0xFF)] } :=
  ⟨inv_offEnd, rfl, rfl⟩

theorem witness_PaddingRule : SameButPadding base dirty ∧ opcodeOf (.qnorm 0) ≠ 0x41 ∧
    exec (.qnorm 0) base = .next (after (.qnorm 0) base) := by
  refine ⟨⟨rfl, rfl, rfl, fun r => ?_, rfl, rfl, rfl, rfl, rfl, rfl, rfl, rfl⟩, by decide, rfl⟩
  apply coeffs_ext
  intro i hi
  have h : i ≠ 702 := by omega
  have hd : dirty.q[r] = if r = 0 then (tabulate 704 fun i => if i = 702 then 5 else 0) else base.q[r] :=
    file_set base.q 0 r _
  rw [State.coeffs, State.coeffs, coef_dropPadding, coef_dropPadding, if_pos hi, if_pos hi, hd]
  split
  · rw [coef_tabulate, if_neg h, if_pos (by omega)]
    show 0 = coef (Vector.replicate 8 (Vector.replicate 704 (0 : Coeff)))[r] i
    rw [file_replicate, coef_getElem _ _ (by omega), Vector.getElem_replicate]
  · rfl

theorem witness_HostMoves : base.runState = .idle ∧ offEnd.runState = .run ∧
    { base with runState := .halted }.runState = .halted ∧ { base with runState := .faulted }.runState = .faulted ∧
    (8191 < base.params.memBytes ∧ 1023 < base.params.cmdWords) ∧ (base.params.memBytes ≤ 8192 ∧ base.params.cmdWords ≤ 1024) ∧
    HostAction.start ≠ .reset ∧ (0xFB#8).getLsbD 2 = false ∧ (0x04#8).getLsbD 2 = true := by decide

/-- `STATUS` in RUN with AFAIL set reads 5 (R32). -/
theorem test_status : { base with runState := .run, afail := true }.status = 5 ∧ (base.raiseFault .pcRange).status = 3 := by
  decide

/-- Scalar registers `w1`, `w2` and `w3` of the two-range commands. -/
def operands (a b len : Word) : State := ((base.setW 1 a).setW 2 b).setW 3 len

/-- The last range that fits, the first that does not, and an empty one at the highest address. -/
theorem witness_ranges :
    (¬ (operands 8189 0 3).RangeFails ((operands 8189 0 3).unsignedW 1) ((operands 8189 0 3).unsignedW 3) ∧
      ¬ (operands 8189 0 3).RangeFails ((operands 8189 0 3).unsignedW 2) ((operands 8189 0 3).unsignedW 3)) ∧
    (operands 8190 0 3).RangeFails ((operands 8190 0 3).unsignedW 1) ((operands 8190 0 3).unsignedW 3) ∧
    (operands 0 8190 3).RangeFails ((operands 0 8190 3).unsignedW 2) ((operands 0 8190 3).unsignedW 3) ∧
    ¬ (operands 0xFFFFFFFFFFFFFFFF#64 0 0).RangeFails ((operands 0xFFFFFFFFFFFFFFFF#64 0 0).unsignedW 1)
      ((operands 0xFFFFFFFFFFFFFFFF#64 0 0).unsignedW 3) := by
  simp only [State.RangeFails]
  decide

theorem witness_ConditionalSwaps : (base.setW 7 base.ones).readW 7 = (base.setW 7 base.ones).ones ∧ base.readW 7 = 0 ∧
    ((base.setW 7 1).readW 7 ≠ 0 ∧ (base.setW 7 1).readW 7 ≠ (base.setW 7 1).ones) := by decide

set_option maxRecDepth 100000 in
theorem witness_BinaryDescentInverts : (bin [0]).getLsbD 700 = false ∧ (bDescent (bin [0])).2 = 0 := by decide +kernel

theorem witness_CircuitTables : 700 < 701 ∧ 1399 ≤ 1399 := by decide

theorem witness_TernaryLanewise : tValid sums.t[(1 : Reg)] = true ∧ tValid sums.t[(2 : Reg)] = true ∧
    tValid sums.t[(0 : Reg)] = true := by decide +kernel

theorem witness_TernaryModPhi : (tValid (ter [] [700]) = true ∧ pairAt (ter [] [700]) 700 = .minus) ∧
    (tValid (ter [0] []) = true ∧ pairAt (ter [0] []) 700 = .zero) ∧
    pairAt ⟨bin [700], 0⟩ 700 = .invalid := by decide +kernel

theorem witness_TernaryProduct : (tValid (ter [700] []) = true ∧ tValid (ter [1] []) = true) ∧
    tValid ⟨bin [0], 0⟩ = false := by decide +kernel

set_option maxRecDepth 100000 in
theorem witness_TernaryDescentInverts : tValid (ter [0] []) = true ∧ pairAt (ter [0] []) 700 = .zero ∧
    (tDescent (ter [0] [])).2 = 0 := by decide +kernel

/-- A register that holds the polynomial 1 and a large memory-free state around it. -/
def one : State := base.setCoeffs 0 (mq [1])

theorem one_coeffs : one.coeffs 0 = mq [1] := (setCoeffs_coeffs base 0 0 (mq [1])).trans (if_pos rfl)

theorem witness_ModQInverseInverts : (1 : Reg) ≠ 0 ∧ (bDescent (modphi2 (bitsOfCoeffs (one.coeffs 0)))).2 = 0 := by
  refine ⟨by decide, ?_⟩
  have h : modphi2 (bitsOfCoeffs (mq [1])) = bin [0] := by
    apply bits_ext
    intro i hi
    rw [getLsbD_modphi2, getLsbD_bitsOfCoeffs _ _ hi, getLsbD_bitsOfCoeffs _ _ (by decide), coef_mq _ _ hi,
      coef_mq _ _ (by decide), bin, getLsbD_bitsOf]
    by_cases h0 : i = 0
    · subst h0
      rfl
    · obtain ⟨k, rfl⟩ := Nat.exists_eq_succ_of_ne_zero h0
      simp
  rw [one_coeffs, h]
  exact witness_BinaryDescentInverts.2

theorem witness_UpperBitsIrrelevant : SameModQ (mq [1]) (mq [0x2001]) ∧ mq [1] ≠ mq [0x2001] := by
  constructor
  · intro i hi
    rw [coef_mq _ _ hi, coef_mq _ _ hi]
    match i with
    | 0 | _ + 1 => simp
  · intro h
    have := congrArg (fun c => coef c 0) h
    simp only [coef_mq _ 0 (by decide)] at this
    exact absurd this (by decide)

/-- The highest address each buffer fits at, and the one above. -/
theorem witness_buffers :
    ((7492#16).toNat + 700 ≤ base.params.memBytes ∧ base.params.memBytes < (7493#16).toNat + 700) ∧
    ((7054#16).toNat + 1138 ≤ base.params.memBytes ∧ base.params.memBytes < (7055#16).toNat + 1138) ∧
    ((8052#16).toNat + 140 ≤ base.params.memBytes ∧ base.params.memBytes < (8053#16).toNat + 140) := by decide

theorem witness_LiftMeaning : exec (.qlift 1 0) one = .next (after (.qlift 1 0) one) ∧ T16Form (one.coeffs 0) := by
  refine ⟨rfl, ?_⟩
  rw [one_coeffs]
  intro i hi
  rw [coef_mq _ _ hi]
  match i with
  | 0 | _ + 1 => simp

/-- The two premises of the exact round trip and the one of the round trip modulo Q, met by x^0 - x^1; and the last one. -/
theorem witness_MarshalRoundTrip : (7054#16).toNat + 1138 ≤ base.params.memBytes ∧
    (∀ i < 700, coef (mq [1, 0xFFFF]) i = ((coef (mq [1, 0xFFFF]) i).setWidth 13).signExtend 16) ∧
    ∑ i ∈ Finset.range 701, coef (mq [1, 0xFFFF]) i = 0 ∧
    (base.setCoeffs 0 (liftQ (mq [1]))).coeffs 0 = liftQ (mq [1]) := by
  refine ⟨by decide, ?_, ?_, (setCoeffs_coeffs base 0 0 _).trans (if_pos rfl)⟩
  · intro i hi
    rw [coef_mq _ _ (by omega)]
    match i with
    | 0 | 1 => decide
    | _ + 2 => simp
  · rw [← Finset.sum_subset (Finset.range_subset_range.mpr (show 2 ≤ 701 by decide))]
    · rw [Finset.sum_range_succ, Finset.sum_range_one, coef_mq _ _ (by decide), coef_mq _ _ (by decide)]
      decide
    · intro i hi h
      rw [Finset.mem_range] at hi h
      rw [coef_mq _ _ hi]
      obtain ⟨k, rfl⟩ := Nat.exists_eq_add_of_le (Nat.le_of_not_lt h)
      rw [Nat.add_comm]
      simp

/-- Coefficients that are all 0, 1 or 0x1FFF, and one that is none of them. -/
theorem witness_CheckedConversion :
    (∀ i < 701, coef (mq [1, 0x1FFF]) i = 0 ∨ coef (mq [1, 0x1FFF]) i = 1 ∨ coef (mq [1, 0x1FFF]) i = 0x1FFF) ∧
    (∃ i < 701, coef (mq [0xFFFF]) i ≠ 0 ∧ coef (mq [0xFFFF]) i ≠ 1 ∧ coef (mq [0xFFFF]) i ≠ 0x1FFF) := by
  constructor
  · intro i hi
    rw [coef_mq _ _ hi]
    match i with
    | 0 | 1 | _ + 2 => simp
  · refine ⟨0, by decide, ?_⟩
    rw [coef_mq _ _ (by decide)]
    decide

theorem witness_ConversionRoundTrips : tValid (ter [] [700]) = true ∧ ∃ i < 701, pairAt (ter [] [700]) i = .minus :=
  ⟨by decide +kernel, 700, by decide, by decide +kernel⟩

end Sys2Proof.Tests
end

section
/-!
The invariant of the machine: it holds after power-up and reset, and every step keeps it.
-/

namespace Sys2Proof.Proofs

open Sys2Proof Sys2Proof.Machine

/-! ### Keeping the invariant, one lemma per way a step ends -/

/-- Raising a fault keeps the invariant: it records one of the codes and the `pc` (R34, R35, R236). -/
theorem inv_raiseFault {s : State} (h : s.Inv) (c : FaultCause) : (s.raiseFault c).Inv where
  legal := h.legal
  memWf := h.memWf
  memInside := h.memInside
  cmdWf := h.cmdWf
  cmdInside := h.cmdInside
  words := h.words
  pc := h.pc
  pcRunning := nofun
  noFault := fun hne => absurd rfl hne
  fault := fun _ => ⟨⟨c, rfl⟩, rfl⟩

/-- A HALT in RUN keeps the invariant: `pc` stays and no fault is recorded. -/
theorem inv_halted {s : State} (h : s.Inv) (hr : s.runState = .run) : { s with runState := .halted }.Inv where
  legal := h.legal
  memWf := h.memWf
  memInside := h.memInside
  cmdWf := h.cmdWf
  cmdInside := h.cmdInside
  words := h.words
  pc := h.pc
  pcRunning := nofun
  noFault := fun _ => h.noFault (by simp [hr])
  fault := nofun

/-- Masking a scalar word with `ONES_W` a second time changes nothing, so a written file holds W-bit words (R29). -/
theorem words_set_masked {w : Vector Word 8} {ones : Word} (h : ∀ r : Reg, w[r] &&& ones = w[r]) (k : Reg) (v : Word)
    (r : Reg) : (w.set k (v &&& ones))[r] &&& ones = (w.set k (v &&& ones))[r] := by
  rw [file_set]
  split
  · rw [BitVec.and_assoc, BitVec.and_self]
  · exact h r

/-- The scalar words after a command's update have W bits. -/
theorem words_of_updated {s u : State} (h : s.Inv) (hu : Updated s u) (r : Reg) : u.w[r] &&& u.ones = u.w[r] := by
  have hones : u.ones = s.ones := congrArg (fun p : Params => onesW p.width) hu.params
  rw [hones]
  rcases hu.scalar with hw | ⟨k, v, hw⟩
  · rw [hw]
    exact h.words r
  · rw [hw]
    exact words_set_masked h.words k v r

/-- `MEM` after a command's update is in canonical form (R50). -/
theorem memWf_of_updated {s u : State} (h : s.Inv) (hu : Updated s u) : Memory.wf u.mem := by
  rcases hu.mem with hm | ⟨a, bytes, _, hm⟩
  · rw [hm]
    exact h.memWf
  · rw [hm]
    exact writeCells_wf bytes h.memWf a

/-- `MEM` after a command's update stays inside MEM_BYTES: the range written passed its check (R54). -/
theorem memInside_of_updated {s u : State} (h : s.Inv) (hu : Updated s u) : ∀ c ∈ u.mem, c.1 < u.params.memBytes := by
  rw [hu.params]
  rcases hu.mem with hm | ⟨a, bytes, hin, hm⟩
  · rw [hm]
    exact h.memInside
  · rw [hm]
    intro c hc
    rcases mem_writeCells hc with hr | hold
    · rw [State.InRange] at hin
      omega
    · exact h.memInside c hold

/-- Inside `CMD` the `pc` of a legal block is one that can be moved on without a wrap (R30, R51). -/
theorem toNat_pc_succ {s : State} (h : s.Inv) (hpc : s.pc.toNat < s.params.cmdWords) :
    (s.pc + 1).toNat = s.pc.toNat + 1 := by
  obtain ⟨_, _, _, hcmd⟩ := h.legal
  rw [BitVec.toNat_add]
  show (s.pc.toNat + 1) % 65536 = s.pc.toNat + 1
  omega

/-- A command that retires in RUN, fetched inside `CMD`, keeps the invariant. -/
theorem inv_advance_of_updated {s u : State} (h : s.Inv) (hr : s.runState = .run) (hpc : s.pc.toNat < s.params.cmdWords)
    (hu : Updated s u) : u.advance.Inv where
  legal := by rw [advance_params, hu.params]; exact h.legal
  memWf := by rw [advance_mem]; exact memWf_of_updated h hu
  memInside := by rw [advance_mem, advance_params]; exact memInside_of_updated h hu
  cmdWf := by rw [advance_cmd, hu.cmd]; exact h.cmdWf
  cmdInside := by rw [advance_cmd, advance_params, hu.cmd, hu.params]; exact h.cmdInside
  words := fun r => by rw [advance_w, advance_ones]; exact words_of_updated h hu r
  pc := by rw [advance_pc, advance_params, hu.pc, hu.params, toNat_pc_succ h hpc]; exact hpc
  pcRunning := by simp [hu.runState, hr]
  noFault := fun _ => by
    rw [advance_cause, advance_epc, hu.cause, hu.epc]
    exact h.noFault (by simp [hr])
  fault := by simp [hu.runState, hr]

/-- Every command keeps the invariant when a step runs it: STATE is RUN and `pc` is inside `CMD`. -/
theorem inv_of_ends {i : Instr} {s t : State} (h : s.Inv) (hr : s.runState = .run) (hpc : s.pc.toNat < s.params.cmdWords)
    (he : Ends i s t) : t.Inv := by
  cases he with
  | halts _ ht => exact ht ▸ inv_halted h hr
  | faults c _ ht => exact ht ▸ inv_raiseFault h c
  | retires _ u hu ht => exact ht ▸ inv_advance_of_updated h hr hpc hu

/-- Settles O13, by the three ends of a step: resting, a fault of the fetch, or one command. -/
theorem invStep : Obligations.InvStep := by
  intro s t h hstep
  rcases step_cases hstep with ⟨_, rfl⟩ | ⟨_, c, _, rfl⟩ | ⟨hr, i, hfetch, hexec⟩
  · exact h
  · exact inv_raiseFault h c
  · obtain ⟨hpc, _⟩ := fetch_ok hfetch
    exact inv_of_ends h hr hpc (ends_of_exec hexec)

/-- The invariant after power-up and reset, for legal parameters (R6, R38). -/
theorem inv_resetWith {p : Params} (hp : p.Legal) : (State.resetWith p).Inv := by
  obtain ⟨hmem, hcmd⟩ := resetWith_mem_wf p
  exact {
    legal := hp
    memWf := hmem
    memInside := by simp
    cmdWf := hcmd
    cmdInside := by simp
    words := fun r => by rw [resetWith_w, file_replicate]; exact BitVec.zero_and
    pc := Nat.zero_le _
    pcRunning := fun _ => rfl
    noFault := fun _ => ⟨rfl, rfl⟩
    fault := nofun }

/-- Settles O14: the defaults of R6 are legal parameters. -/
theorem invReset : Obligations.InvReset :=
  ⟨inv_resetWith (by decide), fun _ hp => inv_resetWith hp⟩

end Sys2Proof.Proofs
end

section
/-!
Polynomials over a field modulo Φ = 1 + x + … + x^700, given by their 701 coefficients (R9, R10).
-/

namespace Sys2Proof.Proofs

open Polynomial

variable {K : Type} [Field K]

/-- The polynomial with 701 given coefficients. -/
noncomputable def polyOf (a : ℕ → K) : K[X] := ∑ i ∈ Finset.range 701, monomial i (a i)

@[simp] theorem coeff_polyOf (a : ℕ → K) (i : ℕ) : (polyOf a).coeff i = if i < 701 then a i else 0 := by
  simp [polyOf, coeff_monomial]

variable (K) in
/-- Φ(N), all of whose 701 coefficients are 1 (R10). -/
noncomputable def phiPoly : K[X] := polyOf fun _ => 1

@[simp] theorem coeff_phiPoly (i : ℕ) : (phiPoly K).coeff i = if i < 701 then 1 else 0 := coeff_polyOf _ i

theorem phiPoly_natDegree : (phiPoly K).natDegree = 700 := by
  apply natDegree_eq_of_le_of_coeff_ne_zero
  · rw [natDegree_le_iff_coeff_eq_zero]
    intro i hi
    rw [coeff_phiPoly, if_neg (by omega)]
  · simp

theorem phiPoly_ne_zero : phiPoly K ≠ 0 := fun h => by
  simpa [h] using phiPoly_natDegree (K := K)

/-- A multiple of Φ without coefficients above 699 is 0. -/
theorem eq_zero_of_phiPoly_dvd {p : K[X]} (hd : phiPoly K ∣ p) (h : ∀ i, 700 ≤ i → p.coeff i = 0) : p = 0 := by
  by_contra hp
  have hle := natDegree_le_of_dvd hd hp
  rw [phiPoly_natDegree] at hle
  exact hp (leadingCoeff_eq_zero.mp (h _ hle))

/-! ### The residue of a coefficient list -/

/-- The residue modulo Φ of the polynomial with the given coefficients. -/
noncomputable def residue (a : ℕ → K) : AdjoinRoot (phiPoly K) := AdjoinRoot.mk (phiPoly K) (polyOf a)

/-- The coefficients of the polynomial 1. -/
def oneCoeff (i : ℕ) : K := if i = 0 then 1 else 0

theorem residue_oneCoeff : residue (oneCoeff : ℕ → K) = 1 := by
  have h : polyOf (oneCoeff : ℕ → K) = 1 := by
    ext i
    rw [coeff_polyOf, coeff_one]
    by_cases h0 : i = 0
    · simp [oneCoeff, h0]
    · simp [oneCoeff, h0]
  rw [residue, h, map_one]

/-- Residues of coefficient lists are sums of powers of the root x. -/
theorem residue_eq_sum (a : ℕ → K) :
    residue a = ∑ i ∈ Finset.range 701, AdjoinRoot.of (phiPoly K) (a i) * AdjoinRoot.root (phiPoly K) ^ i := by
  rw [residue, polyOf, map_sum]
  refine Finset.sum_congr rfl fun i _ => ?_
  rw [← C_mul_X_pow_eq_monomial, map_mul, map_pow, AdjoinRoot.mk_C, AdjoinRoot.mk_X]

theorem residue_congr {a b : ℕ → K} (h : ∀ i < 701, a i = b i) : residue a = residue b := by
  rw [residue_eq_sum, residue_eq_sum]
  exact Finset.sum_congr rfl fun i hi => by rw [h i (Finset.mem_range.mp hi)]

/-- Coefficient lists with top coefficient 0 are told apart by their residues. -/
theorem residue_injective {a b : ℕ → K} (ha : a 700 = 0) (hb : b 700 = 0) (h : residue a = residue b) :
    ∀ i < 701, a i = b i := by
  have hz : polyOf a - polyOf b = 0 := by
    refine eq_zero_of_phiPoly_dvd (AdjoinRoot.mk_eq_mk.mp h) fun i hi => ?_
    rw [coeff_sub, coeff_polyOf, coeff_polyOf]
    rcases Nat.eq_or_lt_of_le hi with rfl | hi
    · simp [ha, hb]
    · rw [if_neg (by omega), if_neg (by omega), sub_zero]
  intro i hi
  have hc := congrArg (fun p => coeff p i) (sub_eq_zero.mp hz)
  simpa [hi] using hc

/-- The root x of Φ is a root of x^701 - 1, which Φ divides (R10). -/
theorem root_pow_701 : AdjoinRoot.root (phiPoly K) ^ 701 = 1 := by
  have hsum : ∑ i ∈ Finset.range 701, AdjoinRoot.root (phiPoly K) ^ i = 0 := by
    have h : residue (fun _ => (1 : K)) = 0 := AdjoinRoot.mk_self
    simpa only [residue_eq_sum, map_one, one_mul] using h
  have hgeom := geom_sum_mul (AdjoinRoot.root (phiPoly K)) 701
  rw [hsum, zero_mul] at hgeom
  exact sub_eq_zero.mp hgeom.symm

theorem root_pow_mod (n : ℕ) : AdjoinRoot.root (phiPoly K) ^ (n % 701) = AdjoinRoot.root (phiPoly K) ^ n :=
  (pow_eq_pow_mod n root_pow_701).symm

/-- The cyclic product modulo x^701 - 1 is the product of the residues (R10). -/
theorem residue_cyclic {u v w : ℕ → K}
    (h : ∀ k < 701, w k = ∑ i ∈ Finset.range 701, ∑ j ∈ Finset.range 701, if (i + j) % 701 = k then u i * v j else 0) :
    residue w = residue u * residue v := by
  rw [residue_eq_sum, residue_eq_sum, residue_eq_sum, Finset.sum_mul_sum]
  calc ∑ k ∈ Finset.range 701, AdjoinRoot.of (phiPoly K) (w k) * AdjoinRoot.root (phiPoly K) ^ k
      = ∑ k ∈ Finset.range 701, ∑ i ∈ Finset.range 701, ∑ j ∈ Finset.range 701,
          if (i + j) % 701 = k then
            AdjoinRoot.of (phiPoly K) (u i * v j) * AdjoinRoot.root (phiPoly K) ^ k else 0 := by
        refine Finset.sum_congr rfl fun k hk => ?_
        rw [h k (Finset.mem_range.mp hk), map_sum, Finset.sum_mul]
        refine Finset.sum_congr rfl fun i _ => ?_
        rw [map_sum, Finset.sum_mul]
        refine Finset.sum_congr rfl fun j _ => ?_
        split
        · rfl
        · rw [map_zero, zero_mul]
    _ = ∑ i ∈ Finset.range 701, ∑ j ∈ Finset.range 701, ∑ k ∈ Finset.range 701,
          if (i + j) % 701 = k then
            AdjoinRoot.of (phiPoly K) (u i * v j) * AdjoinRoot.root (phiPoly K) ^ k else 0 := by
        rw [Finset.sum_comm]
        exact Finset.sum_congr rfl fun i _ => Finset.sum_comm
    _ = _ := by
        refine Finset.sum_congr rfl fun i _ => Finset.sum_congr rfl fun j _ => ?_
        rw [Finset.sum_ite_eq, if_pos (Finset.mem_range.mpr (Nat.mod_lt _ (by decide))), root_pow_mod, map_mul, pow_add]
        ring

/-- Subtracting the top coefficient from every coefficient subtracts a multiple of Φ (R116). -/
theorem residue_sub_top (w : ℕ → K) : residue (fun i => w i - w 700) = residue w := by
  refine AdjoinRoot.mk_eq_mk.mpr ⟨C (-w 700), ?_⟩
  ext i
  rw [mul_comm, coeff_C_mul, coeff_sub, coeff_polyOf, coeff_polyOf, coeff_phiPoly]
  split
  · ring
  · ring

/-! ### Reversal -/

/-- The reversal of the first 700 coefficients, the top one cleared (R117). -/
def revCoeff (a : ℕ → K) (i : ℕ) : K := if i < 700 then a (699 - i) else 0

/-- The inverse of the root x: x^700. -/
noncomputable def rootInv (K : Type) [Field K] : AdjoinRoot (phiPoly K) := AdjoinRoot.root (phiPoly K) ^ 700

theorem root_mul_rootInv : AdjoinRoot.root (phiPoly K) * rootInv K = 1 := by
  rw [rootInv, ← pow_succ', root_pow_701]

theorem root_pow_mul_rootInv_pow (n : ℕ) : AdjoinRoot.root (phiPoly K) ^ n * rootInv K ^ n = 1 := by
  rw [← mul_pow, root_mul_rootInv, one_pow]

/-- The value of a polynomial at 1/x, by which the descent's polynomials are read (R119). -/
noncomputable def valueAtInv : K[X] →ₐ[K] AdjoinRoot (phiPoly K) := aeval (rootInv K)

@[simp] theorem valueAtInv_X : valueAtInv (X : K[X]) = rootInv K := aeval_X _

@[simp] theorem valueAtInv_C (a : K) : valueAtInv (C a) = AdjoinRoot.of (phiPoly K) a := aeval_C _ a

/-- The value at 1/x of a polynomial of degree at most m is the residue of its reversal, divided by x^m. -/
theorem valueAtInv_eq_reflect (m : ℕ) {p : K[X]} (h : ∀ i, m < i → p.coeff i = 0) :
    valueAtInv p = AdjoinRoot.mk (phiPoly K) (reflect m p) * rootInv K ^ m := by
  let _ : Invertible (rootInv K) := ⟨AdjoinRoot.root (phiPoly K), root_mul_rootInv, by rw [mul_comm, root_mul_rootInv]⟩
  rw [← AdjoinRoot.aeval_eq, valueAtInv, aeval_def, aeval_def]
  exact (eval₂_reflect_mul_pow _ (rootInv K) m p (natDegree_le_iff_coeff_eq_zero.mpr h)).symm

theorem reflect_phiPoly : reflect 700 (phiPoly K) = phiPoly K := by
  ext i
  rw [coeff_reflect, coeff_phiPoly, coeff_phiPoly]
  by_cases h : i ≤ 700
  · rw [revAt_le h, if_pos (by omega), if_pos (by omega)]
  · rw [revAt_eq_self_of_lt (by omega)]

/-- 1/x is a root of Φ too, since Φ is its own reversal. -/
theorem valueAtInv_eq_zero_of_dvd {p : K[X]} (h : phiPoly K ∣ p) : valueAtInv p = 0 := by
  have hphi : valueAtInv (phiPoly K) = 0 := by
    rw [valueAtInv_eq_reflect 700 fun i hi => by rw [coeff_phiPoly, if_neg (by omega)], reflect_phiPoly,
      AdjoinRoot.mk_self, zero_mul]
  obtain ⟨q, hq⟩ := h
  rw [hq, map_mul, hphi, zero_mul]

/-- The value at 1/x of a polynomial of degree at most 699 is the residue of its reversal, divided by x^699. -/
theorem valueAtInv_eq_residue {p : K[X]} (h : ∀ i, 700 ≤ i → p.coeff i = 0) :
    valueAtInv p = residue (revCoeff p.coeff) * rootInv K ^ 699 := by
  have hrev : reflect 699 p = polyOf (revCoeff p.coeff) := by
    ext i
    rw [coeff_reflect, coeff_polyOf, revCoeff]
    by_cases hi : i < 700
    · rw [revAt_le (by omega), if_pos (by omega), if_pos hi]
    · rw [revAt_eq_self_of_lt (by omega), h i (by omega), if_neg hi, ite_self]
  rw [valueAtInv_eq_reflect 699 fun i hi => h i hi, hrev, residue]

/-- A polynomial of degree at most 699 that vanishes at 1/x is 0. -/
theorem eq_zero_of_valueAtInv_eq_zero {p : K[X]} (h : ∀ i, 700 ≤ i → p.coeff i = 0) (hv : valueAtInv p = 0) : p = 0 := by
  have hres : residue (revCoeff p.coeff) = residue (fun _ => (0 : K)) := by
    have hmul : residue (revCoeff p.coeff) * rootInv K ^ 699 = 0 := by rw [← valueAtInv_eq_residue h, hv]
    calc residue (revCoeff p.coeff)
        = residue (revCoeff p.coeff) * rootInv K ^ 699 * AdjoinRoot.root (phiPoly K) ^ 699 := by
          rw [mul_assoc, mul_comm (rootInv K ^ 699), root_pow_mul_rootInv_pow, mul_one]
      _ = residue (fun _ => (0 : K)) := by rw [hmul, zero_mul, residue_eq_sum]; simp
  have hzero := residue_injective (by simp [revCoeff]) rfl hres
  ext i
  by_cases hi : i < 700
  · have h0 := hzero (699 - i) (by omega)
    rwa [revCoeff, if_pos (by omega), Nat.sub_sub_self (by omega)] at h0
  · exact h i (by omega)

end Sys2Proof.Proofs
end

section
/-!
The descent of R119 and R150 over a field, on whole polynomials: what every iteration keeps, and what follows at its end. The
vectors v and r of the machine are these polynomials modulo x^701.
-/

namespace Sys2Proof.Proofs

open Polynomial

/-- The variables of the descent as polynomials. -/
structure PolyDescent (K : Type) [Field K] where
  f : K[X]
  g : K[X]
  v : K[X]
  r : K[X]
  delta : ℤ

variable {K : Type} [Field K]

namespace PolyDescent

/-- The start of the descent on Φ and a polynomial. -/
noncomputable def start (G : K[X]) : PolyDescent K := { f := phiPoly K, g := G, v := 0, r := 1, delta := 1 }

/-- The scalar f[0]·g[0], which takes the constant coefficient out of the combination of f and g where its square is 1. -/
noncomputable def scalar (D : PolyDescent K) : K := D.f.coeff 0 * D.g.coeff 0

/-- An iteration with the swap. -/
noncomputable def swapped (D : PolyDescent K) : PolyDescent K :=
  { f := D.g, g := divX (D.f - C D.scalar * D.g), v := D.r, r := X * D.v - C D.scalar * D.r, delta := 1 - D.delta }

/-- An iteration without the swap. -/
noncomputable def kept (D : PolyDescent K) : PolyDescent K :=
  { f := D.f, g := divX (D.g - C D.scalar * D.f), v := X * D.v, r := D.r - C D.scalar * (X * D.v), delta := 1 + D.delta }

/-- One iteration. -/
noncomputable def step [DecidableEq K] (D : PolyDescent K) : PolyDescent K :=
  if 0 < D.delta ∧ D.g.coeff 0 ≠ 0 then D.swapped else D.kept

/-- What holds of the descent on Φ and G after n iterations: f and g are, up to powers of x, the multiples of G by v and r
modulo Φ; the determinant of the iterations is a unit; and delta and n bound the degrees of the four polynomials. -/
structure Keeps (G : K[X]) (n : ℕ) (D : PolyDescent K) : Prop where
  unit : D.f.coeff 0 ≠ 0
  f : phiPoly K ∣ X ^ n * D.f - X * D.v * G
  g : phiPoly K ∣ X ^ n * D.g - D.r * G
  det : Associated (D.r * D.f - X * D.v * D.g) (phiPoly K)
  degF : ∀ i : ℕ, 1399 - n + D.delta < 2 * i → D.f.coeff i = 0
  degG : ∀ i : ℕ, 1399 - n - D.delta < 2 * i → D.g.coeff i = 0
  degV : ∀ i : ℕ, n + D.delta - 1 < 2 * i → D.v.coeff i = 0
  degR : ∀ i : ℕ, n - D.delta + 1 < 2 * i → D.r.coeff i = 0

theorem keeps_start {G : K[X]} (hG : ∀ i, 700 ≤ i → G.coeff i = 0) : (start G).Keeps G 0 where
  unit := by simp [start]
  f := by simp [start]
  g := by simp [start]
  det := by simp [start]
  degF i hi := by
    simp only [start] at hi
    rw [start, coeff_phiPoly, if_neg (by omega)]
  degG i hi := by
    simp only [start] at hi
    exact hG i (by omega)
  degV i _ := coeff_zero i
  degR i hi := by
    simp only [start] at hi
    rw [start, coeff_one, if_neg (by omega)]

/-- Dividing by x a polynomial without constant coefficient. -/
theorem X_mul_divX_of_coeff_zero {p : K[X]} (h : p.coeff 0 = 0) : X * divX p = p := by
  simpa [h] using X_mul_divX_add p

/-- The combination f - c·g has no constant coefficient. -/
theorem coeff_zero_swapped (hK : ∀ a : K, a ≠ 0 → a * a = 1) {D : PolyDescent K} (hg : D.g.coeff 0 ≠ 0) :
    (D.f - C D.scalar * D.g).coeff 0 = 0 := by
  rw [coeff_sub, coeff_C_mul, scalar, mul_assoc, hK _ hg, mul_one, sub_self]

/-- The combination g - c·f has no constant coefficient. -/
theorem coeff_zero_kept (hK : ∀ a : K, a ≠ 0 → a * a = 1) {D : PolyDescent K} (hf : D.f.coeff 0 ≠ 0) :
    (D.g - C D.scalar * D.f).coeff 0 = 0 := by
  rw [coeff_sub, coeff_C_mul, scalar, mul_right_comm, hK _ hf, one_mul, sub_self]

/-- Multiplication by x moves a bound on the coefficients by one. -/
theorem coeff_X_mul_eq_zero {p : K[X]} {b : ℤ} (h : ∀ i : ℕ, b < 2 * i → p.coeff i = 0) (i : ℕ) (hi : b + 2 < 2 * i) :
    (X * p).coeff i = 0 := by
  cases i with
  | zero => exact coeff_X_mul_zero p
  | succ k =>
    rw [coeff_X_mul]
    exact h k (by push_cast at hi; omega)

/-- An iteration with the swap keeps what the descent keeps. -/
theorem keeps_swapped (hK : ∀ a : K, a ≠ 0 → a * a = 1) {G : K[X]} {n : ℕ} {D : PolyDescent K} (h : D.Keeps G n)
    (hd : 0 < D.delta) (hg : D.g.coeff 0 ≠ 0) : D.swapped.Keeps G (n + 1) := by
  have hdiv : X * D.swapped.g = D.f - C D.scalar * D.g := X_mul_divX_of_coeff_zero (coeff_zero_swapped hK hg)
  refine ⟨hg, ?_, ?_, ?_, ?_, ?_, ?_, ?_⟩
  · have hcomb : X ^ (n + 1) * D.swapped.f - X * D.swapped.v * G = X * (X ^ n * D.g - D.r * G) := by
      simp only [swapped]
      ring
    rw [hcomb]
    exact h.g.mul_left X
  · have hcomb : X ^ (n + 1) * D.swapped.g - D.swapped.r * G =
        (X ^ n * D.f - X * D.v * G) - C D.scalar * (X ^ n * D.g - D.r * G) := by
      rw [pow_succ, mul_assoc, hdiv]
      simp only [swapped]
      ring
    rw [hcomb]
    exact dvd_sub h.f (h.g.mul_left _)
  · have hcomb : D.swapped.r * D.swapped.f - X * D.swapped.v * D.swapped.g = -(D.r * D.f - X * D.v * D.g) := by
      rw [mul_right_comm X, hdiv]
      simp only [swapped]
      ring
    rw [hcomb]
    exact h.det.neg_left
  · intro i hi
    simp only [swapped] at hi ⊢
    exact h.degG i (by push_cast at hi; omega)
  · intro i hi
    simp only [swapped] at hi ⊢
    push_cast at hi
    rw [coeff_divX, coeff_sub, coeff_C_mul, h.degF _ (by push_cast; omega), h.degG _ (by push_cast; omega), mul_zero, sub_zero]
  · intro i hi
    simp only [swapped] at hi ⊢
    exact h.degR i (by push_cast at hi; omega)
  · intro i hi
    simp only [swapped] at hi ⊢
    push_cast at hi
    rw [coeff_sub, coeff_C_mul, coeff_X_mul_eq_zero h.degV i (by omega), h.degR i (by omega), mul_zero, sub_zero]

/-- An iteration without the swap keeps what the descent keeps. -/
theorem keeps_kept (hK : ∀ a : K, a ≠ 0 → a * a = 1) {G : K[X]} {n : ℕ} {D : PolyDescent K} (h : D.Keeps G n)
    (hd : D.delta ≤ 0 ∨ D.g.coeff 0 = 0) : D.kept.Keeps G (n + 1) := by
  have hdiv : X * D.kept.g = D.g - C D.scalar * D.f := X_mul_divX_of_coeff_zero (coeff_zero_kept hK h.unit)
  refine ⟨h.unit, ?_, ?_, ?_, ?_, ?_, ?_, ?_⟩
  · have hcomb : X ^ (n + 1) * D.kept.f - X * D.kept.v * G = X * (X ^ n * D.f - X * D.v * G) := by
      simp only [kept]
      ring
    rw [hcomb]
    exact h.f.mul_left X
  · have hcomb : X ^ (n + 1) * D.kept.g - D.kept.r * G =
        (X ^ n * D.g - D.r * G) - C D.scalar * (X ^ n * D.f - X * D.v * G) := by
      rw [pow_succ, mul_assoc, hdiv]
      simp only [kept]
      ring
    rw [hcomb]
    exact dvd_sub h.g (h.f.mul_left _)
  · have hcomb : D.kept.r * D.kept.f - X * D.kept.v * D.kept.g = D.r * D.f - X * D.v * D.g := by
      rw [mul_right_comm X, hdiv]
      simp only [kept]
      ring
    rw [hcomb]
    exact h.det
  · intro i hi
    simp only [kept] at hi ⊢
    exact h.degF i (by push_cast at hi; omega)
  · intro i hi
    simp only [kept] at hi ⊢
    push_cast at hi
    rw [coeff_divX, coeff_sub, coeff_C_mul, h.degG _ (by push_cast; omega)]
    rcases hd with hd | hd
    · rw [h.degF _ (by push_cast; omega), mul_zero, sub_zero]
    · rw [scalar, hd, mul_zero, zero_mul, sub_zero]
  · intro i hi
    simp only [kept] at hi ⊢
    push_cast at hi
    exact coeff_X_mul_eq_zero h.degV i (by omega)
  · intro i hi
    simp only [kept] at hi ⊢
    push_cast at hi
    rw [coeff_sub, coeff_C_mul, h.degR i (by omega)]
    rcases hd with hd | hd
    · rw [coeff_X_mul_eq_zero h.degV i (by omega), mul_zero, sub_zero]
    · rw [scalar, hd, mul_zero, zero_mul, sub_zero]

theorem keeps_step [DecidableEq K] (hK : ∀ a : K, a ≠ 0 → a * a = 1) {G : K[X]} {n : ℕ} {D : PolyDescent K}
    (h : D.Keeps G n) : D.step.Keeps G (n + 1) := by
  unfold step
  split
  next hswap => exact keeps_swapped hK h hswap.1 hswap.2
  next hkeep => exact keeps_kept hK h (by rwa [not_and_or, not_lt, not_not] at hkeep)

theorem keeps_iterate [DecidableEq K] (hK : ∀ a : K, a ≠ 0 → a * a = 1) {G : K[X]}
    (hG : ∀ i, 700 ≤ i → G.coeff i = 0) (n : ℕ) : (step^[n] (start G)).Keeps G n := by
  induction n with
  | zero => exact keeps_start hG
  | succ n ih =>
    rw [Function.iterate_succ_apply']
    exact keeps_step hK ih

/-! ### The end of the descent, after 2N - 3 = 1399 iterations -/

theorem delta_nonneg {G : K[X]} {D : PolyDescent K} (h : D.Keeps G 1399) : 0 ≤ D.delta := by
  by_contra hneg
  exact h.unit (h.degF 0 (by push_cast; omega))

/-- Where the final delta is 0, f is a constant, and v has degree at most 699. -/
theorem f_eq_C {G : K[X]} {D : PolyDescent K} (h : D.Keeps G 1399) (hd : D.delta = 0) : D.f = C (D.f.coeff 0) := by
  ext i
  rw [coeff_C]
  split
  next hi => rw [hi]
  next hi => exact h.degF i (by push_cast; omega)

theorem coeff_v_eq_zero {G : K[X]} {D : PolyDescent K} (h : D.Keeps G 1399) (hd : D.delta = 0) (i : ℕ) (hi : 700 ≤ i) :
    D.v.coeff i = 0 := h.degV i (by push_cast; omega)

/-- Scaling every coefficient scales the residue of the reversal. -/
theorem residue_revCoeff_mul (a : ℕ → K) (c : K) :
    residue (revCoeff fun i => a i * c) = residue (revCoeff a) * AdjoinRoot.of (phiPoly K) c := by
  rw [residue_eq_sum, residue_eq_sum, Finset.sum_mul]
  refine Finset.sum_congr rfl fun i _ => ?_
  rw [mul_right_comm, ← map_mul, revCoeff, revCoeff]
  split
  · rfl
  · rw [zero_mul]

/-- Where the final delta is 0, the reversal of f[0]·v is the inverse of the reversal of G (R120, R151). -/
theorem residue_mul_residue_of_delta_zero (hK : ∀ a : K, a ≠ 0 → a * a = 1) {G : K[X]} {D : PolyDescent K}
    (hG : ∀ i, 700 ≤ i → G.coeff i = 0) (h : D.Keeps G 1399) (hd : D.delta = 0) :
    residue (revCoeff fun i => D.v.coeff i * D.f.coeff 0) * residue (revCoeff G.coeff) = 1 := by
  have hval : rootInv K ^ 1399 * AdjoinRoot.of (phiPoly K) (D.f.coeff 0) =
      rootInv K ^ 1399 * (residue (revCoeff D.v.coeff) * residue (revCoeff G.coeff)) := by
    have hdvd := valueAtInv_eq_zero_of_dvd h.f
    rw [f_eq_C h hd, map_sub, map_mul, map_mul, map_mul, map_pow, valueAtInv_X, valueAtInv_C,
      valueAtInv_eq_residue (coeff_v_eq_zero h hd), valueAtInv_eq_residue hG, sub_eq_zero] at hdvd
    rw [hdvd]
    ring
  have hprod : residue (revCoeff D.v.coeff) * residue (revCoeff G.coeff) = AdjoinRoot.of (phiPoly K) (D.f.coeff 0) :=
    ((IsUnit.of_mul_eq_one_right _ (root_pow_mul_rootInv_pow 1399)).mul_left_cancel hval).symm
  rw [residue_revCoeff_mul, mul_right_comm, hprod, ← map_mul, hK _ h.unit, map_one]

/-- Where the reversal of G is invertible, the final delta is 0: else g is 0, so r is a multiple of Φ and of degree at most
699, so 0, and the determinant with it. -/
theorem delta_eq_zero_of_residue_mul {G : K[X]} {D : PolyDescent K} (hG : ∀ i, 700 ≤ i → G.coeff i = 0)
    (h : D.Keeps G 1399) {u : AdjoinRoot (phiPoly K)} (hu : u * residue (revCoeff G.coeff) = 1) : D.delta = 0 := by
  by_contra hne
  have hpos : 0 < D.delta := lt_of_le_of_ne (delta_nonneg h) (Ne.symm hne)
  have hg : D.g = 0 := by
    ext i
    exact h.degG i (by push_cast; omega)
  have hval : valueAtInv D.r * valueAtInv G = 0 := by
    have hdvd := valueAtInv_eq_zero_of_dvd h.g
    rwa [map_sub, map_mul, map_mul, hg, map_zero, mul_zero, zero_sub, neg_eq_zero] at hdvd
  have hunit : IsUnit (valueAtInv G) := by
    rw [valueAtInv_eq_residue hG]
    exact (IsUnit.of_mul_eq_one_right _ hu).mul (IsUnit.of_mul_eq_one_right _ (root_pow_mul_rootInv_pow 699))
  have hr : D.r = 0 :=
    eq_zero_of_valueAtInv_eq_zero (fun i hi => h.degR i (by push_cast; omega)) (hunit.mul_left_eq_zero.mp hval)
  have hdet := h.det
  rw [hr, hg, zero_mul, mul_zero, sub_zero] at hdet
  exact phiPoly_ne_zero (hdet.eq_zero_iff.mp rfl)

end PolyDescent
end Sys2Proof.Proofs
end

section
/-!
The binary descent of R119 computes the inverse modulo (2, Φ(N)) (R120): its variables are those of the descent on polynomials
over GF(2), the vectors v and r modulo x^701.
-/

namespace Sys2Proof.Proofs

open Sys2Proof Sys2Proof.Machine Polynomial

/-! ### Bit vectors as polynomials over GF(2) -/

/-- A bit as an element of GF(2). -/
def bitValue (b : Bool) : ZMod 2 := if b then 1 else 0

theorem bitValue_and (a b : Bool) : bitValue (a && b) = bitValue a * bitValue b := by
  cases a <;> cases b <;> rfl

/-- In GF(2) the difference is the exclusive or. -/
theorem bitValue_xor (a b : Bool) : bitValue (a ^^ b) = bitValue a - bitValue b := by
  cases a <;> cases b <;> rfl

theorem bitValue_ne_zero {b : Bool} : bitValue b ≠ 0 ↔ b = true := by
  cases b <;> decide

theorem bitValue_injective : Function.Injective bitValue := by
  intro a b
  cases a <;> cases b <;> decide

/-- The parity of a number is its value in GF(2). -/
theorem bitValue_parity (n : ℕ) : bitValue (n % 2 == 1) = (n : ZMod 2) := by
  rw [← ZMod.natCast_mod n 2]
  rcases Nat.mod_two_eq_zero_or_one n with h | h
  · rw [h]
    rfl
  · rw [h]
    rfl

/-- Coefficient i of a binary polynomial as an element of GF(2) (R21). -/
def bitCoeff (v : BinaryPoly) (i : ℕ) : ZMod 2 := bitValue (v.getLsbD i)

theorem bitCoeff_outside (v : BinaryPoly) (i : ℕ) (h : 701 ≤ i) : bitCoeff v i = 0 := by
  rw [bitCoeff, BitVec.getLsbD_of_ge v i h]
  rfl

theorem bitCoeff_allOnes (i : ℕ) : bitCoeff (BitVec.allOnes 701) i = (phiPoly (ZMod 2)).coeff i := by
  rw [bitCoeff, BitVec.getLsbD_allOnes, coeff_phiPoly, bitValue]
  simp

theorem bitCoeff_zero (i : ℕ) : bitCoeff 0 i = 0 := by
  simp [bitCoeff, bitValue]

theorem bitCoeff_one (i : ℕ) : bitCoeff 1 i = oneCoeff i := by
  have h : (1 : BinaryPoly).getLsbD i = decide (i = 0) := by simp [BitVec.getLsbD_one]
  rw [bitCoeff, h, bitValue, oneCoeff]
  simp

theorem bitCoeff_rsh1 (v : BinaryPoly) (i : ℕ) : bitCoeff (rsh1 v) i = bitCoeff v (i + 1) := by
  rw [bitCoeff, getLsbD_rsh1, Nat.add_comm, bitCoeff]

theorem bitCoeff_lsh1_zero (v : BinaryPoly) : bitCoeff (lsh1 v) 0 = 0 := by
  rw [bitCoeff, getLsbD_lsh1]
  rfl

theorem bitCoeff_lsh1_succ (v : BinaryPoly) (i : ℕ) (h : i + 1 < 701) : bitCoeff (lsh1 v) (i + 1) = bitCoeff v i := by
  rw [bitCoeff, getLsbD_lsh1, decide_eq_true h]
  simp [bitCoeff]

/-- `fmadd` under a broadcast bit subtracts the addend times the bit. -/
theorem bitCoeff_fmadd_bcast (out addend : BinaryPoly) (c : Bool) (i : ℕ) :
    bitCoeff (fmadd out addend (bcast c)) i = bitCoeff out i - bitValue c * bitCoeff addend i := by
  by_cases h : i < 701
  · rw [bitCoeff, getLsbD_fmadd, getLsbD_bcast, decide_eq_true h, Bool.true_and, bitValue_xor, bitValue_and, mul_comm]
    rfl
  · simp only [bitCoeff_outside _ i (Nat.le_of_not_lt h), mul_zero, sub_zero]

theorem bitCoeff_and_bcast (v : BinaryPoly) (c : Bool) (i : ℕ) : bitCoeff (v &&& bcast c) i = bitCoeff v i * bitValue c := by
  by_cases h : i < 701
  · rw [bitCoeff, BitVec.getLsbD_and, getLsbD_bcast, decide_eq_true h, Bool.true_and, bitValue_and]
    rfl
  · simp only [bitCoeff_outside _ i (Nat.le_of_not_lt h), zero_mul]

theorem bitCoeff_rev700 (v : BinaryPoly) (i : ℕ) : bitCoeff (rev700 v) i = revCoeff (bitCoeff v) i := by
  rw [bitCoeff, getLsbD_rev700, revCoeff]
  split
  next h => rw [decide_eq_true h, Bool.true_and, bitCoeff]
  next h => rw [decide_eq_false h, Bool.false_and]; rfl

/-- The reduction of R116 subtracts the top coefficient from every coefficient. -/
theorem bitCoeff_modphi2 (v : BinaryPoly) (i : ℕ) (h : i < 701) :
    bitCoeff (modphi2 v) i = bitCoeff v i - bitCoeff v 700 := by
  rw [bitCoeff, getLsbD_modphi2]
  by_cases h7 : i < 700
  · rw [decide_eq_true h7, Bool.true_and, bitValue_xor, bitCoeff, bitCoeff]
  · obtain rfl : i = 700 := by omega
    rw [sub_self]
    rfl

/-- The cyclic product of R10 over GF(2), coefficient by coefficient. -/
theorem bitCoeff_cycMul2 (u v : BinaryPoly) (k : ℕ) (hk : k < 701) :
    bitCoeff (cycMul2 u v) k = ∑ i ∈ Finset.range 701, ∑ j ∈ Finset.range 701,
      if (i + j) % 701 = k then bitCoeff u i * bitCoeff v j else 0 := by
  rw [bitCoeff, cycMul2, getLsbD_bitsOf, decide_eq_true hk, Bool.true_and, bitValue_parity]
  push_cast
  refine Finset.sum_congr rfl fun i _ => Finset.sum_congr rfl fun j _ => ?_
  by_cases h : (i + j) % 701 = k
  · rw [if_pos h, bitCoeff, bitCoeff, ← bitValue_and, bitValue]
    simp [h]
  · simp [h]

/-! ### Residues of bit vectors -/

/-- Bit vectors with coefficient 700 equal to 0 are told apart by their residues. -/
theorem eq_of_residue_bitCoeff {u v : BinaryPoly} (hu : u.getLsbD 700 = false) (hv : v.getLsbD 700 = false)
    (h : residue (bitCoeff u) = residue (bitCoeff v)) : u = v := by
  have htop {w : BinaryPoly} (hw : w.getLsbD 700 = false) : bitCoeff w 700 = 0 := by rw [bitCoeff, hw]; rfl
  exact bits_ext fun i hi => bitValue_injective (residue_injective (htop hu) (htop hv) h i hi)

theorem residue_modphi2 (v : BinaryPoly) : residue (bitCoeff (modphi2 v)) = residue (bitCoeff v) :=
  (residue_congr fun i hi => bitCoeff_modphi2 v i hi).trans (residue_sub_top (bitCoeff v))

theorem residue_cycMul2 (u v : BinaryPoly) :
    residue (bitCoeff (cycMul2 u v)) = residue (bitCoeff u) * residue (bitCoeff v) :=
  residue_cyclic fun k hk => bitCoeff_cycMul2 u v k hk

/-- The product reduces to 1 exactly when the residues are inverse to each other (R10, R116). -/
theorem modphi2_cycMul2_eq_one_iff (u v : BinaryPoly) :
    modphi2 (cycMul2 u v) = 1 ↔ residue (bitCoeff u) * residue (bitCoeff v) = 1 := by
  have hone : residue (bitCoeff 1) = 1 := by
    rw [← residue_oneCoeff]
    exact residue_congr fun i _ => bitCoeff_one i
  rw [← residue_cycMul2, ← residue_modphi2]
  constructor
  · intro h
    rw [h, hone]
  · intro h
    refine eq_of_residue_bitCoeff ?_ ?_ (h.trans hone.symm)
    · rw [getLsbD_modphi2]
      rfl
    · simp

/-! ### The descent on bit vectors -/

/-- The machine's descent follows the descent on polynomials: f and g exactly, v and r modulo x^701. -/
structure Follows (d : BDescent) (D : PolyDescent (ZMod 2)) : Prop where
  f : ∀ i, D.f.coeff i = bitCoeff d.f i
  g : ∀ i, D.g.coeff i = bitCoeff d.g i
  v : ∀ i < 701, D.v.coeff i = bitCoeff d.v i
  r : ∀ i < 701, D.r.coeff i = bitCoeff d.r i
  delta : D.delta = d.delta

/-- An iteration with the swap (R119). -/
theorem bDescentStep_swapped {d : BDescent} (hd : 0 < d.delta) (hg : d.g.getLsbD 0 = true) :
    bDescentStep d =
      { f := d.g, g := rsh1 (fmadd d.f d.g (bcast (d.f.getLsbD 0 && d.g.getLsbD 0))), v := d.r
        r := fmadd (lsh1 d.v) d.r (bcast (d.f.getLsbD 0 && d.g.getLsbD 0)), delta := -d.delta + 1 } := by
  simp [bDescentStep, hd, hg]

/-- An iteration without the swap (R119). -/
theorem bDescentStep_kept {d : BDescent} (h : ¬ (0 < d.delta ∧ d.g.getLsbD 0 = true)) :
    bDescentStep d =
      { f := d.f, g := rsh1 (fmadd d.g d.f (bcast (d.f.getLsbD 0 && d.g.getLsbD 0))), v := lsh1 d.v
        r := fmadd d.r (lsh1 d.v) (bcast (d.f.getLsbD 0 && d.g.getLsbD 0)), delta := d.delta + 1 } := by
  have hswap : (decide (0 < d.delta) && d.g.getLsbD 0) = false := by
    rw [← Bool.not_eq_true, Bool.and_eq_true, decide_eq_true_eq]
    exact h
  simp only [bDescentStep, hswap, Bool.false_eq_true, if_false]

/-- `lsh1` is multiplication by x modulo x^701. -/
theorem coeff_X_mul_of_bitCoeff {p : (ZMod 2)[X]} {v : BinaryPoly} (h : ∀ i < 701, p.coeff i = bitCoeff v i) :
    ∀ i < 701, (X * p).coeff i = bitCoeff (lsh1 v) i := by
  intro i hi
  cases i with
  | zero => rw [coeff_X_mul_zero, bitCoeff_lsh1_zero]
  | succ k => rw [coeff_X_mul, bitCoeff_lsh1_succ v k hi, h k (by omega)]

theorem Follows.scalar {d : BDescent} {D : PolyDescent (ZMod 2)} (h : Follows d D) :
    D.scalar = bitValue (d.f.getLsbD 0 && d.g.getLsbD 0) := by
  rw [PolyDescent.scalar, h.f, h.g, bitValue_and, bitCoeff, bitCoeff]

theorem Follows.step {d : BDescent} {D : PolyDescent (ZMod 2)} (h : Follows d D) : Follows (bDescentStep d) D.step := by
  have hxv := coeff_X_mul_of_bitCoeff h.v
  have hswap : (0 < D.delta ∧ D.g.coeff 0 ≠ 0) ↔ (0 < d.delta ∧ d.g.getLsbD 0 = true) := by
    rw [h.delta, h.g, bitCoeff, bitValue_ne_zero]
  rw [PolyDescent.step]
  split
  next hs =>
    obtain ⟨hd, hg⟩ := hswap.mp hs
    rw [bDescentStep_swapped hd hg]
    refine ⟨h.g, fun i => ?_, h.r, fun i hi => ?_, ?_⟩
    · rw [PolyDescent.swapped, coeff_divX, coeff_sub, coeff_C_mul, h.f, h.g, h.scalar, bitCoeff_rsh1, bitCoeff_fmadd_bcast]
    · rw [PolyDescent.swapped, coeff_sub, coeff_C_mul, hxv i hi, h.r i hi, h.scalar, bitCoeff_fmadd_bcast]
    · show 1 - D.delta = -d.delta + 1
      rw [h.delta, sub_eq_neg_add]
  next hs =>
    rw [bDescentStep_kept (mt hswap.mpr hs)]
    refine ⟨h.f, fun i => ?_, hxv, fun i hi => ?_, ?_⟩
    · rw [PolyDescent.kept, coeff_divX, coeff_sub, coeff_C_mul, h.f, h.g, h.scalar, bitCoeff_rsh1, bitCoeff_fmadd_bcast]
    · rw [PolyDescent.kept, coeff_sub, coeff_C_mul, hxv i hi, h.r i hi, h.scalar, bitCoeff_fmadd_bcast]
    · show 1 + D.delta = d.delta + 1
      rw [h.delta, add_comm]

/-- The polynomial the descent on p starts from: the reversal of p. -/
noncomputable def revPoly (p : BinaryPoly) : (ZMod 2)[X] := polyOf (revCoeff (bitCoeff p))

theorem coeff_revPoly (p : BinaryPoly) (i : ℕ) : (revPoly p).coeff i = revCoeff (bitCoeff p) i := by
  rw [revPoly, coeff_polyOf]
  split
  · rfl
  · rw [revCoeff, if_neg (by omega)]

theorem follows_start (p : BinaryPoly) : Follows (bDescentStart p) (PolyDescent.start (revPoly p)) where
  f i := by rw [PolyDescent.start, bDescentStart, bitCoeff_allOnes]
  g i := by rw [PolyDescent.start, bDescentStart, coeff_revPoly, bitCoeff_rev700]
  v i _ := by rw [PolyDescent.start, bDescentStart, coeff_zero, bitCoeff_zero]
  r i _ := by rw [PolyDescent.start, bDescentStart, coeff_one, bitCoeff_one, oneCoeff]
  delta := by rw [PolyDescent.start, bDescentStart]

theorem follows_iterate (p : BinaryPoly) (n : ℕ) :
    Follows (bDescentStep^[n] (bDescentStart p)) (PolyDescent.step^[n] (PolyDescent.start (revPoly p))) := by
  induction n with
  | zero => exact follows_start p
  | succ n ih =>
    rw [Function.iterate_succ_apply', Function.iterate_succ_apply']
    exact ih.step

/-- The end of the descent on polynomials that the descent on p follows. -/
noncomputable def polyDescentEnd (p : BinaryPoly) : PolyDescent (ZMod 2) :=
  PolyDescent.step^[1399] (PolyDescent.start (revPoly p))

theorem follows_end (p : BinaryPoly) : Follows (bDescentEnd p) (polyDescentEnd p) := follows_iterate p 1399

theorem coeff_revPoly_eq_zero (p : BinaryPoly) (i : ℕ) (hi : 700 ≤ i) : (revPoly p).coeff i = 0 := by
  rw [coeff_revPoly, revCoeff, if_neg (by omega)]

/-- Every element of GF(2) but 0 is its own inverse. -/
theorem zmod2_mul_self : ∀ a : ZMod 2, a ≠ 0 → a * a = 1 := by decide

theorem keeps_end (p : BinaryPoly) : (polyDescentEnd p).Keeps (revPoly p) 1399 :=
  PolyDescent.keeps_iterate zmod2_mul_self (coeff_revPoly_eq_zero p) 1399

theorem bDescent_delta (p : BinaryPoly) : (bDescent p).2 = (polyDescentEnd p).delta := by
  rw [(follows_end p).delta, bDescent]

theorem bDescent_top (p : BinaryPoly) : (bDescent p).1.getLsbD 700 = false := by
  rw [bDescent, getLsbD_rev700]
  rfl

/-- The result's residue is that of the reversal of f[0]·v. -/
theorem residue_bDescent (p : BinaryPoly) :
    residue (bitCoeff (bDescent p).1) =
      residue (revCoeff fun i => (polyDescentEnd p).v.coeff i * (polyDescentEnd p).f.coeff 0) := by
  refine residue_congr fun i _ => ?_
  rw [bDescent, bitCoeff_rev700, revCoeff, revCoeff]
  split
  · rw [bitCoeff_and_bcast, (follows_end p).v _ (by omega), (follows_end p).f]
    rfl
  · rfl

/-- Reversing twice gives a source with coefficient 700 equal to 0 back. -/
theorem residue_revCoeff_revPoly {p : BinaryPoly} (hp : p.getLsbD 700 = false) :
    residue (revCoeff (revPoly p).coeff) = residue (bitCoeff p) := by
  refine residue_congr fun i hi => ?_
  rw [revCoeff]
  split
  · rw [coeff_revPoly, revCoeff, if_pos (by omega), Nat.sub_sub_self (by omega)]
  · obtain rfl : i = 700 := by omega
    rw [bitCoeff, hp]
    rfl

/-- A final delta of 0 comes with the inverse (R120). -/
theorem modphi2_cycMul2_bDescent {p : BinaryPoly} (hp : p.getLsbD 700 = false) (hd : (bDescent p).2 = 0) :
    modphi2 (cycMul2 (bDescent p).1 p) = 1 := by
  rw [modphi2_cycMul2_eq_one_iff, residue_bDescent, ← residue_revCoeff_revPoly hp]
  exact PolyDescent.residue_mul_residue_of_delta_zero zmod2_mul_self (coeff_revPoly_eq_zero p) (keeps_end p)
    ((bDescent_delta p).symm.trans hd)

/-- An invertible source ends with delta 0 (R120). -/
theorem bDescent_delta_eq_zero {p u : BinaryPoly} (hp : p.getLsbD 700 = false) (hu : modphi2 (cycMul2 u p) = 1) :
    (bDescent p).2 = 0 := by
  rw [modphi2_cycMul2_eq_one_iff, ← residue_revCoeff_revPoly hp] at hu
  rw [bDescent_delta]
  exact PolyDescent.delta_eq_zero_of_residue_mul (coeff_revPoly_eq_zero p) (keeps_end p) hu

/-- Two inverses of one source with coefficient 700 equal to 0 are equal. -/
theorem inverse_unique {p u w : BinaryPoly} (hu : u.getLsbD 700 = false) (hw : w.getLsbD 700 = false)
    (hup : modphi2 (cycMul2 u p) = 1) (hwp : modphi2 (cycMul2 w p) = 1) : u = w := by
  rw [modphi2_cycMul2_eq_one_iff] at hup hwp
  refine eq_of_residue_bitCoeff hu hw ?_
  exact (IsUnit.of_mul_eq_one_right _ hup).mul_right_cancel (hup.trans hwp.symm)

/-- Settles O32, by the descent on polynomials over GF(2) that the machine's descent follows. -/
theorem binaryDescentInverts : Obligations.BinaryDescentInverts := by
  intro p hp
  refine ⟨⟨fun hd => ⟨_, modphi2_cycMul2_bDescent hp hd⟩, fun ⟨u, hu⟩ => bDescent_delta_eq_zero hp hu⟩, fun hd => ?_⟩
  have hinv := modphi2_cycMul2_bDescent hp hd
  exact ⟨bDescent_top p, hinv, fun u hu hup => inverse_unique hu (bDescent_top p) hup hinv⟩

end Sys2Proof.Proofs
end

section
/-!
Which parts of the state a command writes, read off its opcode (R21, R23, R26, R29, R33, R36), said once for all
commands; from it, which commands write each register file, `MEM` and AFAIL.
-/

namespace Sys2Proof.Proofs

open Sys2Proof Sys2Proof.Machine

/-! ### Opcodes -/

/-- The opcode byte of every command is the one R75 gives it. -/
theorem opcodeOf_eq_ofTable (i : Instr) : opcodeOf i = Laws.Opcode.ofTable i := by
  cases i with
  | wli _ _ | qsample _ _ | qsamplep _ _ | qmarsh _ _ | qunmarsh _ _ _ | qmarsh3 _ _ => exact opcode_packI _ _ _ _
  | _ => exact opcode_packR _ _ _ _ _

/-- The opcodes of the commands with a scalar destination (R29). -/
def scalarWriters : List Nat := [0x10, 0x11, 0x12, 0x13, 0x14, 0x15, 0x16, 0x54, 0x64]

/-- The opcodes of the commands that store to `MEM` (R36). -/
def memWriters : List Nat := [0x17, 0x53, 0x55]

/-- The opcodes of the commands with a binary destination (R21). -/
def binaryWriters : List Nat := [0x20, 0x21, 0x22, 0x23, 0x24, 0x25, 0x26, 0x27, 0x28, 0x60]

/-- The opcodes of the commands with a ternary destination (R23). -/
def ternaryWriters : List Nat :=
  [0x30, 0x31, 0x32, 0x33, 0x34, 0x35, 0x36, 0x37, 0x38, 0x39, 0x3A, 0x3B, 0x3C, 0x3D, 0x62, 0x64]

/-- The opcodes of the commands with a mod-Q destination (R26). -/
def modQWriters : List Nat :=
  [0x40, 0x42, 0x43, 0x44, 0x45, 0x46, 0x47, 0x48, 0x50, 0x51, 0x52, 0x54, 0x61, 0x63]

/-- The opcodes of the commands with a debug assertion (R33). -/
def flagWriters : List Nat := [0x28, 0x3D, 0x46, 0x41]

/-! ### What is written, update by update -/

/-- Every part of the state is as before, or the opcode is one of those that write the part. -/
structure WritesListed (op : Nat) (s t : State) : Prop where
  scalar : t.w = s.w ∨ op ∈ scalarWriters
  mem : t.mem = s.mem ∨ op ∈ memWriters
  binary : t.b = s.b ∨ op ∈ binaryWriters
  ternary : t.t = s.t ∨ op ∈ ternaryWriters
  modQ : t.q = s.q ∨ op ∈ modQWriters
  flag : t.afail = s.afail ∨ op ∈ flagWriters

namespace WritesListed

variable {op : Nat} {s u : State}

theorem self (op : Nat) (s : State) : WritesListed op s s :=
  ⟨.inl rfl, .inl rfl, .inl rfl, .inl rfl, .inl rfl, .inl rfl⟩

/-- Fault entry writes none of the parts (R236). -/
theorem raiseFault (c : FaultCause) : WritesListed op s (s.raiseFault c) :=
  ⟨.inl rfl, .inl rfl, .inl rfl, .inl rfl, .inl rfl, .inl rfl⟩

/-- Nor does HALT, which moves STATE only (R217). -/
theorem halted : WritesListed op s { s with runState := .halted } :=
  ⟨.inl rfl, .inl rfl, .inl rfl, .inl rfl, .inl rfl, .inl rfl⟩

theorem advance (h : WritesListed op s u) : WritesListed op s u.advance :=
  ⟨h.scalar, h.mem, h.binary, h.ternary, h.modQ, h.flag⟩

theorem setW (h : WritesListed op s u) (hop : op ∈ scalarWriters) (r : Reg) (v : Word) : WritesListed op s (u.setW r v) :=
  ⟨.inr hop, h.mem, h.binary, h.ternary, h.modQ, h.flag⟩

theorem memWrite (h : WritesListed op s u) (hop : op ∈ memWriters) (a : Nat) (bytes : List Byte) :
    WritesListed op s (u.memWrite a bytes) :=
  ⟨h.scalar, .inr hop, h.binary, h.ternary, h.modQ, h.flag⟩

theorem setB (h : WritesListed op s u) (hop : op ∈ binaryWriters) (r : Reg) (v : BinaryPoly) :
    WritesListed op s (u.setB r v) :=
  ⟨h.scalar, h.mem, .inr hop, h.ternary, h.modQ, h.flag⟩

theorem setT (h : WritesListed op s u) (hop : op ∈ ternaryWriters) (r : Reg) (v : TernaryPoly) :
    WritesListed op s (u.setT r v) :=
  ⟨h.scalar, h.mem, h.binary, .inr hop, h.modQ, h.flag⟩

theorem setCoeffs (h : WritesListed op s u) (hop : op ∈ modQWriters) (r : Reg) (c : Coeffs) :
    WritesListed op s (u.setCoeffs r c) :=
  ⟨h.scalar, h.mem, h.binary, h.ternary, .inr hop, h.flag⟩

theorem noteAssertion (h : WritesListed op s u) (hop : op ∈ flagWriters) (failed : Bool) :
    WritesListed op s (u.noteAssertion failed) :=
  ⟨h.scalar, h.mem, h.binary, h.ternary, h.modQ, .inr hop⟩

end WritesListed

/-! ### The commands that can fault -/

/-- A command with one range check: it retires, or it faults. -/
theorem checked_next {p : Prop} [Decidable p] {c : FaultCause} {s u t : State}
    (h : (if p then retire u else takeFault c s) = .next t) : t = u.advance ∨ t = s.raiseFault c := by
  split at h
  · exact .inl (retire_next h)
  · exact .inr (takeFault_next h)

/-- A conditional swap: it swaps, does nothing but move on, or faults. -/
theorem swap_next {p q : Prop} [Decidable p] [Decidable q] {c : FaultCause} {s u t : State}
    (h : (if p then if q then retire u else retire s else takeFault c s) = .next t) :
    t = u.advance ∨ t = s.advance ∨ t = s.raiseFault c := by
  split at h
  · split at h
    · exact .inl (retire_next h)
    · exact .inr (.inl (retire_next h))
  · exact .inr (.inr (takeFault_next h))

/-! ### Every command -/

/-- A command writes no part of the state but those its opcode is listed for. -/
theorem exec_writesListed {i : Instr} {s t : State} (h : exec i s = .next t) :
    WritesListed (Laws.Opcode.ofTable i) s t := by
  have start := WritesListed.self (Laws.Opcode.ofTable i) s
  cases i with
  | halt => cases h; exact .halted
  | wli _ _ | wbrev _ _ | wlsb _ _ | ctsel _ _ _ _ | ctisz _ _ | cteq _ _ _ =>
    cases h
    exact (start.setW (by simp [Laws.Opcode.ofTable, scalarWriters]) _ _).advance
  | ctmemeq wd wa wb wc =>
    obtain rfl | rfl := checked_next h
    · exact (start.setW (by simp [Laws.Opcode.ofTable, scalarWriters]) _ _).advance
    · exact .raiseFault _
  | ctbsel _ _ _ _ | qmarsh _ _ | qmarsh3 _ _ =>
    obtain rfl | rfl := checked_next h
    · exact (start.memWrite (by simp [Laws.Opcode.ofTable, memWriters]) _ _).advance
    · exact .raiseFault _
  | bzero _ | blsh1 _ | brsh1 _ | bfmadd _ _ _ | bmodphi _ | brev700 _ _ | bclrtop _ | q2b _ _ =>
    cases h
    exact (start.setB (by simp [Laws.Opcode.ofTable, binaryWriters]) _ _).advance
  | bcswap _ _ _ =>
    have hop : 0x23 ∈ binaryWriters := by decide
    obtain rfl | rfl | rfl := swap_next h
    · exact ((start.setB hop _ _).setB hop _ _).advance
    · exact start.advance
    · exact .raiseFault _
  | binv _ _ =>
    cases h
    exact ((start.setB (by simp [Laws.Opcode.ofTable, binaryWriters]) _ _).noteAssertion
      (by simp [Laws.Opcode.ofTable, flagWriters]) _).advance
  | tzero _ | tlsh1 _ | trsh1 _ | tadd _ _ _ | tsub _ _ _ | tcmul _ _ _ | tneg _ | tmulc _ _ _ | tfmsub _ _ _ _
  | tmodphi _ | trev700 _ _ | tmul _ _ _ | q2t _ _ =>
    cases h
    exact (start.setT (by simp [Laws.Opcode.ofTable, ternaryWriters]) _ _).advance
  | tcswap _ _ _ =>
    have hop : 0x33 ∈ ternaryWriters := by decide
    obtain rfl | rfl | rfl := swap_next h
    · exact ((start.setT hop _ _).setT hop _ _).advance
    · exact start.advance
    · exact .raiseFault _
  | tinv _ _ =>
    cases h
    exact ((start.setT (by simp [Laws.Opcode.ofTable, ternaryWriters]) _ _).noteAssertion
      (by simp [Laws.Opcode.ofTable, flagWriters]) _).advance
  | qnorm _ | qclamp _ | qmodphi _ | qmulxm1 _ | qmul _ _ _ | qadd _ _ _ | qsub _ _ _ | qlift _ _ | b2q _ _ | t2q _ _ =>
    cases h
    exact (start.setCoeffs (by simp [Laws.Opcode.ofTable, modQWriters]) _ _).advance
  | qanorm _ =>
    cases h
    exact (start.noteAssertion (by simp [Laws.Opcode.ofTable, flagWriters]) _).advance
  | qinv _ _ =>
    cases h
    exact ((start.setCoeffs (by simp [Laws.Opcode.ofTable, modQWriters]) _ _).noteAssertion
      (by simp [Laws.Opcode.ofTable, flagWriters]) _).advance
  | qsample _ _ | qsamplep _ _ =>
    obtain rfl | rfl := checked_next h
    · exact (start.setCoeffs (by simp [Laws.Opcode.ofTable, modQWriters]) _ _).advance
    · exact .raiseFault _
  | qunmarsh _ _ _ =>
    obtain rfl | rfl := checked_next h
    · exact ((start.setCoeffs (by simp [Laws.Opcode.ofTable, modQWriters]) _ _).setW
        (by simp [Laws.Opcode.ofTable, scalarWriters]) _ _).advance
    · exact .raiseFault _
  | q2tc _ _ _ =>
    cases h
    exact ((start.setT (by simp [Laws.Opcode.ofTable, ternaryWriters]) _ _).setW
      (by simp [Laws.Opcode.ofTable, scalarWriters]) _ _).advance

/-- Settles O11: the lists of the statement are those of `WritesListed`. -/
theorem onlyTheseWrite : Obligations.OnlyTheseWrite := by
  intro i s t h
  obtain ⟨hscalar, hmem, hbinary, hternary, hmodQ, _⟩ := exec_writesListed h
  rw [opcodeOf_eq_ofTable]
  exact ⟨hscalar, hmem, hbinary, hternary, hmodQ⟩

/-! ### The assertion flag -/

/-- A command never clears AFAIL (R33, R242). -/
theorem exec_keeps_afail {i : Instr} {s t : State} (h : exec i s = .next t) (ha : s.afail = true) : t.afail = true := by
  cases ends_of_exec h with
  | halts _ ht | faults _ _ ht => exact ht ▸ ha
  | retires _ u hu ht => exact ht ▸ hu.afail ha

/-- Settles O10: resting and fault entry leave AFAIL alone, and a command that changes it is one of the four. -/
theorem assertionFlagSticky : Obligations.AssertionFlagSticky := by
  intro s t h
  rcases step_cases h with ⟨_, rfl⟩ | ⟨_, c, _, rfl⟩ | ⟨hr, i, hfetch, hexec⟩
  · exact ⟨id, fun hclear hset => by simp [hclear] at hset⟩
  · exact ⟨id, fun hclear hset => by simp [hclear] at hset⟩
  · refine ⟨exec_keeps_afail hexec, fun hclear hset => ⟨hr, i, hfetch, ?_⟩⟩
    rw [opcodeOf_eq_ofTable]
    exact (exec_writesListed hexec).flag.resolve_left (by simp [hclear, hset])

end Sys2Proof.Proofs
end

section
/-!
The invalid ternary pair: no command makes one from valid registers (R25, R135).
-/

namespace Sys2Proof.Proofs

open Sys2Proof Sys2Proof.Machine

/-! ### The operations keep the pairs valid -/

theorem tValid_zero : tValid ⟨0, 0⟩ = true := (tValid_iff _).mpr fun i _ h => by simp at h

/-- A product is valid whatever its factors are: its sign plane is masked by its absolute-value plane (R131). -/
theorem tValid_tMul (x y : TernaryPoly) : tValid (tMul x y) = true := by
  rw [tValid_iff]
  intro i _ h
  simp only [tMul, BitVec.getLsbD_and] at h ⊢
  exact (Bool.and_eq_true_iff.mp h).2

/-- The circuit of R132 on one pair of valid coefficients. -/
theorem tValid_tAdd {x y : TernaryPoly} (hx : tValid x = true) (hy : tValid y = true) : tValid (tAdd x y) = true := by
  have circuit : ∀ xs xa ys ya : Bool, (xs = true → xa = true) → (ys = true → ya = true) →
      ((xs ^^ ya) && (ys ^^ xa)) = true → ((xa ^^ ya) || ((xs ^^ ya) ^^ ys)) = true := by decide
  rw [tValid_iff] at hx hy ⊢
  intro i hi
  simp only [tAdd, BitVec.getLsbD_and, BitVec.getLsbD_or, BitVec.getLsbD_xor]
  exact circuit _ _ _ _ (hx i hi) (hy i hi)

/-- The circuit of R133 on one pair of valid coefficients. -/
theorem tValid_tSub {x y : TernaryPoly} (hx : tValid x = true) (hy : tValid y = true) : tValid (tSub x y) = true := by
  have circuit : ∀ xs xa ys ya : Bool, (xs = true → xa = true) → (ys = true → ya = true) →
      ((xs ^^ ya) && ((xa ^^ ya) ^^ ys)) = true → ((xa ^^ ya) || (xs ^^ ys)) = true := by decide
  rw [tValid_iff] at hx hy ⊢
  intro i hi
  simp only [tSub, BitVec.getLsbD_and, BitVec.getLsbD_or, BitVec.getLsbD_xor]
  exact circuit _ _ _ _ (hx i hi) (hy i hi)

theorem tValid_tNeg {x : TernaryPoly} (hx : tValid x = true) : tValid (tNeg x) = true := by
  have circuit : ∀ xs xa : Bool, (xs = true → xa = true) → (xs ^^ xa) = true → xa = true := by decide
  rw [tValid_iff] at hx ⊢
  intro i hi
  simp only [tNeg, BitVec.getLsbD_xor]
  exact circuit _ _ (hx i hi)

/-- The multiplier may be an invalid pair: the product subtracted is valid all the same (R144, R145). -/
theorem tValid_fmsub {out : TernaryPoly} (hout : tValid out = true) (x c : TernaryPoly) :
    tValid (fmsub out x c) = true :=
  tValid_tSub hout (tValid_tMul x c)

theorem tValid_lane {x : TernaryPoly} (hx : tValid x = true) {k : Nat} (hk : k < 701) : tValid (lane x k) = true := by
  rw [tValid_iff] at hx ⊢
  intro i hi h
  rw [getLsbD_lane_s x k i hi] at h
  rw [getLsbD_lane_a x k i hi]
  exact hx k hk h

theorem tValid_modphi3 {x : TernaryPoly} (hx : tValid x = true) : tValid (modphi3 x) = true :=
  tValid_tSub hx (tValid_lane hx (by decide))

/-- An operation that moves coefficients about and clears the others keeps the pairs valid. -/
theorem tValid_onPlanes {op : BinaryPoly → BinaryPoly} {keep : Nat → Bool} {source : Nat → Nat}
    (hop : ∀ v i, (op v).getLsbD i = (keep i && v.getLsbD (source i))) {x : TernaryPoly} (hx : tValid x = true) :
    tValid (onPlanes op x) = true := by
  rw [tValid_iff] at hx ⊢
  intro i _ h
  simp only [onPlanes, hop, Bool.and_eq_true] at h ⊢
  obtain ⟨hkeep, hs⟩ := h
  exact ⟨hkeep, hx _ (BitVec.lt_of_getLsbD hs) hs⟩

theorem tValid_lsh1 {x : TernaryPoly} (hx : tValid x = true) : tValid (onPlanes lsh1 x) = true :=
  tValid_onPlanes getLsbD_lsh1 hx

theorem tValid_rsh1 {x : TernaryPoly} (hx : tValid x = true) : tValid (onPlanes rsh1 x) = true :=
  tValid_onPlanes (keep := fun _ => true) (fun v i => (getLsbD_rsh1 v i).trans (Bool.true_and _).symm) hx

theorem tValid_rev700 {x : TernaryPoly} (hx : tValid x = true) : tValid (onPlanes rev700 x) = true :=
  tValid_onPlanes getLsbD_rev700 hx

theorem tValid_encodeGF3 (f : Nat → ZMod 3) : tValid (encodeGF3 f) = true := by
  rw [tValid_iff]
  intro i hi h
  rw [getLsbD_encodeGF3_s f i hi, decide_eq_true_eq] at h
  rw [getLsbD_encodeGF3_a f i hi, h]
  decide

/-- TMUL never meets its free function on valid operands (R148). -/
theorem tValid_tPolyMul {x y : TernaryPoly} (hx : tValid x = true) (hy : tValid y = true) :
    tValid (tPolyMul x y) = true := by
  rw [tPolyMul, hx, hy]
  exact tValid_encodeGF3 _

/-- The descent returns a reversed product, valid whatever its variables are at the end (R150). -/
theorem tValid_tDescent (x : TernaryPoly) : tValid (tDescent x).1 = true :=
  tValid_rev700 (tValid_tMul _ _)

theorem tValid_ternaryOfCoeffs (c : Coeffs) : tValid (ternaryOfCoeffs c) = true := by
  rw [tValid_iff]
  intro i hi h
  rw [getLsbD_ternaryOfCoeffs_s c i hi, decide_eq_true_eq] at h
  rw [getLsbD_ternaryOfCoeffs_a c i hi, h]
  decide

theorem tValid_checkedTernary (c : Coeffs) : tValid (checkedTernary c) = true := by
  rw [tValid_iff]
  intro i hi h
  rw [getLsbD_checkedTernary_s c i hi] at h
  rw [getLsbD_checkedTernary_a c i hi, h, Bool.true_or]

/-! ### The register file -/

theorem ternaryValid_of_eq {s t : State} (hs : s.TernaryValid) (ht : t.t = s.t) : t.TernaryValid := by
  intro r
  rw [ht]
  exact hs r

theorem ternaryValid_setT {s : State} (hs : s.TernaryValid) (r : Reg) {v : TernaryPoly} (hv : tValid v = true) :
    (s.setT r v).TernaryValid := by
  intro k
  rw [setT_t, file_set]
  split
  · exact hv
  · exact hs k

/-- Every command keeps the ternary registers valid: only the ternary commands, Q2T and Q2TC write one. -/
theorem exec_ternaryValid {i : Instr} {s t : State} (hs : s.TernaryValid) (h : exec i s = .next t) : t.TernaryValid := by
  rcases (exec_writesListed h).ternary with heq | hop
  · exact ternaryValid_of_eq hs heq
  cases i with
  | tzero td => cases h; exact ternaryValid_setT hs td tValid_zero
  | tlsh1 td => cases h; exact ternaryValid_setT hs td (tValid_lsh1 (hs td))
  | trsh1 td => cases h; exact ternaryValid_setT hs td (tValid_rsh1 (hs td))
  | tcswap ta tb wm =>
    obtain rfl | rfl | rfl := swap_next h
    · exact ternaryValid_setT (ternaryValid_setT hs ta (hs tb)) tb (hs ta)
    · exact hs
    · exact hs
  | tadd td ta tb => cases h; exact ternaryValid_setT hs td (tValid_tAdd (hs ta) (hs tb))
  | tsub td ta tb => cases h; exact ternaryValid_setT hs td (tValid_tSub (hs ta) (hs tb))
  | tcmul td ta tb => cases h; exact ternaryValid_setT hs td (tValid_tMul _ _)
  | tneg td => cases h; exact ternaryValid_setT hs td (tValid_tNeg (hs td))
  | tmulc td wms wma => cases h; exact ternaryValid_setT hs td (tValid_tMul _ _)
  | tfmsub td ts wms wma => cases h; exact ternaryValid_setT hs td (tValid_fmsub (hs td) _ _)
  | tmodphi td => cases h; exact ternaryValid_setT hs td (tValid_modphi3 (hs td))
  | trev700 td ts => cases h; exact ternaryValid_setT hs td (tValid_rev700 (hs ts))
  | tmul td ta tb => cases h; exact ternaryValid_setT hs td (tValid_tPolyMul (hs ta) (hs tb))
  | tinv td ts => cases h; exact ternaryValid_setT hs td (tValid_tDescent _)
  | q2t td qs => cases h; exact ternaryValid_setT hs td (tValid_ternaryOfCoeffs _)
  | q2tc td qs wk => cases h; exact ternaryValid_setT hs td (tValid_checkedTernary _)
  | _ => simp [Laws.Opcode.ofTable, ternaryWriters] at hop

/-- Settles O16: resting and fault entry leave the registers alone, and every command keeps them valid. -/
theorem ternaryStaysValid : Obligations.TernaryStaysValid := by
  intro s t hs h
  rcases step_cases h with ⟨_, rfl⟩ | ⟨_, c, _, rfl⟩ | ⟨_, i, _, hexec⟩
  · exact hs
  · exact hs
  · exact exec_ternaryValid hs hexec

end Sys2Proof.Proofs
end

section
/-!
The padding of mod-Q registers (R27): it is written 0, and no command but QANORM reads it.
-/

/-! ### Every update keeps two states the same but for padding -/

namespace Sys2Proof.Machine.SameButPadding

variable {s s' : State}

theorem setB (h : SameButPadding s s') (r : Reg) (v : BinaryPoly) : SameButPadding (s.setB r v) (s'.setB r v) :=
  { h with binary := congrArg (·.set r v) h.binary }

theorem setT (h : SameButPadding s s') (r : Reg) (v : TernaryPoly) : SameButPadding (s.setT r v) (s'.setT r v) :=
  { h with ternary := congrArg (·.set r v) h.ternary }

theorem setW (h : SameButPadding s s') (r : Reg) (v : Word) : SameButPadding (s.setW r v) (s'.setW r v) :=
  { h with
    scalar := by
      have hones : s'.ones = s.ones := congrArg (fun p : Params => onesW p.width) h.params
      rw [setW_w, setW_w, h.scalar, hones] }

theorem setCoeffs (h : SameButPadding s s') (r : Reg) {c c' : Coeffs} (hc : c' = c) :
    SameButPadding (s.setCoeffs r c) (s'.setCoeffs r c') :=
  { h with coeffs := fun k => by rw [setCoeffs_coeffs, setCoeffs_coeffs, h.coeffs k, hc] }

theorem memWrite (h : SameButPadding s s') (a : Nat) {bytes bytes' : List Byte} (hb : bytes' = bytes) :
    SameButPadding (s.memWrite a bytes) (s'.memWrite a bytes') :=
  { h with mem := by rw [memWrite_mem, memWrite_mem, h.mem, hb] }

theorem noteAssertion (h : SameButPadding s s') {failed failed' : Bool} (hf : failed' = failed) :
    SameButPadding (s.noteAssertion failed) (s'.noteAssertion failed') :=
  { h with afail := by rw [noteAssertion_afail, noteAssertion_afail, h.afail, hf] }

theorem advance (h : SameButPadding s s') : SameButPadding s.advance s'.advance :=
  { h with pc := congrArg (· + 1) h.pc }

theorem raiseFault (h : SameButPadding s s') (c : FaultCause) : SameButPadding (s.raiseFault c) (s'.raiseFault c) :=
  { h with cause := rfl, epc := h.pc, runState := rfl }

theorem halted (h : SameButPadding s s') :
    SameButPadding { s with runState := .halted } { s' with runState := .halted } :=
  { h with runState := rfl }

end Sys2Proof.Machine.SameButPadding

namespace Sys2Proof.Proofs

open Sys2Proof Sys2Proof.Machine

/-! ### Padding is written 0 -/

/-- A command leaves a mod-Q register as it was or with padding 0. -/
theorem exec_paddingZero {i : Instr} {s t : State} (h : exec i s = .next t) (r : Reg) :
    t.q[r] = s.q[r] ∨ PaddingZero t.q[r] := by
  cases ends_of_exec h with
  | halts _ ht | faults _ _ ht => exact .inl (ht ▸ rfl)
  | retires _ u hu ht =>
    rw [ht, advance_q]
    rcases hu.modQ with hq | ⟨k, c, hq⟩
    · exact .inl (hq ▸ rfl)
    · rw [hq, file_set]
      split
      · exact .inr (paddingZero_withPadding c)
      · exact .inl rfl

/-- Every step keeps the mod-Q registers normalized. -/
theorem step_normalized {s t : State} (hs : s.Normalized) (h : step s = .next t) : t.Normalized := by
  rcases step_cases h with ⟨_, rfl⟩ | ⟨_, c, _, rfl⟩ | ⟨_, i, _, hexec⟩
  · exact hs
  · exact hs
  · intro r
    rcases exec_paddingZero hexec r with hsame | hzero
    · exact hsame ▸ hs r
    · exact hzero

/-! ### Padding is ignored on reading

Two states that differ in padding only are one state with two mod-Q files of the same coefficients. Every read but QANORM's
is then the same read in both, by definition or by the coefficients, and every update keeps the relation. -/

/-- The state with another mod-Q file. -/
def withModQ (s : State) (q : Vector ModQPoly 8) : State := { s with q := q }

theorem exists_eq_withModQ {s s' : State} (h : SameButPadding s s') : ∃ q, s' = withModQ s q := by
  obtain ⟨hparams, hb, ht, _, hw, hpc, hrun, hafail, hcause, hepc, hmem, hcmd⟩ := h
  cases s'
  cases hparams; cases hb; cases ht; cases hw; cases hpc; cases hrun; cases hafail; cases hcause; cases hepc; cases hmem
  cases hcmd
  exact ⟨_, rfl⟩

/-- The two results agree but for padding, where the first is a next state. -/
def AgreeButPadding (x y : StepResult) : Prop := ∀ t, x = .next t → ∃ t', y = .next t' ∧ SameButPadding t t'

theorem agree_next {s s' : State} (h : SameButPadding s s') : AgreeButPadding (.next s) (.next s') := by
  intro t ht
  cases ht
  exact ⟨s', rfl, h⟩

theorem agree_retire {s s' : State} (h : SameButPadding s s') : AgreeButPadding (retire s) (retire s') :=
  agree_next (SameButPadding.advance h)

theorem agree_takeFault {s s' : State} (h : SameButPadding s s') (c : FaultCause) :
    AgreeButPadding (takeFault c s) (takeFault c s') :=
  agree_next (SameButPadding.raiseFault h c)

theorem agree_ite {p : Prop} [Decidable p] {x y x' y' : StepResult} (hx : AgreeButPadding x x')
    (hy : AgreeButPadding y y') : AgreeButPadding (if p then x else y) (if p then x' else y') := by
  split
  · exact hx
  · exact hy

/-- A command but QANORM does the same whatever the padding is. -/
theorem exec_agree {i : Instr} {s s' : State} (hi : opcodeOf i ≠ 0x41) (h : SameButPadding s s') :
    AgreeButPadding (exec i s) (exec i s') := by
  obtain ⟨q, rfl⟩ := exists_eq_withModQ h
  have read (r : Reg) : (withModQ s q).coeffs r = s.coeffs r := h.coeffs r
  cases i with
  | qanorm _ => exact absurd (opcodeOf_eq_ofTable _) hi
  | halt => exact agree_next h.halted
  | wli _ _ | wbrev _ _ | wlsb _ _ | ctsel _ _ _ _ | ctisz _ _ | cteq _ _ _ => exact agree_retire (h.setW _ _)
  | ctmemeq _ _ _ _ => exact agree_ite (agree_retire (h.setW _ _)) (agree_takeFault h _)
  | ctbsel _ _ _ _ => exact agree_ite (agree_retire (h.memWrite _ rfl)) (agree_takeFault h _)
  | bzero _ | blsh1 _ | brsh1 _ | bfmadd _ _ _ | bmodphi _ | brev700 _ _ | bclrtop _ => exact agree_retire (h.setB _ _)
  | bcswap _ _ _ =>
    exact agree_ite (agree_ite (agree_retire ((h.setB _ _).setB _ _)) (agree_retire h)) (agree_takeFault h _)
  | binv _ _ => exact agree_retire ((h.setB _ _).noteAssertion rfl)
  | tzero _ | tlsh1 _ | trsh1 _ | tadd _ _ _ | tsub _ _ _ | tcmul _ _ _ | tneg _ | tmulc _ _ _ | tfmsub _ _ _ _
  | tmodphi _ | trev700 _ _ | tmul _ _ _ => exact agree_retire (h.setT _ _)
  | tcswap _ _ _ =>
    exact agree_ite (agree_ite (agree_retire ((h.setT _ _).setT _ _)) (agree_retire h)) (agree_takeFault h _)
  | tinv _ _ => exact agree_retire ((h.setT _ _).noteAssertion rfl)
  | b2q _ _ | t2q _ _ => exact agree_retire (h.setCoeffs _ rfl)
  | qnorm qd => exact agree_retire (h.setCoeffs _ (read qd))
  | qclamp qd => exact agree_retire (h.setCoeffs _ (congrArg clampQ (read qd)))
  | qmodphi qd => exact agree_retire (h.setCoeffs _ (congrArg modphiQ (read qd)))
  | qmulxm1 qd => exact agree_retire (h.setCoeffs _ (congrArg mulXm1 (read qd)))
  | qlift _ qs => exact agree_retire (h.setCoeffs _ (congrArg liftQ (read qs)))
  | qmul _ qa qb => exact agree_retire (h.setCoeffs _ (congrArg₂ cycMul16 (read qa) (read qb)))
  | qadd _ qa qb => exact agree_retire (h.setCoeffs _ (congrArg₂ addQ (read qa) (read qb)))
  | qsub _ qa qb => exact agree_retire (h.setCoeffs _ (congrArg₂ subQ (read qa) (read qb)))
  | qinv _ qs =>
    exact agree_retire ((h.setCoeffs _ (congrArg (fun c => (invQ c).1) (read qs))).noteAssertion
      (congrArg (fun c => (invQ c).2 != 0) (read qs)))
  | qsample _ _ | qsamplep _ _ => exact agree_ite (agree_retire (h.setCoeffs _ rfl)) (agree_takeFault h _)
  | qmarsh qs _ =>
    exact agree_ite (agree_retire (h.memWrite _ (congrArg marshalBytes (read qs)))) (agree_takeFault h _)
  | qmarsh3 qs _ =>
    exact agree_ite (agree_retire (h.memWrite _ (congrArg marshal3Bytes (read qs)))) (agree_takeFault h _)
  | qunmarsh _ _ _ => exact agree_ite (agree_retire ((h.setCoeffs _ rfl).setW _ _)) (agree_takeFault h _)
  | q2b _ qs => simp only [exec, execQ2b, read]; exact agree_retire (h.setB _ _)
  | q2t _ qs => simp only [exec, execQ2t, read]; exact agree_retire (h.setT _ _)
  | q2tc _ qs _ => simp only [exec, execQ2tc, read]; exact agree_retire ((h.setT _ _).setW _ _)

/-- Settles O17: the two clauses are `exec_paddingZero` and `exec_agree`. -/
theorem paddingRule : Obligations.PaddingRule :=
  ⟨fun _ _ _ h r => exec_paddingZero h r, fun _ _ _ t hi hsame h => exec_agree hi hsame t h⟩

end Sys2Proof.Proofs
end

section
/-!
The moves of STATE and `pc` (R30, R81, R257): what one step does to them, and that every run ends.
-/

namespace Sys2Proof.Proofs

open Sys2Proof Sys2Proof.Machine

/-! ### One step -/

theorem step_resting {s : State} (hr : s.runState ≠ .run) : step s = .next s := by
  unfold step State.resting
  cases h : s.runState with
  | run => exact absurd h hr
  | idle | halted | faulted => rfl

theorem step_running {s : State} {i : Instr} (hr : s.runState = .run) (hfetch : s.fetch = .ok i) : step s = exec i s := by
  rw [step, hr]
  simp only [hfetch]

theorem step_fetchFault {s : State} {c : FaultCause} (hr : s.runState = .run) (hfetch : s.fetch = .error c) :
    step s = .next (s.raiseFault c) := by
  rw [step, hr]
  simp only [hfetch]
  rfl

/-- What a step in RUN leaves of STATE and `pc`, and which command or fault it was. -/
inductive RunMoves (s t : State) : Prop
  | goesOn (i : Instr) (hfetch : s.fetch = .ok i) (hi : i ≠ .halt) (hrun : t.runState = .run) (hpc : t.pc = s.pc + 1)
  | halts (hfetch : s.fetch = .ok .halt) (hrun : t.runState = .halted) (hpc : t.pc = s.pc)
  | faults (hfetch : s.fetch ≠ .ok .halt) (hrun : t.runState = .faulted) (hpc : t.pc = s.pc)

/-- A command moves the block on, halts it or faults it, and changes neither the parameters nor `CMD`. -/
theorem runMoves_of_ends {i : Instr} {s t : State} (hr : s.runState = .run) (hfetch : s.fetch = .ok i)
    (he : Ends i s t) : RunMoves s t ∧ t.params = s.params ∧ t.cmd = s.cmd := by
  cases he with
  | halts hi ht =>
    subst hi ht
    exact ⟨.halts hfetch rfl rfl, rfl, rfl⟩
  | faults c hc ht =>
    subst ht
    refine ⟨.faults (fun h => ?_) rfl rfl, rfl, rfl⟩
    obtain rfl : i = .halt := by rw [hfetch] at h; injection h
    cases hc
  | retires hi u hu ht =>
    subst ht
    exact ⟨.goesOn i hfetch hi (hu.runState.trans hr) (congrArg (· + 1) hu.pc), hu.params, hu.cmd⟩

/-- Every step in RUN answers a next state, in one of the three ways. -/
theorem step_runMoves {s : State} (hr : s.runState = .run) :
    ∃ t, step s = .next t ∧ RunMoves s t ∧ t.params = s.params ∧ t.cmd = s.cmd := by
  cases hfetch : s.fetch with
  | error c => exact ⟨_, step_fetchFault hr hfetch, .faults (by simp [hfetch]) rfl rfl, rfl, rfl⟩
  | ok i =>
    obtain ⟨t, ht, he⟩ := exec_ends i s
    exact ⟨t, (step_running hr hfetch).trans ht, runMoves_of_ends hr hfetch he⟩

/-- Settles O9, by the three ways a step in RUN ends. -/
theorem stepMoves : Obligations.StepMoves := by
  intro s
  by_cases hr : s.runState = .run
  · obtain ⟨t, ht, hmoves, hparams, hcmd⟩ := step_runMoves hr
    refine ⟨t, ht, fun hne => absurd hr hne, fun _ => ?_, fun _ => ?_, hparams, hcmd⟩
    · cases hmoves with
      | goesOn i _ _ hrun hpc => exact .inl ⟨hrun, hpc⟩
      | halts _ hrun hpc => exact .inr (.inl ⟨hrun, hpc⟩)
      | faults _ hrun hpc => exact .inr (.inr ⟨hrun, hpc⟩)
    · cases hmoves with
      | goesOn i hfetch hi hrun _ => simp [hrun, hfetch, hi]
      | halts hfetch hrun _ => simp [hrun, hfetch]
      | faults hfetch hrun _ => simp [hrun, hfetch]
  · exact ⟨s, step_resting hr, fun _ => rfl, fun h => absurd h hr, fun h => absurd h hr, rfl, rfl⟩

/-! ### Runs -/

/-- From `pc` at a distance of at most k words from the end of `CMD` the run ends within k + 1 steps. -/
theorem run_ends (k : Nat) {s : State} (h : s.Inv) (hr : s.runState = .run) (hk : s.params.cmdWords ≤ s.pc.toNat + k) :
    ∃ n t, n ≤ k + 1 ∧ Runs n s t ∧ (t.runState = .halted ∨ t.runState = .faulted) := by
  induction k generalizing s with
  | zero =>
    have hfetch : s.fetch = .error .pcRange := if_pos hk
    exact ⟨1, _, le_rfl, ⟨_, step_fetchFault hr hfetch, rfl⟩, .inr rfl⟩
  | succ k ih =>
    obtain ⟨t, ht, hmoves, hparams, _⟩ := step_runMoves hr
    cases hmoves with
    | halts _ hrun _ => exact ⟨1, t, by omega, ⟨t, ht, rfl⟩, .inl hrun⟩
    | faults _ hrun _ => exact ⟨1, t, by omega, ⟨t, ht, rfl⟩, .inr hrun⟩
    | goesOn i hfetch _ hrun hpc =>
      have hnext : t.pc.toNat = s.pc.toNat + 1 := by
        rw [hpc]
        exact toNat_pc_succ h (fetch_ok hfetch).1
      obtain ⟨n, u, hn, hruns, hend⟩ := ih (invStep s t h ht) hrun (by rw [hparams, hnext]; omega)
      exact ⟨n + 1, u, by omega, ⟨t, ht, hruns⟩, hend⟩

/-- Settles O12: `pc` is at most CMD_WORDS words from the end of `CMD`. -/
theorem runsEnd : Obligations.RunsEnd := fun s h hr => run_ends s.params.cmdWords h hr (Nat.le_add_left _ _)

end Sys2Proof.Proofs
end

section
/-!
The host (R255 to R260): its moves keep the invariant, a dutiful host keeps the registers well-formed, and what it may
write and read, and when.
-/

namespace Sys2Proof.Proofs

open Sys2Proof Sys2Proof.Machine

/-! ### The moves of a dutiful host -/

theorem ternaryValid_hostReset (s : State) : s.hostReset.TernaryValid := by
  intro r
  show tValid (Vector.replicate 8 (⟨0, 0⟩ : TernaryPoly))[r] = true
  rw [file_replicate]
  exact tValid_zero

theorem coef_replicate_zero (k : Nat) : coef (Vector.replicate 704 (0 : Coeff)) k = 0 := by
  by_cases hk : k < 704
  · rw [coef_getElem _ k hk, Vector.getElem_replicate]
  · exact coef_outside _ k (by omega)

theorem normalized_hostReset (s : State) : s.hostReset.Normalized := by
  intro r
  show PaddingZero (Vector.replicate 8 (Vector.replicate 704 (0 : Coeff)))[r]
  rw [file_replicate]
  exact ⟨coef_replicate_zero _, coef_replicate_zero _, coef_replicate_zero _⟩

/-- A move of the host keeps the ternary registers valid if it writes no invalid pair (R264). -/
theorem hostMove_ternaryValid {a : HostAction} {s t : State} (ha : a.Dutiful) (h : hostMove a s = .next t)
    (hs : s.TernaryValid) : t.TernaryValid := by
  cases hostMove_ends h with
  | resets _ ht => exact ht ▸ ternaryValid_hostReset s
  | ternary r value hw _ ht =>
    subst hw ht
    exact ternaryValid_setT hs r ha
  | starts _ _ ht | ignored _ ht | command _ _ _ _ _ ht | byte _ _ _ _ _ ht | binary _ _ _ _ ht | modQ _ _ _ _ ht
  | scalar _ _ _ _ ht =>
    exact ternaryValid_of_eq hs (ht ▸ rfl)

/-- A move of the host keeps the mod-Q registers normalized if it writes no non-zero padding (R265). -/
theorem hostMove_normalized {a : HostAction} {s t : State} (ha : a.Dutiful) (h : hostMove a s = .next t)
    (hs : s.Normalized) : t.Normalized := by
  cases hostMove_ends h with
  | resets _ ht => exact ht ▸ normalized_hostReset s
  | modQ r value hw _ ht =>
    subst hw ht
    intro k
    show PaddingZero (s.q.set r value)[k]
    rw [file_set]
    split
    · exact ha
    · exact hs k
  | starts _ _ ht | ignored _ ht | command _ _ _ _ _ ht | byte _ _ _ _ _ ht | binary _ _ _ _ ht | ternary _ _ _ _ ht
  | scalar _ _ _ _ ht =>
    subst ht
    exact hs

/-- Settles O18: the clause about steps is `step_normalized`, of which the padding rule is the heart. -/
theorem dutifulInvariants : Obligations.DutifulInvariants :=
  ⟨fun _ _ hs h => step_normalized hs h,
    fun _ _ _ ha h => ⟨hostMove_ternaryValid ha h, hostMove_normalized ha h⟩⟩

/-! ### The invariant under moves of the host -/

/-- Reset keeps the parameters and the memories and clears the rest (R38, R255). -/
theorem inv_hostReset {s : State} (h : s.Inv) : s.hostReset.Inv :=
  { inv_resetWith h.legal with
    memWf := h.memWf
    memInside := h.memInside
    cmdWf := h.cmdWf
    cmdInside := h.cmdInside }

/-- A start leaves IDLE, whose `pc` and cause are 0 (R257). -/
theorem inv_hostStart {s : State} (h : s.Inv) (hs : s.runState = .idle) : { s with runState := .run }.Inv :=
  { h with
    pcRunning := nofun
    noFault := fun _ => h.noFault (by simp [hs])
    fault := nofun }

/-- A word written inside `CMD` keeps it in canonical form and inside its size (R51). -/
theorem inv_writeCmd {s : State} (h : s.Inv) {i : Nat} (hi : i < s.params.cmdWords) (word : CommandWord) :
    { s with cmd := cellWrite s.cmd i word }.Inv :=
  { h with
    cmdWf := cellWrite_wf h.cmdWf i word
    cmdInside := fun _ hc => (mem_cellWrite hc).elim (fun e => e ▸ hi) (h.cmdInside _) }

/-- A byte written inside `MEM` keeps it in canonical form and inside its size (R50). -/
theorem inv_writeMem {s : State} (h : s.Inv) {a : Nat} (ha : a < s.params.memBytes) (value : Byte) :
    { s with mem := cellWrite s.mem a value }.Inv :=
  { h with
    memWf := cellWrite_wf h.memWf a value
    memInside := fun _ hc => (mem_cellWrite hc).elim (fun e => e ▸ ha) (h.memInside _) }

theorem inv_setW {s : State} (h : s.Inv) (r : Reg) (v : Word) : (s.setW r v).Inv :=
  { h with words := words_set_masked h.words r v }

/-- Every move of the host keeps the invariant. -/
theorem inv_hostMove {a : HostAction} {s t : State} (h : s.Inv) (hmove : hostMove a s = .next t) : t.Inv := by
  cases hostMove_ends hmove with
  | resets _ ht => exact ht ▸ inv_hostReset h
  | starts _ hs ht => exact ht ▸ inv_hostStart h hs
  | ignored _ ht => exact ht ▸ h
  | command i word _ _ hi ht => exact ht ▸ inv_writeCmd h hi word
  | byte i value _ _ hi ht => exact ht ▸ inv_writeMem h hi value
  | binary r value _ _ ht => exact ht ▸ { h with }
  | ternary r value _ _ ht => exact ht ▸ { h with }
  | modQ r value _ _ ht => exact ht ▸ { h with }
  | scalar r value _ _ ht => exact ht ▸ inv_setW h r value

/-! ### Reachable states -/

theorem reachable_inv {allowed : HostAction → Prop} {s : State} (h : Reachable allowed s) : s.Inv := by
  induction h with
  | powerUp p hp => exact inv_resetWith hp
  | step _ hstep ih => exact invStep _ _ ih hstep
  | host a _ _ hmove ih => exact inv_hostMove ih hmove

theorem reachable_wellFormed {s : State} (h : Reachable HostAction.Dutiful s) : s.TernaryValid ∧ s.Normalized := by
  induction h with
  | powerUp p _ => exact ⟨ternaryValid_hostReset (State.resetWith p), normalized_hostReset (State.resetWith p)⟩
  | step _ hstep ih =>
    obtain ⟨hvalid, hnormalized⟩ := ih
    exact ⟨ternaryStaysValid _ _ hvalid hstep, step_normalized hnormalized hstep⟩
  | host a ha _ hmove ih =>
    obtain ⟨hvalid, hnormalized⟩ := ih
    exact ⟨hostMove_ternaryValid ha hmove hvalid, hostMove_normalized ha hmove hnormalized⟩

/-- Settles O15, by induction on how the state is reached. -/
theorem invReachable : Obligations.InvReachable :=
  ⟨fun _ _ _ h hmove => inv_hostMove h hmove, fun _ h => reachable_inv h, fun _ h => reachable_wellFormed h⟩

/-! ### Reset -/

theorem status_hostReset (s : State) : s.hostReset.status = 0 := by
  show 0#5 ++ BitVec.ofBool false ++ RunState.idle.code = 0
  decide

/-- Settles O19: reset answers `hostReset`, each of whose fields is read off. -/
theorem hostReset : Obligations.HostReset := by
  intro s
  refine ⟨fun p a => ⟨rfl, rfl⟩, s.hostReset, rfl, fun r => ?_, rfl, status_hostReset s, rfl, rfl, rfl, rfl, rfl, rfl, rfl⟩
  have hw : s.hostReset.w[r] = 0 := file_replicate r 0
  have hq : s.hostReset.q[r] = Vector.replicate 704 0 := file_replicate r _
  refine ⟨file_replicate r _, file_replicate r _, hw, ?_, fun k _ => ?_⟩
  · rw [State.readW, hw]
    exact BitVec.zero_and
  · rw [hq, coef_replicate_zero]

/-! ### What the host may write, and when -/

theorem whileStopped_of_ne {s : State} (hs : s.runState ≠ .run) (t : State) : whileStopped s t = .next t := if_neg hs

theorem whileIdle_of_idle {s : State} (hs : s.runState = .idle) (t : State) : whileIdle s t = .next t := by
  rw [whileIdle, hs]

theorem whileIdle_ne_next {s : State} (hs : s.runState ≠ .idle) (t u : State) : whileIdle s t ≠ .next u :=
  fun h => hs (whileIdle_next h).1

/-- A write or a start is no move in RUN (R259, U13). -/
theorem hostMove_running {s t : State} (hs : s.runState = .run) {a : HostAction} (ha : a ≠ .reset) :
    hostMove a s ≠ .next t := by
  intro h
  cases hostMove_ends h with
  | resets hreset _ => exact ha hreset
  | ignored hne _ | command _ _ _ hne _ _ | byte _ _ _ hne _ _ => exact hne hs
  | starts _ hidle _ | binary _ _ _ hidle _ | ternary _ _ _ hidle _ | modQ _ _ _ hidle _ | scalar _ _ _ hidle _ =>
    simp [hs] at hidle

theorem hostStart_idle {s : State} (hs : s.runState = .idle) :
    hostMove .start s = .next { s with runState := .run } := by
  rw [hostMove, State.hostStart, hs]

theorem hostStart_ended {s : State} (hs : s.runState = .halted ∨ s.runState = .faulted) :
    hostMove .start s = .next s := by
  rcases hs with hs | hs <;> rw [hostMove, State.hostStart, hs]

theorem hostWriteMem_next {s : State} (hs : s.runState ≠ .run) {a : Nat} (ha : a < s.params.memBytes) (v : Byte) :
    hostMove (.writeMem a v) s = .next { s with mem := cellWrite s.mem a v } :=
  (if_pos ha).trans (whileStopped_of_ne hs _)

theorem hostWriteMem_outside {s : State} {a : Nat} (ha : s.params.memBytes ≤ a) (v : Byte) :
    hostMove (.writeMem a v) s = .fault (.noSuchAddress a) := if_neg (Nat.not_lt.mpr ha)

theorem hostWriteCmd_next {s : State} (hs : s.runState ≠ .run) {k : Nat} (hk : k < s.params.cmdWords) (c : CommandWord) :
    hostMove (.writeCmd k c) s = .next { s with cmd := cellWrite s.cmd k c } :=
  (if_pos hk).trans (whileStopped_of_ne hs _)

theorem hostWriteCmd_outside {s : State} {k : Nat} (hk : s.params.cmdWords ≤ k) (c : CommandWord) :
    hostMove (.writeCmd k c) s = .fault (.noSuchAddress k) := if_neg (Nat.not_lt.mpr hk)

theorem getD_cellLookup_cellWrite {α : Type} (m : List (Nat × α)) (a k : Nat) (x d : α) :
    (cellLookup (cellWrite m a x) k).getD d = if k = a then x else (cellLookup m k).getD d := by
  rw [cellLookup_cellWrite]
  split <;> rfl

theorem hostWriteStatus_next {s : State} (hs : s.runState ≠ .run) {v : BitVec 8} (hv : v.getLsbD 2 = false) :
    hostMove (.writeStatus v) s = .next s := by
  simp only [hostMove, hv]
  exact whileStopped_of_ne hs s

theorem hostWriteStatus_unstated (s : State) {v : BitVec 8} (hv : v.getLsbD 2 = true) :
    hostMove (.writeStatus v) s = .refused .hostStatusWriteUnstated := if_pos hv

/-! ### What the host may read, and when -/

theorem hostRead_next {α : Type} {s : State} (hs : s.runState ≠ .run) (value : α) : hostRead s value = .next value :=
  if_neg hs

theorem hostRead_running {α : Type} {s : State} (hs : s.runState = .run) (value x : α) : hostRead s value ≠ .next x := by
  rw [hostRead, if_pos hs]
  nofun

theorem hostReadMem_running {s : State} (hs : s.runState = .run) (a : Nat) (v : Byte) : hostReadMem s a ≠ .next v := by
  rw [hostReadMem]
  split
  · exact hostRead_running hs _ v
  · nofun

theorem hostReadCmd_running {s : State} (hs : s.runState = .run) (k : Nat) (c : CommandWord) :
    hostReadCmd s k ≠ .next c := by
  rw [hostReadCmd]
  split
  · exact hostRead_running hs _ c
  · nofun

/-- The fields of `STATUS` (R32). -/
theorem status_fields (s : State) :
    s.status.toNat % 4 = s.runState.code.toNat ∧ s.status.getLsbD 2 = s.afail ∧ s.status.toNat / 8 = 0 := by
  have hcode := s.runState.code.isLt
  have hflag := Bool.toNat_le s.afail
  rw [status_toNat]
  refine ⟨by omega, ?_, by omega⟩
  rw [State.status]
  cases s.runState <;> cases s.afail <;> rfl

/-- Settles O20, a case for each clause of R259 and R32. -/
theorem hostMoves : Obligations.HostMoves := by
  intro s
  refine ⟨hostStart_idle, hostStart_ended, ?memory, ?commands, ?memoryOutside, ?commandsOutside, ?registers,
    ?registersLater, ?status, ?running, ?control, ?reads, ?noReads⟩
  case memory =>
    exact fun hs a v ha => ⟨_, hostWriteMem_next hs ha v, fun k => getD_cellLookup_cellWrite _ _ _ _ _, rfl⟩
  case commands =>
    exact fun hs k c hk => ⟨_, hostWriteCmd_next hs hk c, fun j => getD_cellLookup_cellWrite _ _ _ _ _, rfl⟩
  case memoryOutside =>
    intro a v t ha
    rw [hostWriteMem_outside ha]
    nofun
  case commandsOutside =>
    intro k c t hk
    rw [hostWriteCmd_outside hk]
    nofun
  case registers =>
    intro hs r
    refine ⟨fun v => whileIdle_of_idle hs _, fun v => whileIdle_of_idle hs _, fun v => whileIdle_of_idle hs _, fun v => ?_⟩
    refine ⟨s.setW r v, whileIdle_of_idle hs _, ?_, rfl, fun j hj => ?_⟩
    · rw [setW_readW, if_pos rfl]
    · rw [setW_w, file_set_other _ _ hj]
  case registersLater =>
    intro hs r t
    have hidle : s.runState ≠ .idle := by rcases hs with hs | hs <;> simp [hs]
    exact ⟨fun v => whileIdle_ne_next hidle _ t, fun v => whileIdle_ne_next hidle _ t,
      fun v => whileIdle_ne_next hidle _ t, fun v => whileIdle_ne_next hidle _ t⟩
  case status =>
    refine fun v => ⟨fun hs hv => hostWriteStatus_next hs hv, fun hv t => ?_⟩
    rw [hostWriteStatus_unstated s hv]
    nofun
  case running => exact fun hs a ha t => hostMove_running hs ha
  case control =>
    obtain ⟨hstate, hflag, hhigh⟩ := status_fields s
    refine ⟨rfl, hstate.trans ?_, hflag, hhigh⟩
    cases s.runState <;> rfl
  case reads =>
    intro hs
    exact ⟨fun a ha => (if_pos ha).trans (hostRead_next hs _), fun k hk => (if_pos hk).trans (hostRead_next hs _),
      fun r => ⟨hostRead_next hs _, hostRead_next hs _, hostRead_next hs _, hostRead_next hs _⟩⟩
  case noReads =>
    intro hs
    exact ⟨hostReadMem_running hs, hostReadCmd_running hs, fun r =>
      ⟨hostRead_running hs _, hostRead_running hs _, hostRead_running hs _, hostRead_running hs _⟩⟩

end Sys2Proof.Proofs
end

section
/-!
The mod-Q operations on coefficients that agree modulo Q = 2^13 (R28, R160): the upper three bits never reach the lower.
-/

namespace Sys2Proof.Proofs

open Sys2Proof Sys2Proof.Machine

/-! ### One coefficient -/

/-- Two coefficients agree in their low 13 bits. -/
def SameLow (x y : Coeff) : Prop := x.setWidth 13 = y.setWidth 13

namespace SameLow

variable {x x' y y' : Coeff}

theorem refl (x : Coeff) : SameLow x x := rfl

theorem add (hx : SameLow x x') (hy : SameLow y y') : SameLow (x + y) (x' + y') := by
  rw [SameLow, BitVec.setWidth_add _ _ (by decide), BitVec.setWidth_add _ _ (by decide), hx, hy]

theorem mul (hx : SameLow x x') (hy : SameLow y y') : SameLow (x * y) (x' * y') := by
  rw [SameLow, BitVec.setWidth_mul _ _ (by decide), BitVec.setWidth_mul _ _ (by decide), hx, hy]

theorem sub (hx : SameLow x x') (hy : SameLow y y') : SameLow (x - y) (x' - y') := by
  simp only [SameLow] at hx hy ⊢
  bv_omega

theorem sum {f g : Nat → Coeff} (n : Nat) (h : ∀ i, SameLow (f i) (g i)) :
    SameLow (∑ i ∈ Finset.range n, f i) (∑ i ∈ Finset.range n, g i) :=
  Finset.sum_hom_rel (refl 0) fun i _ _ hsum => (h i).add hsum

/-- The bits below 13 are the same. -/
theorem getLsbD (h : SameLow x y) {k : Nat} (hk : k < 13) : x.getLsbD k = y.getLsbD k := by
  have hbit := congrArg (fun z => BitVec.getLsbD z k) h
  simpa [BitVec.getLsbD_setWidth, hk] using hbit

/-- The clamp of R163 sees the low 13 bits only. -/
theorem clamp_eq (h : SameLow x y) : x &&& 0x1FFF = y &&& 0x1FFF := by
  have hmask : (0x1FFF : Coeff) = (BitVec.allOnes 13).setWidth 16 := by decide
  apply bits_ext
  intro k _
  rw [hmask, BitVec.getLsbD_and, BitVec.getLsbD_and, BitVec.getLsbD_setWidth, BitVec.getLsbD_allOnes]
  by_cases hk : k < 13
  · rw [h.getLsbD hk]
  · simp [hk]

end SameLow

/-! ### Coefficient lists -/

variable {u u' v v' : Coeffs}

/-- Outside the 701 positions both lists read as 0. -/
theorem sameLow_coef (h : SameModQ u u') (i : Nat) : SameLow (coef u i) (coef u' i) := by
  by_cases hi : i < 701
  · exact h i hi
  · rw [coef_outside u i (by omega), coef_outside u' i (by omega)]
    exact .refl 0

theorem sameModQ_tabulate {f g : Nat → Coeff} (h : ∀ i, SameLow (f i) (g i)) :
    SameModQ (tabulate 701 f) (tabulate 701 g) := by
  intro i hi
  rw [coef_tabulate, coef_tabulate, if_pos hi, if_pos hi]
  exact h i

theorem sameModQ_addQ (hu : SameModQ u u') (hv : SameModQ v v') : SameModQ (addQ u v) (addQ u' v') :=
  sameModQ_tabulate fun i => (sameLow_coef hu i).add (sameLow_coef hv i)

theorem sameModQ_subQ (hu : SameModQ u u') (hv : SameModQ v v') : SameModQ (subQ u v) (subQ u' v') :=
  sameModQ_tabulate fun i => (sameLow_coef hu i).sub (sameLow_coef hv i)

theorem sameModQ_negQ (hu : SameModQ u u') : SameModQ (negQ u) (negQ u') :=
  sameModQ_tabulate fun i => (SameLow.refl 0).sub (sameLow_coef hu i)

theorem sameModQ_modphiQ (hu : SameModQ u u') : SameModQ (modphiQ u) (modphiQ u') :=
  sameModQ_tabulate fun i => (sameLow_coef hu i).sub (sameLow_coef hu 700)

theorem sameModQ_mulXm1 (hu : SameModQ u u') : SameModQ (mulXm1 u) (mulXm1 u') := by
  refine sameModQ_tabulate fun i => ?_
  split
  · exact (sameLow_coef hu 700).sub (sameLow_coef hu 0)
  · exact (sameLow_coef hu _).sub (sameLow_coef hu i)

theorem sameModQ_cycMul16 (hu : SameModQ u u') (hv : SameModQ v v') : SameModQ (cycMul16 u v) (cycMul16 u' v') :=
  sameModQ_tabulate fun _ => SameLow.sum 701 fun i => (sameLow_coef hu i).mul (sameLow_coef hv _)

theorem sameModQ_newtonStep (hu : SameModQ u u') (hv : SameModQ v v') :
    SameModQ (newtonStep u v) (newtonStep u' v') := by
  have hprod := sameModQ_cycMul16 hu hv
  refine sameModQ_cycMul16 hv (sameModQ_tabulate fun i => ?_)
  split
  · exact (sameLow_coef hprod 0).add (.refl 2)
  · exact sameLow_coef hprod i

theorem sameModQ_newtonSteps (hu : SameModQ u u') (hv : SameModQ v v') (n : Nat) :
    SameModQ (Nat.iterate (newtonStep u) n v) (Nat.iterate (newtonStep u') n v') := by
  induction n generalizing v v' with
  | zero => exact hv
  | succ n ih => exact ih (sameModQ_newtonStep hu hv)

/-- The descent of QINV starts from the coefficients modulo 2 (R169, R211), which are bits of the low 13. -/
theorem bitsOfCoeffs_eq (h : SameModQ u u') : bitsOfCoeffs u = bitsOfCoeffs u' := by
  apply bits_ext
  intro i hi
  rw [getLsbD_bitsOfCoeffs u i hi, getLsbD_bitsOfCoeffs u' i hi, (sameLow_coef h i).getLsbD (by decide)]

theorem sameModQ_invQ (h : SameModQ u u') : SameModQ (invQ u).1 (invQ u').1 := by
  simp only [invQ, bitsOfCoeffs_eq h]
  exact sameModQ_newtonSteps (sameModQ_negQ h) (fun _ _ => rfl) 4

theorem clampQ_eq (h : SameModQ u u') : clampQ u = clampQ u' := by
  apply coeffs_ext
  intro i hi
  rw [coef_clampQ u i hi, coef_clampQ u' i hi, (sameLow_coef h i).clamp_eq]

/-- Settles O47, operation by operation. -/
theorem upperBitsIrrelevant : Obligations.UpperBitsIrrelevant := fun _ _ _ _ hu hv =>
  ⟨sameModQ_addQ hu hv, sameModQ_subQ hu hv, sameModQ_cycMul16 hu hv, sameModQ_modphiQ hu, sameModQ_mulXm1 hu,
    sameModQ_negQ hu, sameModQ_newtonStep hu hv, sameModQ_invQ hu, clampQ_eq hu⟩

end Sys2Proof.Proofs
end

section
/-!
CTBSEL (R101): the bytes it stores are the select of two strings read before (R64), bit by bit under the low byte of the mask.
-/

namespace Sys2Proof.Proofs

open Sys2Proof Sys2Proof.Machine

/-! ### Strings of bytes combined -/

theorem length_zipWith_memRead (f : Byte → Byte → Byte) (s : State) (a b n : Nat) :
    (List.zipWith f (s.memRead a n) (s.memRead b n)).length = n := by
  simp

/-- Byte i of two ranges combined byte by byte. -/
theorem getD_zipWith_memRead (f : Byte → Byte → Byte) (s : State) (a b : Nat) {n i : Nat} (h : i < n) :
    (List.zipWith f (s.memRead a n) (s.memRead b n)).getD i 0 = f (s.readByte (a + i)) (s.readByte (b + i)) := by
  simp [State.memRead, List.getD_eq_getElem?_getD, h]

/-- A store of two ranges combined leaves their combination in its range, of the bytes as they were before (R64). -/
theorem readByte_memWrite_zipWith (f : Byte → Byte → Byte) (s : State) (a b : Nat) {n k : Nat} (h : k < n) :
    (s.memWrite a (List.zipWith f (s.memRead a n) (s.memRead b n))).readByte (a + k) =
      f (s.readByte (a + k)) (s.readByte (b + k)) := by
  rw [readByte_memWrite_inside _ _ _ _ (by rwa [length_zipWith_memRead]), getD_zipWith_memRead f s a b h]

/-! ### The select circuit -/

/-- A 1 in the mask takes the first value, a 0 the second (G1, log entry 15). -/
theorem getLsbD_selectBits {n : Nat} (m x y : BitVec n) (i : Nat) :
    (selectBits m x y).getLsbD i = if m.getLsbD i then x.getLsbD i else y.getLsbD i := by
  by_cases hi : i < n
  · simp only [selectBits, BitVec.getLsbD_or, BitVec.getLsbD_and, BitVec.getLsbD_not, hi, decide_true, Bool.true_and]
    cases m.getLsbD i <;> simp
  · simp [BitVec.getLsbD_of_ge _ i (Nat.le_of_not_lt hi)]

theorem getLsbD_byteMask (s : State) (r : Reg) {j : Nat} (h : j < 8) :
    (s.byteMask r).getLsbD j = (s.readW r).getLsbD j := by
  simp [State.byteMask, h]

/-! ### The command -/

/-- Fields that hold four registers, with `z` 0, decode to the command of those registers (R71, R73). -/
theorem takeR4_fieldOf (op : BitVec 8) (mk : Reg → Reg → Reg → Reg → Instr) (d a b c : Reg) :
    takeR4 { op := op, fd := fieldOf d, fa := fieldOf a, fb := fieldOf b, fc := fieldOf c, z := 0 } mk =
      .ok (mk d a b c) := by
  simp [takeR4]

theorem encoded_ctbsel (wm wa wb wc : Reg) :
    EncodedR (.ctbsel wm wa wb wc) 0x17 (fieldOf wm) (fieldOf wa) (fieldOf wb) (fieldOf wc) := by
  rw [EncodedR, decode, fieldsOf_packR]
  exact takeR4_fieldOf _ _ wm wa wb wc

/-- Settles O25: the fault by `exec_ctbsel_fault`; where both ranges pass, the state is one store of selected bytes. -/
theorem memorySelect : Obligations.MemorySelect := by
  intro s wm wa wb wc
  refine ⟨encoded_ctbsel wm wa wb wc, fun hfails => ?faults, fun ha hb => ?completes⟩
  case faults =>
    exact ⟨_, exec_ctbsel_fault s wm wa wb wc hfails, raised_raiseFault _ s⟩
  case completes =>
    refine ⟨_, exec_ctbsel_ok s wm wa wb wc ha hb, (retired_memWrite _ _ _).1, (retired_memWrite _ _ _).2,
      fun a hout => ?outside, fun k hk j hj => ?inside⟩
    case outside =>
      rw [advance_readByte]
      exact readByte_memWrite_outside _ _ _ _ (by rwa [length_zipWith_memRead])
    case inside =>
      rw [advance_readByte, readByte_memWrite_zipWith _ _ _ _ hk, getLsbD_selectBits, getLsbD_byteMask s wm hj]

end Sys2Proof.Proofs
end

section
/-!
Decoding and encoding (R71 to R76): the word of a command decodes to the command, a word that decodes is the word of its
command, and the decoder sorts the words as the rows of the opcode table do.
-/

namespace Sys2Proof.Proofs

open Sys2Proof Sys2Proof.Machine

/-! ### The fields of a word -/

/-- A word is determined by its fields (R71). -/
theorem fieldsOf_injective : Function.Injective fieldsOf := fun c d h => by
  rw [← fields_append c, h, fields_append]

/-- The word of format I with the immediate that `fb`, `fc` and `z` spell has just these fields (R72). -/
theorem fieldsOf_packI_imm (f : Fields) : fieldsOf (packI f.op f.fd f.fa f.imm) = f := by
  have hfb : f.imm.extractLsb' 12 4 = f.fb := by
    simp (disch := omega) only [Fields.imm, extract_high, Nat.reduceSub, extract_whole]
  have hfc : f.imm.extractLsb' 8 4 = f.fc := by
    simp (disch := omega) only [Fields.imm, extract_high, extract_low, Nat.reduceSub, extract_whole]
  have hz : f.imm.extractLsb' 0 8 = f.z := by
    simp (disch := omega) only [Fields.imm, extract_low, extract_whole]
  rw [fieldsOf_packI, hfb, hfc, hz]

/-- The slices of an immediate in `fb`, `fc` and `z` spell it (R72, R74). -/
theorem imm_slices (op : BitVec 8) (fd fa : BitVec 4) (imm : BitVec 16) :
    Fields.imm ⟨op, fd, fa, imm.extractLsb' 12 4, imm.extractLsb' 8 4, imm.extractLsb' 0 8⟩ = imm := by
  rw [← fieldsOf_packI, imm_packI]

/-- The fields of a masked word are the fields, masked. -/
theorem fieldsOf_and (c m : CommandWord) :
    fieldsOf (c &&& m) =
      { op := (fieldsOf c).op &&& (fieldsOf m).op, fd := (fieldsOf c).fd &&& (fieldsOf m).fd
        fa := (fieldsOf c).fa &&& (fieldsOf m).fa, fb := (fieldsOf c).fb &&& (fieldsOf m).fb
        fc := (fieldsOf c).fc &&& (fieldsOf m).fc, z := (fieldsOf c).z &&& (fieldsOf m).z } := by
  simp only [fieldsOf, BitVec.extractLsb'_and]

/-- A used register field holds a register exactly when its bit 3 is 0 (R73). -/
@[simp] theorem and_eight_eq_zero_iff (f : BitVec 4) : f &&& 8#4 = 0#4 ↔ ∃ r, regOf f = some r := by
  revert f
  decide

@[simp] theorem and_fifteen (f : BitVec 4) : f &&& 15#4 = f := by
  revert f
  decide

@[simp] theorem and_255 (z : BitVec 8) : z &&& 255#8 = z := by
  revert z
  decide

/-! ### From a command to its word and back -/

/-- A word with this opcode is decoded, whatever its other fields are, by `take`. -/
def DecodesBy (op : BitVec 8) (take : Fields → Except DecodeError Instr) : Prop :=
  ∀ fd fa fb fc z, decodeFields ⟨op, fd, fa, fb, fc, z⟩ = take ⟨op, fd, fa, fb, fc, z⟩

/-! One lemma per format: the command's own word carries its operands through the reader of the format. -/

section
variable {op : BitVec 8}

theorem encodedR1 {mk : Reg → Instr} (h : DecodesBy op (takeR1 · mk)) (d : Reg) : EncodedR (mk d) op (fieldOf d) 0 0 0 := by
  rw [EncodedR, decode, fieldsOf_packR, h]
  simp [takeR1]

theorem encodedR2 {mk : Reg → Reg → Instr} (h : DecodesBy op (takeR2 · mk)) (d a : Reg) :
    EncodedR (mk d a) op (fieldOf d) (fieldOf a) 0 0 := by
  rw [EncodedR, decode, fieldsOf_packR, h]
  simp [takeR2]

theorem encodedR3 {mk : Reg → Reg → Reg → Instr} (h : DecodesBy op (takeR3 · mk)) (d a b : Reg) :
    EncodedR (mk d a b) op (fieldOf d) (fieldOf a) (fieldOf b) 0 := by
  rw [EncodedR, decode, fieldsOf_packR, h]
  simp [takeR3]

theorem encodedR4 {mk : Reg → Reg → Reg → Reg → Instr} (h : DecodesBy op (takeR4 · mk)) (d a b c : Reg) :
    EncodedR (mk d a b c) op (fieldOf d) (fieldOf a) (fieldOf b) (fieldOf c) := by
  rw [EncodedR, decode, fieldsOf_packR, h]
  exact takeR4_fieldOf op mk d a b c

theorem encodedI1 {mk : Reg → BitVec 16 → Instr} (h : DecodesBy op (takeI1 · mk)) (d : Reg) (imm : BitVec 16) :
    EncodedI (mk d imm) op (fieldOf d) 0 imm := by
  rw [EncodedI, decode, fieldsOf_packI, h]
  simp [takeI1, imm_slices]

theorem encodedI2 {mk : Reg → Reg → BitVec 16 → Instr} (h : DecodesBy op (takeI2 · mk)) (d a : Reg) (imm : BitVec 16) :
    EncodedI (mk d a imm) op (fieldOf d) (fieldOf a) imm := by
  rw [EncodedI, decode, fieldsOf_packI, h]
  simp [takeI2, imm_slices]

end

/-- Settles O1, format by format: the opcode of the word leads to the reader of the command's own format. -/
theorem decodeEncode : Obligations.DecodeEncode := by
  intro i
  cases i with
  | halt => rfl
  | bzero d | blsh1 d | brsh1 d | bmodphi d | bclrtop d | tzero d | tlsh1 d | trsh1 d | tneg d | tmodphi d | qnorm d
  | qanorm d | qclamp d | qmodphi d | qmulxm1 d => exact encodedR1 (fun _ _ _ _ _ => rfl) d
  | wbrev d a | wlsb d a | ctisz d a | brev700 d a | binv d a | trev700 d a | tinv d a | qinv d a | qlift d a | q2b d a
  | b2q d a | q2t d a | t2q d a => exact encodedR2 (fun _ _ _ _ _ => rfl) d a
  | cteq d a b | bcswap d a b | bfmadd d a b | tcswap d a b | tadd d a b | tsub d a b | tcmul d a b | tmulc d a b
  | tmul d a b | qmul d a b | qadd d a b | qsub d a b | q2tc d a b => exact encodedR3 (fun _ _ _ _ _ => rfl) d a b
  | ctsel d a b c | ctmemeq d a b c | ctbsel d a b c | tfmsub d a b c => exact encodedR4 (fun _ _ _ _ _ => rfl) d a b c
  | wli d imm | qsample d imm | qsamplep d imm | qmarsh d imm | qmarsh3 d imm =>
    exact encodedI1 (fun _ _ _ _ _ => rfl) d imm
  | qunmarsh d a imm => exact encodedI2 (fun _ _ _ _ _ => rfl) d a imm

/-- Settles O4: each word of R79 is the word of the command it names; 0xFF is no row of the opcode map. -/
theorem specWordsDecode : Obligations.SpecWordsDecode :=
  ⟨decodeEncode .halt, decodeEncode (.wli 3 0xFFFF), decodeEncode (.ctsel 0 1 2 3), decodeEncode (.bcswap 1 2 7),
    decodeEncode (.tfmsub 4 5 1 2), decodeEncode (.qmul 2 0 1), decodeEncode (.qsample 0 0x0100),
    decodeEncode (.qunmarsh 3 5 700), decodeEncode (.q2tc 1 2 6), rfl⟩

/-! ### The rows of the opcode table -/

/-- The fields below the opcode are 0 wherever the mask has a 1. -/
def Clear (f m : Fields) : Prop :=
  f.fd &&& m.fd = 0 ∧ f.fa &&& m.fa = 0 ∧ f.fb &&& m.fb = 0 ∧ f.fc &&& m.fc = 0 ∧ f.z &&& m.z = 0

/-- Decoding fields under a row with the mask m: a command whose word has these fields, or a refusal of the fields. -/
inductive RowOutcome (f m : Fields) : Except DecodeError Instr → Prop
  | decoded (i : Instr) (hclear : Clear f m) (hword : fieldsOf (encode i) = f) : RowOutcome f m (.ok i)
  | refused (hclear : ¬ Clear f m) : RowOutcome f m (.error .illegalField)

theorem rowOutcome_ite {f m : Fields} {p : Prop} [Decidable p] {i : Instr} (hclear : Clear f m ↔ p)
    (hword : p → fieldsOf (encode i) = f) : RowOutcome f m (if p then .ok i else .error .illegalField) := by
  split
  · next hp => exact .decoded i (hclear.mpr hp) (hword hp)
  · next hp => exact .refused (mt hclear.mp hp)

/-- The decoder treats the words with the row's opcode as the row says. -/
def RowDecodes (r : OpcodeRow) : Prop :=
  ∀ f : Fields, f.op = (fieldsOf r.value).op → RowOutcome f (fieldsOf r.mask) (decodeFields f)

/-! One lemma per format, for the mask the format has. That the decoder reads the row's opcode by this format, and that the
encoder writes it so, are two facts about the row which hold by unfolding either function at the opcode. -/

section
variable {name : String} {value : CommandWord}

/-- A row whose command has no operand. -/
theorem rowDecodes_R0 (i : Instr)
    (h : DecodesBy (fieldsOf value).op (takeR0 · i) := by exact fun _ _ _ _ _ => rfl)
    (henc : encode i = packR (fieldsOf value).op 0 0 0 0 := by intros; rfl) : RowDecodes ⟨name, value, 0xFFFFFFFF⟩ := by
  rintro ⟨op, fd, fa, fb, fc, z⟩ hop
  have hmask : fieldsOf 0xFFFFFFFF = ⟨0xFF, 0xF, 0xF, 0xF, 0xF, 0xFF⟩ := rfl
  rw [← hop] at h henc
  rw [h, hmask]
  refine rowOutcome_ite (by simp [Clear]) ?_
  rintro ⟨rfl, rfl, rfl, rfl, rfl⟩
  rw [henc, fieldsOf_packR]

/-- A row with the operand `fd`. -/
theorem rowDecodes_R1 (mk : Reg → Instr)
    (h : DecodesBy (fieldsOf value).op (takeR1 · mk) := by exact fun _ _ _ _ _ => rfl)
    (henc : ∀ d, encode (mk d) = packR (fieldsOf value).op (fieldOf d) 0 0 0 := by intros; rfl) :
    RowDecodes ⟨name, value, 0xFF8FFFFF⟩ := by
  rintro ⟨op, fd, fa, fb, fc, z⟩ hop
  have hmask : fieldsOf 0xFF8FFFFF = ⟨0xFF, 8, 0xF, 0xF, 0xF, 0xFF⟩ := rfl
  rw [← hop] at h henc
  rw [h, hmask]
  dsimp only [takeR1]
  split
  · next d hd =>
    refine rowOutcome_ite (by simp [Clear, hd]) ?_
    rintro ⟨rfl, rfl, rfl, rfl⟩
    rw [henc, fieldsOf_packR, fieldOf_of_regOf hd]
  · next hno => exact .refused (by simp [Clear, hno])

/-- A row with the operands `fd fa`. -/
theorem rowDecodes_R2 (mk : Reg → Reg → Instr)
    (h : DecodesBy (fieldsOf value).op (takeR2 · mk) := by exact fun _ _ _ _ _ => rfl)
    (henc : ∀ d a, encode (mk d a) = packR (fieldsOf value).op (fieldOf d) (fieldOf a) 0 0 := by intros; rfl) :
    RowDecodes ⟨name, value, 0xFF88FFFF⟩ := by
  rintro ⟨op, fd, fa, fb, fc, z⟩ hop
  have hmask : fieldsOf 0xFF88FFFF = ⟨0xFF, 8, 8, 0xF, 0xF, 0xFF⟩ := rfl
  rw [← hop] at h henc
  rw [h, hmask]
  dsimp only [takeR2]
  split
  · next d a hd ha =>
    refine rowOutcome_ite (by simp [Clear, hd, ha]) ?_
    rintro ⟨rfl, rfl, rfl⟩
    rw [henc, fieldsOf_packR, fieldOf_of_regOf hd, fieldOf_of_regOf ha]
  · next hno =>
    refine .refused ?_
    simp only [Clear, BitVec.ofNat_eq_ofNat, and_eight_eq_zero_iff]
    rintro ⟨⟨d, hd⟩, ⟨a, ha⟩, -⟩
    exact hno d a hd ha

/-- A row with the operands `fd fa fb`. -/
theorem rowDecodes_R3 (mk : Reg → Reg → Reg → Instr)
    (h : DecodesBy (fieldsOf value).op (takeR3 · mk) := by exact fun _ _ _ _ _ => rfl)
    (henc : ∀ d a b, encode (mk d a b) = packR (fieldsOf value).op (fieldOf d) (fieldOf a) (fieldOf b) 0 := by intros; rfl) :
    RowDecodes ⟨name, value, 0xFF888FFF⟩ := by
  rintro ⟨op, fd, fa, fb, fc, z⟩ hop
  have hmask : fieldsOf 0xFF888FFF = ⟨0xFF, 8, 8, 8, 0xF, 0xFF⟩ := rfl
  rw [← hop] at h henc
  rw [h, hmask]
  dsimp only [takeR3]
  split
  · next d a b hd ha hb =>
    refine rowOutcome_ite (by simp [Clear, hd, ha, hb]) ?_
    rintro ⟨rfl, rfl⟩
    rw [henc, fieldsOf_packR, fieldOf_of_regOf hd, fieldOf_of_regOf ha, fieldOf_of_regOf hb]
  · next hno =>
    refine .refused ?_
    simp only [Clear, BitVec.ofNat_eq_ofNat, and_eight_eq_zero_iff]
    rintro ⟨⟨d, hd⟩, ⟨a, ha⟩, ⟨b, hb⟩, -⟩
    exact hno d a b hd ha hb

/-- A row with all four operands. -/
theorem rowDecodes_R4 (mk : Reg → Reg → Reg → Reg → Instr)
    (h : DecodesBy (fieldsOf value).op (takeR4 · mk) := by exact fun _ _ _ _ _ => rfl)
    (henc : ∀ d a b c, encode (mk d a b c) = packR (fieldsOf value).op (fieldOf d) (fieldOf a) (fieldOf b) (fieldOf c) := by
      intros; rfl) :
    RowDecodes ⟨name, value, 0xFF8888FF⟩ := by
  rintro ⟨op, fd, fa, fb, fc, z⟩ hop
  have hmask : fieldsOf 0xFF8888FF = ⟨0xFF, 8, 8, 8, 8, 0xFF⟩ := rfl
  rw [← hop] at h henc
  rw [h, hmask]
  dsimp only [takeR4]
  split
  · next d a b c hd ha hb hc =>
    refine rowOutcome_ite (by simp [Clear, hd, ha, hb, hc]) ?_
    rintro rfl
    rw [henc, fieldsOf_packR, fieldOf_of_regOf hd, fieldOf_of_regOf ha, fieldOf_of_regOf hb, fieldOf_of_regOf hc]
  · next hno =>
    refine .refused ?_
    simp only [Clear, BitVec.ofNat_eq_ofNat, and_eight_eq_zero_iff]
    rintro ⟨⟨d, hd⟩, ⟨a, ha⟩, ⟨b, hb⟩, ⟨c, hc⟩, -⟩
    exact hno d a b c hd ha hb hc

/-- A row with the operand `fd` and an immediate: the mask leaves `fb`, `fc` and `z` free. -/
theorem rowDecodes_I1 (mk : Reg → BitVec 16 → Instr)
    (h : DecodesBy (fieldsOf value).op (takeI1 · mk) := by exact fun _ _ _ _ _ => rfl)
    (henc : ∀ d imm, encode (mk d imm) = packI (fieldsOf value).op (fieldOf d) 0 imm := by intros; rfl) :
    RowDecodes ⟨name, value, 0xFF8F0000⟩ := by
  rintro ⟨op, fd, fa, fb, fc, z⟩ hop
  have hmask : fieldsOf 0xFF8F0000 = ⟨0xFF, 8, 0xF, 0, 0, 0⟩ := rfl
  rw [← hop] at h henc
  rw [h, hmask]
  dsimp only [takeI1]
  split
  · next d hd =>
    refine rowOutcome_ite (by simp [Clear, hd]) ?_
    rintro rfl
    rw [henc, fieldOf_of_regOf hd]
    exact fieldsOf_packI_imm ⟨op, fd, 0, fb, fc, z⟩
  · next hno => exact .refused (by simp [Clear, hno])

/-- A row with the operands `fd fa` and an immediate. -/
theorem rowDecodes_I2 (mk : Reg → Reg → BitVec 16 → Instr)
    (h : DecodesBy (fieldsOf value).op (takeI2 · mk) := by exact fun _ _ _ _ _ => rfl)
    (henc : ∀ d a imm, encode (mk d a imm) = packI (fieldsOf value).op (fieldOf d) (fieldOf a) imm := by intros; rfl) :
    RowDecodes ⟨name, value, 0xFF880000⟩ := by
  rintro ⟨op, fd, fa, fb, fc, z⟩ hop
  have hmask : fieldsOf 0xFF880000 = ⟨0xFF, 8, 8, 0, 0, 0⟩ := rfl
  rw [← hop] at h henc
  rw [h, hmask]
  dsimp only [takeI2]
  split
  · next d a hd ha =>
    refine .decoded _ (by simp [Clear, hd, ha]) ?_
    rw [henc, fieldOf_of_regOf hd, fieldOf_of_regOf ha]
    exact fieldsOf_packI_imm ⟨op, fd, fa, fb, fc, z⟩
  · next hno =>
    refine .refused ?_
    simp only [Clear, BitVec.ofNat_eq_ofNat, and_eight_eq_zero_iff]
    rintro ⟨⟨d, hd⟩, ⟨a, ha⟩, -⟩
    exact hno d a hd ha

end

/-! ### Every row -/

theorem rowDecodes_scalar : ∀ r ∈ opcodeRowsScalar, RowDecodes r := by
  simp only [opcodeRowsScalar, List.forall_mem_cons, List.not_mem_nil, false_imp_iff, implies_true, and_true]
  exact ⟨rowDecodes_R0 .halt, rowDecodes_I1 .wli, rowDecodes_R2 .wbrev, rowDecodes_R2 .wlsb, rowDecodes_R4 .ctsel,
    rowDecodes_R2 .ctisz, rowDecodes_R3 .cteq, rowDecodes_R4 .ctmemeq, rowDecodes_R4 .ctbsel⟩

theorem rowDecodes_binary : ∀ r ∈ opcodeRowsBinary, RowDecodes r := by
  simp only [opcodeRowsBinary, List.forall_mem_cons, List.not_mem_nil, false_imp_iff, implies_true, and_true]
  exact ⟨rowDecodes_R1 .bzero, rowDecodes_R1 .blsh1, rowDecodes_R1 .brsh1, rowDecodes_R3 .bcswap,
    rowDecodes_R3 .bfmadd, rowDecodes_R1 .bmodphi, rowDecodes_R2 .brev700, rowDecodes_R1 .bclrtop,
    rowDecodes_R2 .binv⟩

theorem rowDecodes_ternary : ∀ r ∈ opcodeRowsTernary, RowDecodes r := by
  simp only [opcodeRowsTernary, List.forall_mem_cons, List.not_mem_nil, false_imp_iff, implies_true, and_true]
  exact ⟨rowDecodes_R1 .tzero, rowDecodes_R1 .tlsh1, rowDecodes_R1 .trsh1, rowDecodes_R3 .tcswap,
    rowDecodes_R3 .tadd, rowDecodes_R3 .tsub, rowDecodes_R3 .tcmul, rowDecodes_R1 .tneg, rowDecodes_R3 .tmulc,
    rowDecodes_R4 .tfmsub, rowDecodes_R1 .tmodphi, rowDecodes_R2 .trev700, rowDecodes_R3 .tmul, rowDecodes_R2 .tinv⟩

theorem rowDecodes_modQ : ∀ r ∈ opcodeRowsModQ, RowDecodes r := by
  simp only [opcodeRowsModQ, List.forall_mem_cons, List.not_mem_nil, false_imp_iff, implies_true, and_true]
  exact ⟨rowDecodes_R1 .qnorm, rowDecodes_R1 .qanorm, rowDecodes_R1 .qclamp, rowDecodes_R1 .qmodphi,
    rowDecodes_R1 .qmulxm1, rowDecodes_R3 .qmul, rowDecodes_R2 .qinv, rowDecodes_R3 .qadd, rowDecodes_R3 .qsub⟩

theorem rowDecodes_modQIO : ∀ r ∈ opcodeRowsModQIO, RowDecodes r := by
  simp only [opcodeRowsModQIO, List.forall_mem_cons, List.not_mem_nil, false_imp_iff, implies_true, and_true]
  exact ⟨rowDecodes_I1 .qsample, rowDecodes_I1 .qsamplep, rowDecodes_R2 .qlift, rowDecodes_I1 .qmarsh,
    rowDecodes_I2 .qunmarsh, rowDecodes_I1 .qmarsh3⟩

theorem rowDecodes_convert : ∀ r ∈ opcodeRowsConvert, RowDecodes r := by
  simp only [opcodeRowsConvert, List.forall_mem_cons, List.not_mem_nil, false_imp_iff, implies_true, and_true]
  exact ⟨rowDecodes_R2 .q2b, rowDecodes_R2 .b2q, rowDecodes_R2 .q2t, rowDecodes_R2 .t2q, rowDecodes_R3 .q2tc⟩

theorem rowDecodes_of_mem {r : OpcodeRow} (hr : r ∈ opcodeRows) : RowDecodes r := by
  simp only [opcodeRows, List.mem_append] at hr
  obtain (((((hr | hr) | hr) | hr) | hr) | hr) := hr
  · exact rowDecodes_scalar r hr
  · exact rowDecodes_binary r hr
  · exact rowDecodes_ternary r hr
  · exact rowDecodes_modQ r hr
  · exact rowDecodes_modQIO r hr
  · exact rowDecodes_convert r hr

/-- The two shapes the table is written in: a row's value is its opcode alone, and its mask keeps the whole opcode. -/
theorem row_value_mask {r : OpcodeRow} (hr : r ∈ opcodeRows) :
    fieldsOf r.value = ⟨(fieldsOf r.value).op, 0, 0, 0, 0, 0⟩ ∧ (fieldsOf r.mask).op = BitVec.allOnes 8 := by
  revert r
  decide

/-- A row admits the words with its opcode that are clear of its mask. -/
theorem admits_iff {r : OpcodeRow} (hr : r ∈ opcodeRows) (c : CommandWord) :
    r.admits c = true ↔ (fieldsOf c).op = (fieldsOf r.value).op ∧ Clear (fieldsOf c) (fieldsOf r.mask) := by
  obtain ⟨hvalue, hmask⟩ := row_value_mask hr
  rw [OpcodeRow.admits, beq_iff_eq, ← fieldsOf_injective.eq_iff, hvalue, fieldsOf_and, hmask, BitVec.and_allOnes,
    Fields.mk.injEq, Clear]

/-- The opcode byte as a number. -/
theorem fieldsOf_op_toNat (c : CommandWord) : (fieldsOf c).op.toNat = c.toNat / 2 ^ 24 := by
  have := c.isLt
  simp only [fieldsOf, BitVec.extractLsb'_toNat, Nat.shiftRight_eq_div_pow]
  omega

theorem shift_eq_iff (c d : CommandWord) : c >>> 24 = d >>> 24 ↔ (fieldsOf c).op = (fieldsOf d).op := by
  rw [BitVec.toNat_eq, BitVec.toNat_eq, fieldsOf_op_toNat, fieldsOf_op_toNat, BitVec.toNat_ushiftRight,
    BitVec.toNat_ushiftRight, Nat.shiftRight_eq_div_pow, Nat.shiftRight_eq_div_pow]

theorem definedOpcode_iff (c : CommandWord) :
    definedOpcode c = true ↔ ∃ r ∈ opcodeRows, (fieldsOf c).op = (fieldsOf r.value).op := by
  simp only [definedOpcode, List.any_eq_true, beq_iff_eq, shift_eq_iff]

theorem wellFormedWord_iff (c : CommandWord) :
    wellFormedWord c = true ↔
      ∃ r ∈ opcodeRows, (fieldsOf c).op = (fieldsOf r.value).op ∧ Clear (fieldsOf c) (fieldsOf r.mask) := by
  rw [wellFormedWord, List.any_eq_true]
  exact exists_congr fun r => and_congr_right fun hr => admits_iff hr c

/-! ### Every word -/

/-- The opcode bytes of the rows. -/
def opcodeBytes : List Nat := opcodeRows.map fun r => (fieldsOf r.value).op.toNat

/-- The rows have the opcodes of the six ranges R76 leaves, and HALT's. -/
theorem opcodeBytes_eq : opcodeBytes =
    [0x00] ++ List.range' 0x10 8 ++ List.range' 0x20 9 ++ List.range' 0x30 14 ++ List.range' 0x40 9 ++
      List.range' 0x50 6 ++ List.range' 0x60 5 := by decide

theorem mem_opcodeBytes_iff (f : Fields) : f.op.toNat ∈ opcodeBytes ↔ ∃ r ∈ opcodeRows, f.op = (fieldsOf r.value).op := by
  rw [opcodeBytes, List.mem_map]
  exact exists_congr fun r => and_congr_right fun _ => by rw [BitVec.toNat_eq, eq_comm]

theorem definedOpcode_iff_mem (c : CommandWord) : definedOpcode c = true ↔ c.toNat / 2 ^ 24 ∈ opcodeBytes := by
  rw [definedOpcode_iff, ← mem_opcodeBytes_iff, fieldsOf_op_toNat]

/-- The decoder refuses an opcode no row has: every opcode it reads is in the table (R76). -/
theorem decodeFields_undefined {f : Fields} (h : f.op.toNat ∉ opcodeBytes) : decodeFields f = .error .illegalOpcode := by
  unfold decodeFields
  split
  case h_53 => rfl -- the branch of the opcodes that are not listed
  all_goals
    rename_i hop
    rw [hop] at h
    exact absurd (by decide) h

/-- What decoding a word gives: the outcome of a row with its opcode, or, as there is no such row, the first refusal. -/
theorem decode_cases (c : CommandWord) :
    (∃ r ∈ opcodeRows, (fieldsOf c).op = (fieldsOf r.value).op ∧ RowOutcome (fieldsOf c) (fieldsOf r.mask) (decode c)) ∨
    ((∀ r ∈ opcodeRows, (fieldsOf c).op ≠ (fieldsOf r.value).op) ∧ decode c = .error .illegalOpcode) := by
  by_cases h : (fieldsOf c).op.toNat ∈ opcodeBytes
  · obtain ⟨r, hr, hop⟩ := (mem_opcodeBytes_iff _).mp h
    exact .inl ⟨r, hr, hop, rowDecodes_of_mem hr _ hop⟩
  · exact .inr ⟨fun r hr hop => h ((mem_opcodeBytes_iff _).mpr ⟨r, hr, hop⟩), decodeFields_undefined h⟩

/-- Settles O2: the row's outcome for the word says that the command's word has the same fields. -/
theorem encodeDecode : Obligations.EncodeDecode := by
  intro c i h
  obtain ⟨r, _, _, hout⟩ | ⟨_, hrefused⟩ := decode_cases c
  · rw [h] at hout
    cases hout with
    | decoded _ _ hword => exact fieldsOf_injective hword
  · rw [h] at hrefused
    cases hrefused

/-! ### The three outcomes of decoding (R76) -/

theorem decode_illegalOpcode_iff (c : CommandWord) : decode c = .error .illegalOpcode ↔ definedOpcode c = false := by
  rw [← Bool.not_eq_true, definedOpcode_iff]
  obtain ⟨r, hr, hop, hout⟩ | ⟨hnone, hrefused⟩ := decode_cases c
  · refine ⟨fun h => ?_, fun h => absurd ⟨r, hr, hop⟩ h⟩
    rw [h] at hout
    cases hout
  · exact ⟨fun _ ⟨r, hr, hop⟩ => hnone r hr hop, fun _ => hrefused⟩

theorem decode_ok_iff (c : CommandWord) : (∃ i, decode c = .ok i) ↔ wellFormedWord c = true := by
  rw [wellFormedWord_iff]
  constructor
  · rintro ⟨i, h⟩
    obtain ⟨r, hr, hop, hout⟩ | ⟨_, hrefused⟩ := decode_cases c
    · rw [h] at hout
      cases hout with
      | decoded _ hclear _ => exact ⟨r, hr, hop, hclear⟩
    · rw [h] at hrefused
      cases hrefused
  · rintro ⟨r, hr, hop, hclear⟩
    have hout : RowOutcome _ _ (decode c) := rowDecodes_of_mem hr _ hop
    cases h : decode c with
    | ok i => exact ⟨i, rfl⟩
    | error e =>
      rw [h] at hout
      cases hout with
      | refused hnot => exact absurd hclear hnot

/-- Settles O3: the first refusal and the success by the rows; the second refusal is what is left. -/
theorem decodeClassifies : Obligations.DecodeClassifies := by
  intro c
  have hopcode := decode_illegalOpcode_iff c
  have hok := decode_ok_iff c
  refine ⟨hopcode, ?_, hok, opcodeBytes_eq ▸ definedOpcode_iff_mem c⟩
  rw [← Bool.not_eq_false, ← hopcode, ← Bool.not_eq_true, ← hok]
  cases decode c with
  | ok i => simp
  | error e => cases e <;> simp

/-! ### The step -/

theorem fetch_of_decode {s : State} {i : Instr} (hpc : s.pc.toNat < s.params.cmdWords)
    (hdec : decode (s.readCmd s.pc.toNat) = .ok i) : s.fetch = .ok i := by
  rw [State.fetch, if_neg (Nat.not_le.mpr hpc), hdec]

/-- Settles O5: the fetch answers the command decoded at `pc`, and a step in RUN runs what the fetch answers. -/
theorem stepRunsCommand : Obligations.StepRunsCommand := fun _ _ hr hpc hdec =>
  step_running hr (fetch_of_decode hpc hdec)

/-- Settles O21: the step after HALT rests, as STATE is no longer RUN. -/
theorem halt : Obligations.Halt := fun _ =>
  ⟨rfl, decodeEncode .halt, _, rfl, rfl, rfl, step_resting nofun⟩

end Sys2Proof.Proofs
end

section
/-!
The scalar commands of spec/41_word_ct.md that write a word: WLI, WBREV, WLSB, CTSEL, CTISZ, CTEQ and CTMEMEQ (R94 to R100).
Each ends in one write of its destination, so its statement is that write's frame and a fact about the word written.
-/

namespace Sys2Proof.Proofs

open Sys2Proof Sys2Proof.Machine

/-! ### The words written -/

/-- Below W a value keeps its bits when it is written. -/
theorem getLsbD_and_ones (s : State) (v : Word) {k : Nat} (hk : k < s.params.width.bits) :
    (v &&& s.ones).getLsbD k = v.getLsbD k := by
  rw [State.ones, BitVec.getLsbD_and, getLsbD_onesW, decide_eq_true hk, Bool.and_true]

theorem width_bits_le (width : WordWidth) : width.bits ≤ 64 := by cases width <;> decide

/-- Sign extension (R74): bit 15 of the immediate is every bit from 15 up. -/
theorem getLsbD_signedImm (imm : BitVec 16) {k : Nat} (hk : k < 64) :
    (signedImm imm).getLsbD k = imm.getLsbD (min k 15) := by
  rw [signedImm, BitVec.getLsbD_signExtend, decide_eq_true hk, Bool.true_and]
  split
  · next hlow => rw [Nat.min_eq_left (by omega)]
  · next hhigh => rw [Nat.min_eq_right (by omega), BitVec.msb_eq_getLsbD_last]

/-- A mask holds its condition in each of its W bits (R31). -/
theorem getLsbD_maskOf (s : State) (cond : Bool) {k : Nat} (hk : k < s.params.width.bits) :
    (s.maskOf cond).getLsbD k = cond := by
  cases cond
  · exact BitVec.getLsbD_zero
  · exact (getLsbD_onesW _ k).trans (decide_eq_true hk)

/-- The mask of a computed condition, by what the condition says. -/
theorem maskOf_eq_ite (s : State) {cond : Bool} {p : Prop} [Decidable p] (h : cond = true ↔ p) :
    s.maskOf cond = if p then s.ones else 0 :=
  if_congr h rfl rfl

/-! ### A command that writes one scalar register -/

/-- The destination of a scalar write holds the W bits of the value. -/
theorem readW_advance_setW (s : State) (r : Reg) (v : Word) : (s.setW r v).advance.readW r = v &&& s.ones :=
  (setW_readW s r r v).trans (if_pos rfl)

/-- A command that ends in a scalar write writes nothing else, and the word read back is known bit by bit. -/
theorem completes_bits {i : Instr} {s : State} {wd : Reg} {v : Word} {f : Nat → Bool}
    (hexec : exec i s = .next (s.setW wd v).advance) (hbits : ∀ k < s.params.width.bits, v.getLsbD k = f k) :
    ∃ t, exec i s = .next t ∧ RetiredQuietly s t [] [] [] [wd] ∧
      ∀ k < s.params.width.bits, (t.readW wd).getLsbD k = f k := by
  refine ⟨_, hexec, retiredQuietly_setW s wd v, fun k hk => ?_⟩
  rw [readW_advance_setW, getLsbD_and_ones s v hk, hbits k hk]

/-- Where the value is the mask of a condition, the word read back is known whole. -/
theorem completes_mask {i : Instr} {s : State} {wd : Reg} {cond : Bool} {p : Prop} [Decidable p]
    (hexec : exec i s = .next (s.setW wd (s.maskOf cond)).advance) (hcond : cond = true ↔ p) :
    ∃ t, exec i s = .next t ∧ RetiredQuietly s t [] [] [] [wd] ∧ t.readW wd = if p then s.ones else 0 := by
  refine ⟨_, hexec, retiredQuietly_setW s wd _, ?_⟩
  rw [readW_advance_setW, maskOf_and_ones, maskOf_eq_ite s hcond]

/-- Settles O22: the three words by `getLsbD_signedImm`, `getLsbD_wordReverse` and `getLsbD_maskOf`. -/
theorem wordUtilities : Obligations.WordUtilities := fun s wd wa imm =>
  ⟨⟨decodeEncode (.wli wd imm),
      completes_bits rfl fun _ hk => getLsbD_signedImm imm (Nat.lt_of_lt_of_le hk (width_bits_le _))⟩,
    ⟨decodeEncode (.wbrev wd wa), completes_bits rfl fun k hk => getLsbD_wordReverse _ (s.readW wa) k hk⟩,
    ⟨decodeEncode (.wlsb wd wa), completes_bits rfl fun _ hk => getLsbD_maskOf s _ hk⟩⟩

/-- Settles O23: the select circuit bit by bit, and two masks of an equality. -/
theorem selectAndCompare : Obligations.SelectAndCompare := fun s wd wm wa wb =>
  ⟨⟨decodeEncode (.ctsel wd wm wa wb),
      completes_bits rfl fun k _ => getLsbD_selectBits (s.readW wm) (s.readW wa) (s.readW wb) k⟩,
    ⟨decodeEncode (.ctisz wd wa), completes_mask rfl beq_iff_eq⟩,
    ⟨decodeEncode (.cteq wd wa wb), completes_mask rfl beq_iff_eq⟩⟩

/-! ### The comparison of two ranges -/

/-- An or of bytes is 0 exactly where each of them is. -/
theorem foldl_or_eq_zero_iff (bytes : List Byte) (acc : Byte) :
    bytes.foldl (· ||| ·) acc = 0 ↔ acc = 0 ∧ ∀ x ∈ bytes, x = 0 := by
  induction bytes generalizing acc with
  | nil => simp
  | cons x rest ih =>
    rw [List.foldl_cons, ih, List.forall_mem_cons, ← and_assoc]
    exact and_congr_left' BitVec.or_eq_zero_iff

/-- Two ranges combined byte by byte, position by position. -/
theorem zipWith_memRead (f : Byte → Byte → Byte) (s : State) (a b n : Nat) :
    List.zipWith f (s.memRead a n) (s.memRead b n) =
      (List.range n).map fun k => f (s.readByte (a + k)) (s.readByte (b + k)) := by
  rw [State.memRead, State.memRead, List.zipWith_map, List.zipWith_self]

/-- The accumulator of R100 is 0 exactly where the ranges agree byte by byte. -/
theorem byteDifference_memRead_eq_zero_iff (s : State) (a b n : Nat) :
    byteDifference (s.memRead a n) (s.memRead b n) = 0 ↔ ∀ k < n, s.readByte (a + k) = s.readByte (b + k) := by
  rw [byteDifference, foldl_or_eq_zero_iff, zipWith_memRead]
  simp only [true_and, List.forall_mem_map, List.mem_range]
  exact forall₂_congr fun _ _ => BitVec.xor_eq_zero_iff

/-- Settles O24: the fault by `exec_ctmemeq_fault`; where both ranges pass, the mask of a zero accumulator. -/
theorem memoryCompare : Obligations.MemoryCompare := by
  intro s wd wa wb wc
  refine ⟨decodeEncode (.ctmemeq wd wa wb wc), fun hfails => ?faults, fun ha hb => ?completes⟩
  case faults =>
    exact ⟨_, exec_ctmemeq_fault s wd wa wb wc hfails, raised_raiseFault _ s⟩
  case completes =>
    refine completes_mask (exec_ctmemeq_ok s wd wa wb wc ha hb) ?_
    rw [beq_iff_eq]
    exact byteDifference_memRead_eq_zero_iff s _ _ _

end Sys2Proof.Proofs
end

section
/-!
The binary commands that write one register and touch no flag (R111 to R113, R115 to R118), and TREV700 (R147), which is BREV700
on both planes. Each ends in one write, so its statement is that write's frame and a fact about the value written.
-/

namespace Sys2Proof.Proofs

open Sys2Proof Sys2Proof.Machine

/-! ### The register written -/

theorem advance_setB_read (s : State) (r : Reg) (v : BinaryPoly) : (s.setB r v).advance.b[r] = v :=
  file_set_same s.b r v

theorem advance_setT_read (s : State) (r : Reg) (v : TernaryPoly) : (s.setT r v).advance.t[r] = v :=
  file_set_same s.t r v

/-- Writing a register with what it holds changes nothing. -/
theorem setB_self (s : State) (r : Reg) : s.setB r s.b[r] = s :=
  congrArg (fun b => { s with b := b }) (Vector.set_getElem_self r.isLt)

/-! ### The values written, place by place -/

theorem getLsbD_lsh1_zero (v : BinaryPoly) : (lsh1 v).getLsbD 0 = false := by
  rw [getLsbD_lsh1]
  rfl

theorem getLsbD_lsh1_succ (v : BinaryPoly) {i : Nat} (h : i < 700) : (lsh1 v).getLsbD (i + 1) = v.getLsbD i := by
  have hin : i + 1 < 701 := by omega
  rw [getLsbD_lsh1, decide_eq_true hin]
  rfl

theorem getLsbD_rsh1_top (v : BinaryPoly) : (rsh1 v).getLsbD 700 = false := by
  rw [getLsbD_rsh1]
  exact BitVec.getLsbD_of_ge v _ (by decide)

theorem getLsbD_modphi2_below (v : BinaryPoly) {i : Nat} (h : i < 700) :
    (modphi2 v).getLsbD i = (v.getLsbD i ^^ v.getLsbD 700) := by
  rw [getLsbD_modphi2, decide_eq_true h, Bool.true_and]

theorem getLsbD_modphi2_top (v : BinaryPoly) : (modphi2 v).getLsbD 700 = false := by
  rw [getLsbD_modphi2]
  rfl

theorem getLsbD_rev700_below (v : BinaryPoly) {i : Nat} (h : i < 700) : (rev700 v).getLsbD i = v.getLsbD (699 - i) := by
  rw [getLsbD_rev700, decide_eq_true h, Bool.true_and]

theorem getLsbD_rev700_top (v : BinaryPoly) : (rev700 v).getLsbD 700 = false := by
  rw [getLsbD_rev700]
  rfl

/-- The reversal moves both bits of a coefficient together (R147). -/
theorem pairAt_rev700_below (x : TernaryPoly) {i : Nat} (h : i < 700) :
    pairAt (onPlanes rev700 x) i = pairAt x (699 - i) := by
  simp only [pairAt, onPlanes, getLsbD_rev700_below _ h]

theorem pairAt_rev700_top (x : TernaryPoly) : pairAt (onPlanes rev700 x) 700 = .zero := by
  simp only [pairAt, onPlanes, getLsbD_rev700_top]
  rfl

/-! ### The commands -/

/-- Settles O28: the lane mask holds bit i mod W of the word at place i. -/
theorem binaryFmadd : Obligations.BinaryFmadd := by
  intro s bd bs wm
  refine ⟨decodeEncode (.bfmadd bd bs wm), _, rfl, retiredQuietly_setB s bd _, fun i hi => ?_⟩
  rw [advance_setB_read, getLsbD_fmadd, getLsbD_maskLanes _ _ i hi]

/-- Settles O30: one reversal, of a vector and of the two planes. -/
theorem reversals : Obligations.Reversals := by
  intro s d r
  refine ⟨⟨decodeEncode (.brev700 d r), _, rfl, retiredQuietly_setB s d _, ?binary⟩,
    ⟨decodeEncode (.trev700 d r), _, rfl, retiredQuietly_setT s d _, ?ternary⟩⟩
  case binary =>
    rw [advance_setB_read]
    exact ⟨getLsbD_rev700_top _, fun _ hi => getLsbD_rev700_below _ hi⟩
  case ternary =>
    rw [advance_setT_read]
    exact ⟨pairAt_rev700_top _, fun _ hi => pairAt_rev700_below _ hi⟩

/-- BCLRTOP writes back what the register holds: only `pc` moves (R118). -/
theorem exec_bclrtop (s : State) (bd : Reg) : exec (.bclrtop bd) s = .next s.advance :=
  congrArg retire (setB_self s bd)

/-- Settles O26, command by command. -/
theorem binaryShifts : Obligations.BinaryShifts := by
  intro s bd
  refine ⟨⟨decodeEncode (.bzero bd), _, rfl, retiredQuietly_setB s bd _, advance_setB_read s bd 0⟩,
    ⟨decodeEncode (.blsh1 bd), _, rfl, retiredQuietly_setB s bd _, ?up⟩,
    ⟨decodeEncode (.brsh1 bd), _, rfl, retiredQuietly_setB s bd _, ?down⟩,
    ⟨decodeEncode (.bclrtop bd), _, exec_bclrtop s bd, retiredQuietly_advance s⟩⟩
  case up =>
    rw [advance_setB_read]
    exact ⟨getLsbD_lsh1_zero _, fun _ hi => getLsbD_lsh1_succ _ hi⟩
  case down =>
    rw [advance_setB_read]
    exact ⟨getLsbD_rsh1_top _, fun i _ => (getLsbD_rsh1 _ i).trans (by rw [Nat.add_comm])⟩

/-- Settles O29, by the two clauses of R116: coefficients 0 to 699 and coefficient 700. -/
theorem binaryModPhi : Obligations.BinaryModPhi := by
  intro s bd
  refine ⟨decodeEncode (.bmodphi bd), _, rfl, retiredQuietly_setB s bd _, ?_⟩
  rw [advance_setB_read]
  exact ⟨getLsbD_modphi2_top _, fun _ hi => getLsbD_modphi2_below _ hi⟩

end Sys2Proof.Proofs
end

section
/-!
The conditional swaps BCSWAP and TCSWAP (R114, R139): the mask decides between the swap, nothing, and cause 4 (R93, R235).
-/

namespace Sys2Proof.Proofs

open Sys2Proof Sys2Proof.Machine

/-! ### Two registers exchanged -/

/-- The two writes of an exchange, from values read before both; the registers may be one. -/
theorem file_swap {α : Type} (v : Vector α 8) (x y : Reg) :
    ((v.set x v[y]).set y v[x])[x] = v[y] ∧ ((v.set x v[y]).set y v[x])[y] = v[x] := by
  refine ⟨?_, file_set_same _ y _⟩
  rw [file_set]
  split
  next hxy => rw [hxy]
  next => exact file_set_same v x _

/-! ### The three masks -/

/-- A command that swaps under a canonical mask: what `u`, the state with the swap done, satisfies it leaves under `ONES_W`. -/
theorem conditionalSwap_by_mask {i : Instr} {s u : State} {wm : Reg} {Q : State → Prop}
    (hexec : exec i s = if s.canonicalMask wm then if s.readW wm = s.ones then retire u else retire s
      else takeFault .maskNoncanonical s) (hswapped : Q u.advance) :
    (s.readW wm = s.ones → ∃ t, exec i s = .next t ∧ Q t) ∧
    (s.readW wm = 0 → ∃ t, exec i s = .next t ∧ RetiredQuietly s t [] [] [] []) ∧
    (s.readW wm ≠ 0 → s.readW wm ≠ s.ones → TakesFault i .maskNoncanonical s) := by
  refine ⟨fun hones => ?swaps, fun hzero => ?rests, fun hzero hones => ?faults⟩
  case swaps =>
    rw [if_pos ((canonicalMask_iff s wm).mpr (.inr hones)), if_pos hones] at hexec
    exact ⟨_, hexec, hswapped⟩
  case rests =>
    have hne : s.readW wm ≠ s.ones := hzero ▸ (ones_ne_zero s).symm
    rw [if_pos ((canonicalMask_iff s wm).mpr (.inl hzero)), if_neg hne] at hexec
    exact ⟨_, hexec, retiredQuietly_advance s⟩
  case faults =>
    rw [if_neg (mt (canonicalMask_iff s wm).mp (not_or.mpr ⟨hzero, hones⟩))] at hexec
    exact ⟨_, hexec, raised_raiseFault _ s⟩

/-- Settles O27: one case split on the mask for both commands, and the exchange of two cells of a file. -/
theorem conditionalSwaps : Obligations.ConditionalSwaps := fun s x y wm =>
  ⟨⟨decodeEncode (.bcswap x y wm),
      conditionalSwap_by_mask rfl ⟨retiredQuietly_swapB s x y s.b[y] s.b[x], file_swap s.b x y⟩⟩,
    ⟨decodeEncode (.tcswap x y wm),
      conditionalSwap_by_mask rfl ⟨retiredQuietly_swapT s x y s.t[y] s.t[x], file_swap s.t x y⟩⟩⟩

end Sys2Proof.Proofs
end

section
/-!
What the descents keep (R119, R150): coefficient 0 of the binary f, the bounds of `delta`, and the run from the polynomial 0,
in which only `delta` moves.
-/

namespace Sys2Proof.Proofs

open Sys2Proof Sys2Proof.Machine

/-! ### delta -/

/-- How an iteration moves `delta`: on by one, or from a positive value to the negated value on by one (R119, R150). -/
def DeltaMove (delta delta' : Int) : Prop := delta' = delta + 1 ∨ 0 < delta ∧ delta' = -delta + 1

theorem deltaMove_swap (delta : Int) (bit : Bool) :
    DeltaMove delta ((if decide (0 < delta) && bit then -delta else delta) + 1) := by
  split
  next hswap => exact .inr ⟨of_decide_eq_true (Bool.and_eq_true_iff.mp hswap).1, rfl⟩
  next => exact .inl rfl

theorem bDescentStep_delta (d : BDescent) : DeltaMove d.delta (bDescentStep d).delta := deltaMove_swap _ _

theorem tDescentStep_delta (d : TDescent) : DeltaMove d.delta (tDescentStep d).delta := deltaMove_swap _ _

/-- From 1 on, n moves take `delta` no further than n away from 1. -/
theorem delta_bounds_iterate {σ : Type} {step : σ → σ} {delta : σ → Int}
    (hmove : ∀ d, DeltaMove (delta d) (delta (step d))) {start : σ} (hstart : delta start = 1) (n : Nat) :
    1 - (n : Int) ≤ delta (step^[n] start) ∧ delta (step^[n] start) ≤ 1 + n := by
  induction n with
  | zero => simp [hstart]
  | succ n ih =>
    rw [Function.iterate_succ_apply']
    push_cast
    rcases hmove (step^[n] start) with hon | ⟨hpos, hneg⟩
    · omega
    · omega

/-! ### Coefficient 0 of the binary f -/

/-- A swap brings in a g whose coefficient 0 is 1; without one f stays (R119). -/
theorem bDescentStep_f_zero {d : BDescent} (h : d.f.getLsbD 0 = true) : (bDescentStep d).f.getLsbD 0 = true := by
  by_cases hswap : 0 < d.delta ∧ d.g.getLsbD 0 = true
  · rw [bDescentStep_swapped hswap.1 hswap.2]
    exact hswap.2
  · rw [bDescentStep_kept hswap]
    exact h

theorem bDescent_f_zero (p : BinaryPoly) (n : Nat) : (bDescentStep^[n] (bDescentStart p)).f.getLsbD 0 = true := by
  induction n with
  | zero => simp [bDescentStart]
  | succ n ih =>
    rw [Function.iterate_succ_apply']
    exact bDescentStep_f_zero ih

/-! ### The source 0 -/

theorem getLsbD_zeroPoly (i : Nat) : (0 : BinaryPoly).getLsbD i = false := BitVec.getLsbD_zero

theorem lsh1_zero : lsh1 0 = 0 := BitVec.zero_shiftLeft 1

theorem rsh1_zero : rsh1 0 = 0 := BitVec.zero_ushiftRight

theorem rev700_zero : rev700 0 = 0 :=
  bits_ext fun i _ => by rw [getLsbD_rev700, getLsbD_zeroPoly, getLsbD_zeroPoly, Bool.and_false]

theorem zero_and_bcast (bit : Bool) : 0 &&& bcast bit = 0 := BitVec.zero_and

theorem fmadd_bcast_false (out addend : BinaryPoly) : fmadd out addend (bcast false) = out := by
  simp [fmadd, bcast]

theorem lane_zero (k : Nat) : lane ⟨0, 0⟩ k = ⟨0, 0⟩ := by
  simp [lane, bcast]

theorem tMul_zero (x : TernaryPoly) : tMul x ⟨0, 0⟩ = ⟨0, 0⟩ := by
  simp [tMul]

theorem zero_tMul (x : TernaryPoly) : tMul ⟨0, 0⟩ x = ⟨0, 0⟩ := by
  simp [tMul]

/-- A multiple of 0 subtracted from a polynomial without coefficient -1 gives it back. -/
theorem fmsub_zero (a : BinaryPoly) (x : TernaryPoly) : fmsub ⟨0, a⟩ x ⟨0, 0⟩ = ⟨0, a⟩ := by
  rw [fmsub, tMul_zero]
  simp [tSub]

/-- The variables of the binary descent on 0, in which only `delta` moves. -/
def bZeroDescent (delta : Int) : BDescent := { f := BitVec.allOnes 701, g := 0, v := 0, r := 1, delta := delta }

/-- The variables of the ternary descent on 0, in which only `delta` moves. -/
def tZeroDescent (delta : Int) : TDescent :=
  { f := ⟨0, BitVec.allOnes 701⟩, g := ⟨0, 0⟩, v := ⟨0, 0⟩, r := ⟨0, 1⟩, delta := delta }

theorem bDescentStart_zero : bDescentStart 0 = bZeroDescent 1 := by
  rw [bDescentStart, rev700_zero, bZeroDescent]

theorem tDescentStart_zero : tDescentStart ⟨0, 0⟩ = tZeroDescent 1 := by
  rw [tDescentStart, onPlanes, rev700_zero, tZeroDescent]

/-- As g is 0 there is no swap, and f[0]·g[0] is 0. -/
theorem bDescentStep_zeroDescent (delta : Int) : bDescentStep (bZeroDescent delta) = bZeroDescent (delta + 1) := by
  simp only [bDescentStep, bZeroDescent, getLsbD_zeroPoly, Bool.and_false, Bool.false_eq_true, if_false, fmadd_bcast_false,
    rsh1_zero, lsh1_zero]

/-- As g is 0 there is no swap, and f[0]·g[0] is 0. -/
theorem tDescentStep_zeroDescent (delta : Int) : tDescentStep (tZeroDescent delta) = tZeroDescent (delta + 1) := by
  simp only [tDescentStep, tZeroDescent, getLsbD_zeroPoly, Bool.and_false, Bool.false_eq_true, if_false, lane_zero, tMul_zero,
    fmsub_zero, onPlanes, rsh1_zero, lsh1_zero]

/-- A step that moves a number on by one, n times. -/
theorem iterate_of_succ {σ : Type} {step : σ → σ} {stateAt : Int → σ} (hstep : ∀ k, step (stateAt k) = stateAt (k + 1))
    (k : Int) (n : Nat) : step^[n] (stateAt k) = stateAt (k + n) := by
  induction n with
  | zero => rw [Function.iterate_zero_apply, Nat.cast_zero, add_zero]
  | succ n ih => rw [Function.iterate_succ_apply', ih, hstep, Nat.cast_succ, add_assoc]

theorem bDescent_zero : bDescent 0 = (0, 1400) := by
  have hend : bDescentEnd 0 = bZeroDescent 1400 := by
    rw [bDescentEnd, bDescentStart_zero]
    exact iterate_of_succ bDescentStep_zeroDescent 1 1399
  simp only [bDescent, hend, bZeroDescent, zero_and_bcast, rev700_zero]

theorem tDescent_zero : tDescent ⟨0, 0⟩ = (⟨0, 0⟩, 1400) := by
  have hend : tDescentEnd ⟨0, 0⟩ = tZeroDescent 1400 := by
    rw [tDescentEnd, tDescentStart_zero]
    exact iterate_of_succ tDescentStep_zeroDescent 1 1399
  simp only [tDescent, hend, tZeroDescent, zero_tMul, onPlanes, rev700_zero]

/-- Settles O33: after n iterations `delta` is within n of 1, and n is at most 1399. -/
theorem descentBounds : Obligations.DescentBounds := by
  refine ⟨fun p n hn => ⟨bDescent_f_zero p n, ?binary⟩, fun p n hn => ?ternary, bDescent_zero, tDescent_zero⟩
  case binary =>
    have hbounds := delta_bounds_iterate bDescentStep_delta (start := bDescentStart p) rfl n
    omega
  case ternary =>
    have hbounds := delta_bounds_iterate tDescentStep_delta (start := tDescentStart p) rfl n
    omega

end Sys2Proof.Proofs
end

section
/-!
The inverses that end in an assertion: BINV (R120) and QINV (R169). Each writes one register and notes whether the final `delta`
of a binary descent is not 0. The products of QINV's Newton steps are the sums over every pair of indices of R166.
-/

namespace Sys2Proof.Proofs

open Sys2Proof Sys2Proof.Machine

/-! ### The assertion -/

/-- AFAIL after a descent is noted (R33, R120, R169): set before, or `delta` not 0. -/
theorem afail_or_bne_iff (afail : Bool) (delta : Int) : (afail || delta != 0) = true ↔ afail = true ∨ delta ≠ 0 := by
  rw [Bool.or_eq_true, bne_iff_ne]

/-- Settles O31: the one write and the one assertion of BINV. -/
theorem binaryInverse : Obligations.BinaryInverse := by
  intro s bd bs
  obtain ⟨hframe, hmem⟩ := retired_noteAssertion (retiredQuietly_setB s bd (bDescent s.b[bs]).1) ((bDescent s.b[bs]).2 != 0)
  exact ⟨decodeEncode (.binv bd bs), _, rfl, hframe, hmem, file_set_same s.b bd _, afail_or_bne_iff s.afail _⟩

/-! ### Products as sums over every pair of indices -/

/-- Below 701 the one index that meets i in coefficient k of a cyclic product is (k + 701 - i) mod 701. -/
theorem add_mod_eq_iff {i j k : Nat} (hi : i < 701) (hj : j < 701) (hk : k < 701) :
    (i + j) % 701 = k ↔ (k + 701 - i) % 701 = j := by
  omega

/-- `cyc_mul_16` is the sum of R166 over every pair of indices. -/
theorem coef_cycMul16_eq_cyclicSum (u v : Coeffs) {k : Nat} (hk : k < 701) :
    coef (cycMul16 u v) k = cyclicSum (coef u) (coef v) k := by
  rw [coef_cycMul16 u v k hk, cyclicSum]
  refine Finset.sum_congr rfl fun i hi => ?_
  have hi := Finset.mem_range.mp hi
  have hmem : (k + 701 - i) % 701 ∈ Finset.range 701 := Finset.mem_range.mpr (Nat.mod_lt _ (by decide))
  calc coef u i * coef v ((k + 701 - i) % 701)
      = ∑ j ∈ Finset.range 701, if (k + 701 - i) % 701 = j then coef u i * coef v j else 0 := by
        rw [Finset.sum_ite_eq, if_pos hmem]
    _ = ∑ j ∈ Finset.range 701, if (i + j) % 701 = k then coef u i * coef v j else 0 :=
        Finset.sum_congr rfl fun j hj => if_congr (add_mod_eq_iff hi (Finset.mem_range.mp hj) hk).symm rfl rfl

/-- The sum of R166 takes the first factor's 701 coefficients only. -/
theorem cyclicSum_congr_left {u u' : Nat → Coeff} (h : ∀ i < 701, u i = u' i) (v : Nat → Coeff) (k : Nat) :
    cyclicSum u v k = cyclicSum u' v k :=
  Finset.sum_congr rfl fun i hi => by rw [h i (Finset.mem_range.mp hi)]

/-! ### The Newton steps -/

/-- The factor a Newton step multiplies b by: 2 more than a·b in coefficient 0 (R169). -/
def newtonFactor (a b : Coeffs) : Coeffs :=
  let prod := cycMul16 a b
  tabulate 701 fun i => if i = 0 then coef prod 0 + 2 else coef prod i

theorem newtonStep_eq (a b : Coeffs) : newtonStep a b = cycMul16 b (newtonFactor a b) := rfl

theorem coef_newtonFactor (a b : Coeffs) {k : Nat} (hk : k < 701) :
    coef (newtonFactor a b) k = coef (cycMul16 a b) k + if k = 0 then 2 else 0 := by
  rw [newtonFactor, coef_tabulate, if_pos hk]
  split
  next h0 => rw [h0]
  next => rw [add_zero]

/-- The same by the sum of R166, the first factor given coefficient by coefficient. -/
theorem coef_newtonFactor_eq_cyclicSum {a : Coeffs} {f : Nat → Coeff} (ha : ∀ i < 701, coef a i = f i) (b : Coeffs) {k : Nat}
    (hk : k < 701) : coef (newtonFactor a b) k = cyclicSum f (coef b) k + if k = 0 then 2 else 0 := by
  rw [coef_newtonFactor _ _ hk, coef_cycMul16_eq_cyclicSum _ _ hk, cyclicSum_congr_left ha]

/-- The source of QINV's descent: the register modulo 2, reduced modulo Φ(N) (R169; G2, log entry 15). -/
def invSource (c : Coeffs) : BinaryPoly := modphi2 (bitsOfCoeffs c)

/-- The approximation b of the inverse of `c` after n Newton steps from the descent's vector (R169). -/
def newtonIterate (c : Coeffs) (n : Nat) : Coeffs := (newtonStep (negQ c))^[n] (coeffsOfBits (bDescent (invSource c)).1)

/-- The factor tmp of step n (R169). -/
def newtonTmp (c : Coeffs) (n : Nat) : Coeffs := newtonFactor (negQ c) (newtonIterate c n)

theorem invQ_eq (c : Coeffs) : invQ c = (newtonIterate c 4, (bDescent (invSource c)).2) := rfl

theorem coef_newtonIterate_zero (c : Coeffs) {i : Nat} (hi : i < 701) :
    coef (newtonIterate c 0) i = if (bDescent (invSource c)).1.getLsbD i then 1 else 0 := coef_coeffsOfBits _ i hi

theorem newtonIterate_succ (c : Coeffs) (n : Nat) :
    newtonIterate c (n + 1) = cycMul16 (newtonIterate c n) (newtonTmp c n) := by
  rw [newtonIterate, Function.iterate_succ_apply', newtonStep_eq, newtonTmp, newtonIterate]

theorem coef_newtonIterate_succ (c : Coeffs) (n : Nat) {k : Nat} (hk : k < 701) :
    coef (newtonIterate c (n + 1)) k = cyclicSum (coef (newtonIterate c n)) (coef (newtonTmp c n)) k := by
  rw [newtonIterate_succ, coef_cycMul16_eq_cyclicSum _ _ hk]

/-! ### The command -/

/-- A register's coefficients are its first 701 slots (R27). -/
theorem coef_coeffs (s : State) (r : Reg) {i : Nat} (hi : i < 701) : coef (s.coeffs r) i = coef s.q[r] i := by
  rw [State.coeffs, coef_dropPadding, if_pos hi]

/-- The factor of a Newton step by the slots of the register QINV inverts. -/
theorem coef_newtonTmp_coeffs (s : State) (r : Reg) (n : Nat) {k : Nat} (hk : k < 701) :
    coef (newtonTmp (s.coeffs r) n) k =
      cyclicSum (fun i => 0 - coef s.q[r] i) (coef (newtonIterate (s.coeffs r) n)) k + if k = 0 then 2 else 0 := by
  refine coef_newtonFactor_eq_cyclicSum (fun i hi => ?_) _ hk
  rw [coef_negQ _ i hi, coef_coeffs s r hi]

theorem getLsbD_invSource_coeffs (s : State) (r : Reg) {i : Nat} (hi : i < 700) :
    (invSource (s.coeffs r)).getLsbD i = ((coef s.q[r] i).getLsbD 0 ^^ (coef s.q[r] 700).getLsbD 0) := by
  rw [invSource, getLsbD_modphi2_below _ hi, getLsbD_bitsOfCoeffs _ i (by omega), getLsbD_bitsOfCoeffs _ 700 (by decide),
    coef_coeffs s r (by omega), coef_coeffs s r (by decide)]

/-- QINV writes the inverse, padding 0, and notes whether `delta` ended at 0 (R169). -/
theorem qinv_completes (s : State) (qd qs : Reg) {out : Coeffs} {delta : Int} (h : invQ (s.coeffs qs) = (out, delta)) :
    ∃ t, exec (.qinv qd qs) s = .next t ∧ Retired s t [] [] [qd] [] ∧ SameMemory s t ∧ t.q[qd] = withPadding out ∧
      (t.afail = true ↔ s.afail = true ∨ delta ≠ 0) := by
  have hexec : exec (.qinv qd qs) s = .next ((s.setCoeffs qd out).noteAssertion (delta != 0)).advance := by
    show execQinv qd qs s = _
    rw [execQinv, h, retire]
  obtain ⟨hframe, hmem⟩ := retired_noteAssertion (retiredQuietly_setCoeffs s qd out) (delta != 0)
  exact ⟨_, hexec, hframe, hmem, file_set_same s.q qd _, afail_or_bne_iff s.afail delta⟩

/-- Settles O45, with `newtonIterate` for b and `newtonTmp` for tmp. -/
theorem modQInverse : Obligations.ModQInverse := by
  intro s qd qs
  obtain ⟨t, hexec, hframe, hmem, hwritten, hafail⟩ := qinv_completes s qd qs (invQ_eq (s.coeffs qs))
  refine ⟨decodeEncode (.qinv qd qs), t, hexec, hframe, hmem, hwritten ▸ paddingZero_withPadding _, invSource (s.coeffs qs),
    fun n => coef (newtonIterate (s.coeffs qs) n), fun n => coef (newtonTmp (s.coeffs qs) n), getLsbD_modphi2_top _,
    fun _ hi => getLsbD_invSource_coeffs s qs hi, fun _ hi => coef_newtonIterate_zero _ hi,
    fun n _ _ hk => ⟨coef_newtonTmp_coeffs s qs n hk, coef_newtonIterate_succ _ n hk⟩, fun k _ => ?written, hafail⟩
  case written => rw [hwritten, coef_withPadding]

end Sys2Proof.Proofs
end

section
/-!
The ternary commands that work coefficient by coefficient (R136 to R138, R140 to R146). The circuits are read lane by lane
through the four pairs of R24: the tables of R135, and the values of the pairs in GF(3).
-/

namespace Sys2Proof.Proofs

open Sys2Proof Sys2Proof.Machine

/-! ### Pairs and polynomials -/

theorem pairOf_eq_zero_iff : ∀ {s a : Bool}, pairOf s a = .zero ↔ s = false ∧ a = false := by decide

theorem pairOf_eq_invalid_iff : ∀ {s a : Bool}, pairOf s a = .invalid ↔ s = true ∧ a = false := by decide

theorem pairOf_inj : ∀ {s a s' a' : Bool}, pairOf s a = pairOf s' a' ↔ s = s' ∧ a = a' := by decide

/-- Two ternary polynomials that hold the same pair at every position are equal. -/
theorem ternary_ext {x y : TernaryPoly} (h : ∀ i < 701, pairAt x i = pairAt y i) : x = y := by
  have hs : x.s = y.s := bits_ext fun i hi => (pairOf_inj.mp (h i hi)).1
  have ha : x.a = y.a := bits_ext fun i hi => (pairOf_inj.mp (h i hi)).2
  cases x
  cases y
  exact congrArg₂ TernaryPoly.mk hs ha

/-- A polynomial is valid exactly when none of its pairs is the invalid one (R25). -/
theorem tValid_iff_pairAt {x : TernaryPoly} : tValid x = true ↔ ∀ i < 701, pairAt x i ≠ .invalid := by
  rw [tValid_iff]
  refine forall₂_congr fun i _ => ?_
  rw [pairAt, Ne, pairOf_eq_invalid_iff, not_and, Bool.not_eq_false]

theorem pairAt_ne_invalid {x : TernaryPoly} (hx : tValid x = true) {i : Nat} (hi : i < 701) : pairAt x i ≠ .invalid :=
  tValid_iff_pairAt.mp hx i hi

/-- A scalar broadcast to all lanes. -/
theorem pairAt_bcast (s a : Bool) {i : Nat} (hi : i < 701) : pairAt ⟨bcast s, bcast a⟩ i = pairOf s a := by
  rw [pairAt, getLsbD_bcast, getLsbD_bcast, decide_eq_true hi, Bool.true_and, Bool.true_and]

theorem pairAt_lane (x : TernaryPoly) (k : Nat) {i : Nat} (hi : i < 701) : pairAt (lane x k) i = pairAt x k :=
  pairAt_bcast _ _ hi

/-! ### The circuits on one pair: the tables of R135, all 16 combinations -/

theorem pairAt_tMul (x y : TernaryPoly) (i : Nat) : pairAt (tMul x y) i = tableMul (pairAt x i) (pairAt y i) := by
  have circuit : ∀ xs xa ys ya : Bool,
      pairOf ((xs ^^ ys) && (xa && ya)) (xa && ya) = tableMul (pairOf xs xa) (pairOf ys ya) := by decide
  simp only [pairAt, tMul, BitVec.getLsbD_and, BitVec.getLsbD_xor, circuit]

theorem pairAt_tAdd (x y : TernaryPoly) (i : Nat) : pairAt (tAdd x y) i = tableAdd (pairAt x i) (pairAt y i) := by
  have circuit : ∀ xs xa ys ya : Bool,
      pairOf ((xs ^^ ya) && (ys ^^ xa)) ((xa ^^ ya) || ((xs ^^ ya) ^^ ys)) = tableAdd (pairOf xs xa) (pairOf ys ya) := by
    decide
  simp only [pairAt, tAdd, BitVec.getLsbD_and, BitVec.getLsbD_or, BitVec.getLsbD_xor, circuit]

theorem pairAt_tSub (x y : TernaryPoly) (i : Nat) : pairAt (tSub x y) i = tableSub (pairAt x i) (pairAt y i) := by
  have circuit : ∀ xs xa ys ya : Bool,
      pairOf ((xs ^^ ya) && ((xa ^^ ya) ^^ ys)) ((xa ^^ ya) || (xs ^^ ys)) = tableSub (pairOf xs xa) (pairOf ys ya) := by
    decide
  simp only [pairAt, tSub, BitVec.getLsbD_and, BitVec.getLsbD_or, BitVec.getLsbD_xor, circuit]

theorem pairAt_tNeg (x : TernaryPoly) (i : Nat) : pairAt (tNeg x) i = tableNeg (pairAt x i) := by
  have circuit : ∀ xs xa : Bool, pairOf (xs ^^ xa) xa = tableNeg (pairOf xs xa) := by decide
  simp only [pairAt, tNeg, BitVec.getLsbD_xor, circuit]

/-- Settles O35: the circuits work on the bits of one position, where their 16 inputs are evaluated. -/
theorem circuitTables : Obligations.CircuitTables := fun x y i _ =>
  ⟨pairAt_tMul x y i, pairAt_tAdd x y i, pairAt_tSub x y i, pairAt_tNeg x i⟩

theorem pairAt_fmsub (out x c : TernaryPoly) (i : Nat) :
    pairAt (fmsub out x c) i = tableSub (pairAt out i) (tableMul (pairAt x i) (pairAt c i)) := by
  rw [fmsub, pairAt_tSub, pairAt_tMul]

theorem pairAt_modphi3 (x : TernaryPoly) {i : Nat} (hi : i < 701) :
    pairAt (modphi3 x) i = tableSub (pairAt x i) (pairAt x 700) := by
  rw [modphi3, pairAt_tSub, pairAt_lane x 700 hi]

/-! ### Values in GF(3) -/

/-- The value of a pair in GF(3) (R24); the invalid pair, which has none, reads as 0 like in `pairValue`. -/
def gf3Of : Pair → ZMod 3
  | .plus => 1
  | .minus => -1
  | .zero | .invalid => 0

theorem tValue_eq_gf3Of (x : TernaryPoly) (i : Nat) : tValue x i = gf3Of (pairAt x i) := by
  have h : ∀ s a : Bool, pairValue s a = gf3Of (pairOf s a) := by decide
  exact h _ _

theorem gf3Of_tableMul (p q : Pair) : gf3Of (tableMul p q) = gf3Of p * gf3Of q := by
  cases p <;> cases q <;> decide

theorem gf3Of_tableNeg (p : Pair) : gf3Of (tableNeg p) = -gf3Of p := by
  cases p <;> decide

theorem gf3Of_tableAdd {p q : Pair} (hp : p ≠ .invalid) (hq : q ≠ .invalid) :
    gf3Of (tableAdd p q) = gf3Of p + gf3Of q := by
  revert hp hq
  cases p <;> cases q <;> decide

theorem gf3Of_tableSub {p q : Pair} (hp : p ≠ .invalid) (hq : q ≠ .invalid) :
    gf3Of (tableSub p q) = gf3Of p - gf3Of q := by
  revert hp hq
  cases p <;> cases q <;> decide

/-- Valid pairs are told apart by their values. -/
theorem gf3Of_inj {p q : Pair} (hp : p ≠ .invalid) (hq : q ≠ .invalid) : gf3Of p = gf3Of q ↔ p = q := by
  revert hp hq
  cases p <;> cases q <;> decide

theorem tValue_tMul (x y : TernaryPoly) (i : Nat) : tValue (tMul x y) i = tValue x i * tValue y i := by
  simp only [tValue_eq_gf3Of, pairAt_tMul, gf3Of_tableMul]

theorem tValue_tNeg (x : TernaryPoly) (i : Nat) : tValue (tNeg x) i = -tValue x i := by
  simp only [tValue_eq_gf3Of, pairAt_tNeg, gf3Of_tableNeg]

section

variable {x y : TernaryPoly} {i : Nat}

theorem tValue_tAdd (hx : tValid x = true) (hy : tValid y = true) (hi : i < 701) :
    tValue (tAdd x y) i = tValue x i + tValue y i := by
  simp only [tValue_eq_gf3Of, pairAt_tAdd, gf3Of_tableAdd (pairAt_ne_invalid hx hi) (pairAt_ne_invalid hy hi)]

theorem tValue_tSub (hx : tValid x = true) (hy : tValid y = true) (hi : i < 701) :
    tValue (tSub x y) i = tValue x i - tValue y i := by
  simp only [tValue_eq_gf3Of, pairAt_tSub, gf3Of_tableSub (pairAt_ne_invalid hx hi) (pairAt_ne_invalid hy hi)]

/-- Valid polynomials are told apart by their values. -/
theorem eq_of_tValue (hx : tValid x = true) (hy : tValid y = true) (h : ∀ i < 701, tValue x i = tValue y i) : x = y :=
  ternary_ext fun i hi => (gf3Of_inj (pairAt_ne_invalid hx hi) (pairAt_ne_invalid hy hi)).mp <| by
    rw [← tValue_eq_gf3Of, ← tValue_eq_gf3Of, h i hi]

theorem pairAt_eq_zero_iff (hx : tValid x = true) (hi : i < 701) : pairAt x i = .zero ↔ tValue x i = 0 := by
  rw [tValue_eq_gf3Of]
  exact (gf3Of_inj (q := .zero) (pairAt_ne_invalid hx hi) nofun).symm

end

/-! ### Shifts -/

theorem pairAt_lsh1_zero (x : TernaryPoly) : pairAt (onPlanes lsh1 x) 0 = .zero :=
  pairOf_eq_zero_iff.mpr ⟨getLsbD_lsh1_zero x.s, getLsbD_lsh1_zero x.a⟩

theorem pairAt_lsh1_succ (x : TernaryPoly) {i : Nat} (hi : i < 700) : pairAt (onPlanes lsh1 x) (i + 1) = pairAt x i := by
  simp only [pairAt, onPlanes, getLsbD_lsh1_succ _ hi]

theorem pairAt_rsh1_top (x : TernaryPoly) : pairAt (onPlanes rsh1 x) 700 = .zero :=
  pairOf_eq_zero_iff.mpr ⟨getLsbD_rsh1_top x.s, getLsbD_rsh1_top x.a⟩

theorem pairAt_rsh1 (x : TernaryPoly) (i : Nat) : pairAt (onPlanes rsh1 x) i = pairAt x (i + 1) := by
  simp only [pairAt, onPlanes, getLsbD_rsh1, Nat.add_comm 1]

/-! ### The reduction of R146 -/

theorem tableSub_self {p : Pair} (hp : p ≠ .invalid) : tableSub p p = .zero := by
  revert hp
  cases p <;> decide

theorem tableSub_zero {p : Pair} (hp : p ≠ .invalid) : tableSub p .zero = p := by
  revert hp
  cases p <;> decide

theorem pairAt_modphi3_top {x : TernaryPoly} (hx : tValid x = true) : pairAt (modphi3 x) 700 = .zero := by
  rw [pairAt_modphi3 x (by decide), tableSub_self (pairAt_ne_invalid hx (by decide))]

/-- The reduction leaves a valid polynomial with top coefficient 0 as it is. -/
theorem modphi3_eq_self {x : TernaryPoly} (hx : tValid x = true) (htop : pairAt x 700 = .zero) : modphi3 x = x :=
  ternary_ext fun i hi => by rw [pairAt_modphi3 x hi, htop, tableSub_zero (pairAt_ne_invalid hx hi)]

/-! ### The commands -/

/-- Settles O34: the two shifts of R112 and R113, on both planes. -/
theorem ternaryShifts : Obligations.TernaryShifts := by
  intro s td
  refine ⟨⟨decodeEncode (.tzero td), _, rfl, retiredQuietly_setT s td _, advance_setT_read s td _⟩,
    ⟨decodeEncode (.tlsh1 td), _, rfl, retiredQuietly_setT s td _, ?up⟩,
    ⟨decodeEncode (.trsh1 td), _, rfl, retiredQuietly_setT s td _, ?down⟩⟩
  case up =>
    rw [advance_setT_read]
    exact ⟨pairAt_lsh1_zero _, fun _ hi => pairAt_lsh1_succ _ hi⟩
  case down =>
    rw [advance_setT_read]
    exact ⟨pairAt_rsh1_top _, fun i _ => pairAt_rsh1 _ i⟩

/-- Settles O36: each command writes its circuit's value, and the tables are GF(3) on valid pairs. -/
theorem ternaryLanewise : Obligations.TernaryLanewise := by
  intro s td ta tb
  refine ⟨⟨decodeEncode (.tadd td ta tb), _, rfl, retiredQuietly_setT s td _, ?add⟩,
    ⟨decodeEncode (.tsub td ta tb), _, rfl, retiredQuietly_setT s td _, ?sub⟩,
    ⟨decodeEncode (.tcmul td ta tb), _, rfl, retiredQuietly_setT s td _, ?mul⟩,
    ⟨decodeEncode (.tneg td), _, rfl, retiredQuietly_setT s td _, ?neg⟩⟩
  all_goals rw [advance_setT_read]
  case add => exact ⟨fun i _ => pairAt_tAdd _ _ i, fun hx hy => ⟨tValid_tAdd hx hy, fun _ hi => tValue_tAdd hx hy hi⟩⟩
  case sub => exact ⟨fun i _ => pairAt_tSub _ _ i, fun hx hy => ⟨tValid_tSub hx hy, fun _ hi => tValue_tSub hx hy hi⟩⟩
  case mul => exact ⟨fun i _ => pairAt_tMul _ _ i, fun _ _ => ⟨tValid_tMul _ _, fun i _ => tValue_tMul _ _ i⟩⟩
  case neg => exact ⟨fun i _ => pairAt_tNeg _ i, fun hx => ⟨tValid_tNeg hx, fun i _ => tValue_tNeg _ i⟩⟩

/-- The scalar of TMULC and TFMSUB is one pair in every lane (R144). -/
theorem pairAt_scalarT (s : State) (ms ma : Reg) {i : Nat} (hi : i < 701) :
    pairAt (s.scalarT ms ma) i = pairOf ((s.readW ms).getLsbD 0) ((s.readW ma).getLsbD 0) :=
  pairAt_bcast _ _ hi

/-- Settles O37: the tables of R135 with the broadcast pair as the second factor. -/
theorem ternaryScalar : Obligations.TernaryScalar := by
  intro s td ts wms wma
  refine ⟨⟨decodeEncode (.tmulc td wms wma), _, rfl, retiredQuietly_setT s td _, fun i hi => ?_⟩,
    ⟨decodeEncode (.tfmsub td ts wms wma), _, rfl, retiredQuietly_setT s td _, fun i hi => ?_⟩⟩
  · rw [advance_setT_read, pairAt_tMul, pairAt_scalarT s wms wma hi]
  · rw [advance_setT_read, pairAt_fmsub, pairAt_scalarT s wms wma hi]

/-- Settles O38: every clause is the table of R135 with the top pair as the subtrahend. -/
theorem ternaryModPhi : Obligations.TernaryModPhi := by
  intro s td
  refine ⟨decodeEncode (.tmodphi td), _, rfl, retiredQuietly_setT s td _, ?_⟩
  rw [advance_setT_read]
  refine ⟨fun _ hi => pairAt_modphi3 _ hi, pairAt_modphi3_top, fun htop => ?invalid, fun htop hx => modphi3_eq_self hx htop⟩
  case invalid =>
    rw [pairAt_modphi3 _ (by decide), htop]
    rfl

end Sys2Proof.Proofs
end

section
/-!
TMUL (R148) and TINV (R151): what the model computes for the product is the sum over every pair of indices of R148, and the
product of two valid polynomials is a valid one with top coefficient 0.
-/

namespace Sys2Proof.Proofs

open Sys2Proof Sys2Proof.Machine

/-! ### The product in GF(3) -/

/-- A sum over every pair of indices that meet in coefficient k of a cyclic product has one term per first index. -/
theorem sum_pairs_cyclic {M : Type} [AddCommMonoid M] (f : Nat → Nat → M) {k : Nat} (hk : k < 701) :
    ∑ i ∈ Finset.range 701, ∑ j ∈ Finset.range 701, (if (i + j) % 701 = k then f i j else 0) =
      ∑ i ∈ Finset.range 701, f i ((k + 701 - i) % 701) := by
  refine Finset.sum_congr rfl fun i hi => ?_
  have hmem : (k + 701 - i) % 701 ∈ Finset.range 701 := Finset.mem_range.mpr (Nat.mod_lt _ (by decide))
  calc ∑ j ∈ Finset.range 701, (if (i + j) % 701 = k then f i j else 0)
      = ∑ j ∈ Finset.range 701, if (k + 701 - i) % 701 = j then f i j else 0 :=
        Finset.sum_congr rfl fun j hj =>
          if_congr (add_mod_eq_iff (Finset.mem_range.mp hi) (Finset.mem_range.mp hj) hk) rfl rfl
    _ = f i ((k + 701 - i) % 701) := by rw [Finset.sum_ite_eq, if_pos hmem]

/-- The cyclic product is the sum of R148 over every pair of indices. -/
theorem cycMul3_eq_sum_pairs (u v : TernaryPoly) {k : Nat} (hk : k < 701) :
    cycMul3 u v k = ∑ i ∈ Finset.range 701, ∑ j ∈ Finset.range 701,
      if (i + j) % 701 = k then tValue u i * tValue v j else 0 :=
  (sum_pairs_cyclic (fun i j => tValue u i * tValue v j) hk).symm

/-- The encoding of R24 holds the values it was made from. -/
theorem tValue_encodeGF3 (f : Nat → ZMod 3) {i : Nat} (hi : i < 701) : tValue (encodeGF3 f) i = f i := by
  have h : ∀ z : ZMod 3, pairValue (decide (z = -1)) (decide (z ≠ 0)) = z := by decide
  rw [tValue, getLsbD_encodeGF3_s f i hi, getLsbD_encodeGF3_a f i hi, h]

theorem tValue_productGF3 (u v : TernaryPoly) {k : Nat} (hk : k < 701) :
    tValue (productGF3 u v) k = cycMul3 u v k - cycMul3 u v 700 :=
  tValue_encodeGF3 _ hk

theorem tValid_productGF3 (u v : TernaryPoly) : tValid (productGF3 u v) = true := tValid_encodeGF3 _

theorem pairAt_productGF3_top (u v : TernaryPoly) : pairAt (productGF3 u v) 700 = .zero := by
  rw [pairAt_eq_zero_iff (tValid_productGF3 u v) (by decide), tValue_productGF3 u v (by decide), sub_self]

theorem tPolyMul_valid {u v : TernaryPoly} (hu : tValid u = true) (hv : tValid v = true) :
    tPolyMul u v = productGF3 u v := by
  rw [tPolyMul, hu, hv, Bool.true_and, if_pos rfl]

theorem tPolyMul_invalid {u v : TernaryPoly} (h : tValid u = false ∨ tValid v = false) :
    tPolyMul u v = Config.tmulInvalid u v := by
  rw [tPolyMul, Bool.and_eq_false_iff.mpr h, if_neg Bool.false_ne_true]

/-! ### The commands -/

/-- Settles O39: on valid operands the cyclic product minus its top coefficient, else the free function. -/
theorem ternaryProduct : Obligations.TernaryProduct := by
  intro s td ta tb
  refine ⟨decodeEncode (.tmul td ta tb), _, rfl, retiredQuietly_setT s td _, ?_⟩
  rw [advance_setT_read]
  refine ⟨fun hu hv => ?valid, tPolyMul_invalid⟩
  case valid =>
    rw [tPolyMul_valid hu hv]
    exact ⟨tValid_productGF3 _ _, pairAt_productGF3_top _ _, cycMul3 s.t[ta] s.t[tb],
      fun _ hk => cycMul3_eq_sum_pairs _ _ hk, fun _ hk => tValue_productGF3 _ _ hk⟩

/-- Settles O40: the one write and the one assertion of TINV. -/
theorem ternaryInverse : Obligations.TernaryInverse := by
  intro s td ts
  obtain ⟨hframe, hmem⟩ := retired_noteAssertion (retiredQuietly_setT s td (tDescent s.t[ts]).1) ((tDescent s.t[ts]).2 != 0)
  exact ⟨decodeEncode (.tinv td ts), _, rfl, hframe, hmem, file_set_same s.t td _, afail_or_bne_iff s.afail _⟩

end Sys2Proof.Proofs
end

section
/-!
The ternary descent of R150 computes the inverse modulo (3, Φ(N)) (R151, R152): on valid polynomials its variables are those of
the descent on polynomials over GF(3), the polynomials v and r modulo x^701.
-/

namespace Sys2Proof.Proofs

open Sys2Proof Sys2Proof.Machine Polynomial

/-! ### Ternary polynomials as polynomials over GF(3) -/

theorem tValue_outside (x : TernaryPoly) {i : ℕ} (h : 701 ≤ i) : tValue x i = 0 := by
  rw [tValue, BitVec.getLsbD_of_ge x.s i h, BitVec.getLsbD_of_ge x.a i h]
  rfl

/-- A coefficient is 0 in GF(3) exactly when its bit of the absolute-value plane is 0 (R23). -/
theorem tValue_ne_zero_iff (x : TernaryPoly) (i : ℕ) : tValue x i ≠ 0 ↔ x.a.getLsbD i = true := by
  have h : ∀ s a : Bool, pairValue s a ≠ 0 ↔ a = true := by decide
  exact h _ _

theorem tValid_of_plus (v : BinaryPoly) : tValid ⟨0, v⟩ = true :=
  (tValid_iff _).mpr fun i _ h => by simp at h

/-- Where the sign plane is 0 the coefficients are 0 and 1. -/
theorem tValue_of_plus (v : BinaryPoly) (i : ℕ) : tValue ⟨0, v⟩ i = if v.getLsbD i then 1 else 0 := by
  rw [tValue, getLsbD_zeroPoly, pairValue]
  rfl

theorem tValue_zero (i : ℕ) : tValue ⟨0, 0⟩ i = 0 := by
  rw [tValue_of_plus, getLsbD_zeroPoly]
  rfl

theorem tValue_one (i : ℕ) : tValue ⟨0, 1⟩ i = oneCoeff i := by
  have h : (1 : BinaryPoly).getLsbD i = decide (i = 0) := by simp [BitVec.getLsbD_one]
  rw [tValue_of_plus, h, oneCoeff]
  simp

theorem tValue_allOnes (i : ℕ) : tValue ⟨0, BitVec.allOnes 701⟩ i = (phiPoly (ZMod 3)).coeff i := by
  rw [tValue_of_plus, BitVec.getLsbD_allOnes, coeff_phiPoly]
  simp

theorem tValue_rsh1 (x : TernaryPoly) (i : ℕ) : tValue (onPlanes rsh1 x) i = tValue x (i + 1) := by
  rw [tValue_eq_gf3Of, pairAt_rsh1, tValue_eq_gf3Of]

theorem tValue_lsh1_zero (x : TernaryPoly) : tValue (onPlanes lsh1 x) 0 = 0 := by
  rw [tValue_eq_gf3Of, pairAt_lsh1_zero]
  rfl

theorem tValue_lsh1_succ (x : TernaryPoly) {i : ℕ} (h : i < 700) : tValue (onPlanes lsh1 x) (i + 1) = tValue x i := by
  rw [tValue_eq_gf3Of, pairAt_lsh1_succ x h, tValue_eq_gf3Of]

theorem tValue_lane (x : TernaryPoly) (k : ℕ) {i : ℕ} (h : i < 701) : tValue (lane x k) i = tValue x k := by
  rw [tValue_eq_gf3Of, pairAt_lane x k h, tValue_eq_gf3Of]

theorem tValue_rev700 (x : TernaryPoly) (i : ℕ) : tValue (onPlanes rev700 x) i = revCoeff (tValue x) i := by
  rw [revCoeff]
  split
  next h => rw [tValue_eq_gf3Of, pairAt_rev700_below x h, tValue_eq_gf3Of]
  next h =>
    rcases Nat.eq_or_lt_of_le (Nat.le_of_not_lt h) with rfl | h
    · rw [tValue_eq_gf3Of, pairAt_rev700_top]
      rfl
    · exact tValue_outside _ h

/-- `fmsub` by a scalar subtracts the source times the scalar; the product is valid whatever its factors are (R145). -/
theorem tValue_fmsub_scalar {out c : TernaryPoly} {a : ZMod 3} (hout : tValid out = true) (hc : ∀ i < 701, tValue c i = a)
    (x : TernaryPoly) (i : ℕ) : tValue (fmsub out x c) i = tValue out i - a * tValue x i := by
  by_cases hi : i < 701
  · rw [fmsub, tValue_tSub hout (tValid_tMul x c) hi, tValue_tMul, hc i hi, mul_comm]
  · simp only [tValue_outside _ (Nat.le_of_not_lt hi), mul_zero, sub_zero]

/-! ### Residues of ternary polynomials -/

theorem residue_productGF3 (u v : TernaryPoly) :
    residue (tValue (productGF3 u v)) = residue (tValue u) * residue (tValue v) :=
  calc residue (tValue (productGF3 u v))
      = residue (fun k => cycMul3 u v k - cycMul3 u v 700) := residue_congr fun _ hk => tValue_productGF3 u v hk
    _ = residue (cycMul3 u v) := residue_sub_top _
    _ = residue (tValue u) * residue (tValue v) := residue_cyclic fun _ hk => cycMul3_eq_sum_pairs u v hk

/-- Valid polynomials with top coefficient 0 are told apart by their residues. -/
theorem eq_of_residue_tValue {u v : TernaryPoly} (hu : tValid u = true) (hv : tValid v = true)
    (hu0 : pairAt u 700 = .zero) (hv0 : pairAt v 700 = .zero) (h : residue (tValue u) = residue (tValue v)) : u = v :=
  eq_of_tValue hu hv <| residue_injective ((pairAt_eq_zero_iff hu (by decide)).mp hu0)
    ((pairAt_eq_zero_iff hv (by decide)).mp hv0) h

/-- The product reduces to 1 exactly when the residues are inverse to each other (R148). -/
theorem productGF3_eq_one_iff (u v : TernaryPoly) :
    productGF3 u v = ⟨0, 1⟩ ↔ residue (tValue u) * residue (tValue v) = 1 := by
  have hone : residue (tValue ⟨0, 1⟩) = 1 := (residue_congr fun i _ => tValue_one i).trans residue_oneCoeff
  have htop : pairAt ⟨0, 1⟩ 700 = .zero := by
    rw [pairAt_eq_zero_iff (tValid_of_plus 1) (by decide), tValue_one]
    rfl
  rw [← residue_productGF3, ← hone]
  refine ⟨fun h => by rw [h], fun h => ?_⟩
  exact eq_of_residue_tValue (tValid_productGF3 u v) (tValid_of_plus 1) (pairAt_productGF3_top u v) htop h

theorem productGF3_eq_one_comm {u v : TernaryPoly} : productGF3 u v = ⟨0, 1⟩ ↔ productGF3 v u = ⟨0, 1⟩ := by
  rw [productGF3_eq_one_iff, productGF3_eq_one_iff, mul_comm]

/-- Two inverses of one source that are valid with top coefficient 0 are equal (R152). -/
theorem ternary_inverse_unique {p u w : TernaryPoly} (hu : tValid u = true) (hw : tValid w = true)
    (hu0 : pairAt u 700 = .zero) (hw0 : pairAt w 700 = .zero) (hup : productGF3 u p = ⟨0, 1⟩)
    (hwp : productGF3 w p = ⟨0, 1⟩) : u = w := by
  rw [productGF3_eq_one_iff] at hup hwp
  refine eq_of_residue_tValue hu hw hu0 hw0 ?_
  exact (IsUnit.of_mul_eq_one_right _ hup).mul_right_cancel (hup.trans hwp.symm)

/-! ### The descent on ternary polynomials -/

/-- The scalar of an iteration in every lane (R150, step 3). -/
def tDescentScalar (d : TDescent) : TernaryPoly := tMul (lane d.f 0) (lane d.g 0)

/-- An iteration with the swap (R150). -/
theorem tDescentStep_swapped {d : TDescent} (hd : 0 < d.delta) (hg : d.g.a.getLsbD 0 = true) :
    tDescentStep d =
      { f := d.g, g := onPlanes rsh1 (fmsub d.f d.g (tDescentScalar d)), v := d.r
        r := fmsub (onPlanes lsh1 d.v) d.r (tDescentScalar d), delta := -d.delta + 1 } := by
  simp [tDescentStep, tDescentScalar, hd, hg]

/-- An iteration without the swap (R150). -/
theorem tDescentStep_kept {d : TDescent} (h : ¬ (0 < d.delta ∧ d.g.a.getLsbD 0 = true)) :
    tDescentStep d =
      { f := d.f, g := onPlanes rsh1 (fmsub d.g d.f (tDescentScalar d)), v := onPlanes lsh1 d.v
        r := fmsub d.r (onPlanes lsh1 d.v) (tDescentScalar d), delta := d.delta + 1 } := by
  have hswap : (decide (0 < d.delta) && d.g.a.getLsbD 0) = false := by
    rw [← Bool.not_eq_true, Bool.and_eq_true, decide_eq_true_eq]
    exact h
  simp only [tDescentStep, tDescentScalar, hswap, Bool.false_eq_true, if_false]

/-- The four polynomials of the descent are valid. -/
structure TDescentValid (d : TDescent) : Prop where
  f : tValid d.f = true
  g : tValid d.g = true
  v : tValid d.v = true
  r : tValid d.r = true

theorem tDescentValid_start {p : TernaryPoly} (hp : tValid p = true) : TDescentValid (tDescentStart p) :=
  ⟨tValid_of_plus _, tValid_rev700 hp, tValid_zero, tValid_of_plus _⟩

theorem TDescentValid.step {d : TDescent} (h : TDescentValid d) : TDescentValid (tDescentStep d) := by
  by_cases hswap : 0 < d.delta ∧ d.g.a.getLsbD 0 = true
  · rw [tDescentStep_swapped hswap.1 hswap.2]
    exact ⟨h.g, tValid_rsh1 (tValid_fmsub h.f _ _), h.r, tValid_fmsub (tValid_lsh1 h.v) _ _⟩
  · rw [tDescentStep_kept hswap]
    exact ⟨h.f, tValid_rsh1 (tValid_fmsub h.g _ _), tValid_lsh1 h.v, tValid_fmsub h.r _ _⟩

/-- The machine's descent follows the descent on polynomials: f and g exactly, v and r modulo x^701. -/
structure TFollows (d : TDescent) (D : PolyDescent (ZMod 3)) : Prop where
  f : ∀ i, D.f.coeff i = tValue d.f i
  g : ∀ i, D.g.coeff i = tValue d.g i
  v : ∀ i < 701, D.v.coeff i = tValue d.v i
  r : ∀ i < 701, D.r.coeff i = tValue d.r i
  delta : D.delta = d.delta

/-- `lsh1` on both planes is multiplication by x modulo x^701. -/
theorem coeff_X_mul_of_tValue {p : (ZMod 3)[X]} {x : TernaryPoly} (h : ∀ i < 701, p.coeff i = tValue x i) :
    ∀ i < 701, (X * p).coeff i = tValue (onPlanes lsh1 x) i := by
  intro i hi
  cases i with
  | zero => rw [coeff_X_mul_zero, tValue_lsh1_zero]
  | succ k => rw [coeff_X_mul, tValue_lsh1_succ x (by omega), h k (by omega)]

theorem TFollows.scalar {d : TDescent} {D : PolyDescent (ZMod 3)} (h : TFollows d D) :
    ∀ i < 701, tValue (tDescentScalar d) i = D.scalar := by
  intro i hi
  rw [tDescentScalar, tValue_tMul, tValue_lane d.f 0 hi, tValue_lane d.g 0 hi, PolyDescent.scalar, h.f, h.g]

theorem TFollows.step {d : TDescent} {D : PolyDescent (ZMod 3)} (h : TFollows d D) (hd : TDescentValid d) :
    TFollows (tDescentStep d) D.step := by
  have hxv := coeff_X_mul_of_tValue h.v
  have hswap : (0 < D.delta ∧ D.g.coeff 0 ≠ 0) ↔ (0 < d.delta ∧ d.g.a.getLsbD 0 = true) := by
    rw [h.delta, h.g, tValue_ne_zero_iff]
  rw [PolyDescent.step]
  split
  next hs =>
    obtain ⟨hpos, hg⟩ := hswap.mp hs
    rw [tDescentStep_swapped hpos hg]
    refine ⟨h.g, fun i => ?_, h.r, fun i hi => ?_, ?_⟩
    · rw [PolyDescent.swapped, coeff_divX, coeff_sub, coeff_C_mul, h.f, h.g, tValue_rsh1, tValue_fmsub_scalar hd.f h.scalar]
    · rw [PolyDescent.swapped, coeff_sub, coeff_C_mul, hxv i hi, h.r i hi,
        tValue_fmsub_scalar (tValid_lsh1 hd.v) h.scalar]
    · show 1 - D.delta = -d.delta + 1
      rw [h.delta, sub_eq_neg_add]
  next hs =>
    rw [tDescentStep_kept (mt hswap.mpr hs)]
    refine ⟨h.f, fun i => ?_, hxv, fun i hi => ?_, ?_⟩
    · rw [PolyDescent.kept, coeff_divX, coeff_sub, coeff_C_mul, h.f, h.g, tValue_rsh1, tValue_fmsub_scalar hd.g h.scalar]
    · rw [PolyDescent.kept, coeff_sub, coeff_C_mul, hxv i hi, h.r i hi, tValue_fmsub_scalar hd.r h.scalar]
    · show 1 + D.delta = d.delta + 1
      rw [h.delta, add_comm]

/-- The polynomial over GF(3) the descent on p starts from: the reversal of p. -/
noncomputable def ternaryRevPoly (p : TernaryPoly) : (ZMod 3)[X] := polyOf (revCoeff (tValue p))

theorem coeff_ternaryRevPoly (p : TernaryPoly) (i : ℕ) : (ternaryRevPoly p).coeff i = revCoeff (tValue p) i := by
  rw [ternaryRevPoly, coeff_polyOf]
  split
  · rfl
  · rw [revCoeff, if_neg (by omega)]

theorem coeff_ternaryRevPoly_eq_zero (p : TernaryPoly) (i : ℕ) (hi : 700 ≤ i) : (ternaryRevPoly p).coeff i = 0 := by
  rw [coeff_ternaryRevPoly, revCoeff, if_neg (by omega)]

/-- Reversing twice gives a valid source with top coefficient 0 back. -/
theorem residue_revCoeff_ternaryRevPoly {p : TernaryPoly} (hp : tValid p = true) (htop : pairAt p 700 = .zero) :
    residue (revCoeff (ternaryRevPoly p).coeff) = residue (tValue p) := by
  refine residue_congr fun i hi => ?_
  rw [revCoeff]
  split
  · rw [coeff_ternaryRevPoly, revCoeff, if_pos (by omega), Nat.sub_sub_self (by omega)]
  · obtain rfl : i = 700 := by omega
    exact ((pairAt_eq_zero_iff hp hi).mp htop).symm

theorem tFollows_start (p : TernaryPoly) : TFollows (tDescentStart p) (PolyDescent.start (ternaryRevPoly p)) where
  f i := by rw [PolyDescent.start, tDescentStart, tValue_allOnes]
  g i := by rw [PolyDescent.start, tDescentStart, coeff_ternaryRevPoly, tValue_rev700]
  v i _ := by rw [PolyDescent.start, tDescentStart, coeff_zero, tValue_zero]
  r i _ := by rw [PolyDescent.start, tDescentStart, coeff_one, tValue_one, oneCoeff]
  delta := by rw [PolyDescent.start, tDescentStart]

theorem tFollows_iterate {p : TernaryPoly} (hp : tValid p = true) (n : ℕ) :
    TDescentValid (tDescentStep^[n] (tDescentStart p)) ∧
    TFollows (tDescentStep^[n] (tDescentStart p)) (PolyDescent.step^[n] (PolyDescent.start (ternaryRevPoly p))) := by
  induction n with
  | zero => exact ⟨tDescentValid_start hp, tFollows_start p⟩
  | succ n ih =>
    obtain ⟨hvalid, hfollows⟩ := ih
    rw [Function.iterate_succ_apply', Function.iterate_succ_apply']
    exact ⟨hvalid.step, hfollows.step hvalid⟩

/-! ### The end of the descent -/

/-- The end of the descent on polynomials that the descent on p follows. -/
noncomputable def ternaryPolyDescentEnd (p : TernaryPoly) : PolyDescent (ZMod 3) :=
  PolyDescent.step^[1399] (PolyDescent.start (ternaryRevPoly p))

theorem tFollows_end {p : TernaryPoly} (hp : tValid p = true) : TFollows (tDescentEnd p) (ternaryPolyDescentEnd p) :=
  (tFollows_iterate hp 1399).2

/-- Every element of GF(3) but 0 is its own inverse. -/
theorem zmod3_mul_self : ∀ a : ZMod 3, a ≠ 0 → a * a = 1 := by decide

theorem ternary_keeps_end (p : TernaryPoly) : (ternaryPolyDescentEnd p).Keeps (ternaryRevPoly p) 1399 :=
  PolyDescent.keeps_iterate zmod3_mul_self (coeff_ternaryRevPoly_eq_zero p) 1399

theorem pairAt_tDescent_top (p : TernaryPoly) : pairAt (tDescent p).1 700 = .zero := pairAt_rev700_top _

section

variable {p : TernaryPoly} (hp : tValid p = true)
include hp

theorem tDescent_delta : (tDescent p).2 = (ternaryPolyDescentEnd p).delta := by
  rw [(tFollows_end hp).delta, tDescent]

/-- The result's residue is that of the reversal of f[0]·v. -/
theorem residue_tDescent :
    residue (tValue (tDescent p).1) =
      residue (revCoeff fun i => (ternaryPolyDescentEnd p).v.coeff i * (ternaryPolyDescentEnd p).f.coeff 0) := by
  refine residue_congr fun i _ => ?_
  rw [tDescent, tValue_rev700, revCoeff, revCoeff]
  split
  · rw [tValue_tMul, tValue_lane _ 0 (by omega), (tFollows_end hp).v _ (by omega), (tFollows_end hp).f]
  · rfl

variable (htop : pairAt p 700 = .zero)
include htop

/-- A final delta of 0 comes with the inverse (R151). -/
theorem productGF3_tDescent (hd : (tDescent p).2 = 0) : productGF3 (tDescent p).1 p = ⟨0, 1⟩ := by
  rw [productGF3_eq_one_iff, residue_tDescent hp, ← residue_revCoeff_ternaryRevPoly hp htop]
  exact PolyDescent.residue_mul_residue_of_delta_zero zmod3_mul_self (coeff_ternaryRevPoly_eq_zero p) (ternary_keeps_end p)
    ((tDescent_delta hp).symm.trans hd)

/-- An invertible source ends with delta 0 (R151). -/
theorem tDescent_delta_eq_zero {u : TernaryPoly} (hu : productGF3 u p = ⟨0, 1⟩) : (tDescent p).2 = 0 := by
  rw [productGF3_eq_one_iff, ← residue_revCoeff_ternaryRevPoly hp htop] at hu
  rw [tDescent_delta hp]
  exact PolyDescent.delta_eq_zero_of_residue_mul (coeff_ternaryRevPoly_eq_zero p) (ternary_keeps_end p) hu

/-- The descent on any source whose inverse is p, p valid with top coefficient 0, returns p (R152). -/
theorem tDescent_eq_of_productGF3 {u : TernaryPoly} (hu : tValid u = true) (hu0 : pairAt u 700 = .zero)
    (hpu : productGF3 p u = ⟨0, 1⟩) : tDescent u = (p, 0) := by
  have hd := tDescent_delta_eq_zero hu hu0 hpu
  have hres := ternary_inverse_unique (tValid_tDescent u) hp (pairAt_tDescent_top u) htop (productGF3_tDescent hu hu0 hd) hpu
  exact Prod.ext hres hd

end

/-- Settles O41, by the descent on polynomials over GF(3) that the machine's descent follows; inverting twice gives the source
back because the source is an inverse of its inverse. -/
theorem ternaryDescentInverts : Obligations.TernaryDescentInverts := by
  intro p hp htop
  have hvalid := tValid_tDescent p
  have hzero := pairAt_tDescent_top p
  refine ⟨⟨fun hd => ⟨_, hvalid, productGF3_tDescent hp htop hd⟩,
    fun ⟨_, _, hu⟩ => tDescent_delta_eq_zero hp htop hu⟩, fun hd => ?_⟩
  have hinv := productGF3_tDescent hp htop hd
  exact ⟨hvalid, hzero, hinv, tDescent_eq_of_productGF3 hp htop hvalid hzero (productGF3_eq_one_comm.mp hinv),
    fun u hu hu0 hup => ternary_inverse_unique hu hvalid hu0 hzero hup hinv⟩

end Sys2Proof.Proofs
end

section
/-!
The mod-Q commands that write one register and touch no flag (R161, R163 to R167, R171, R172), and QANORM (R162), which only
tests the padding. Each of the former ends in one write of 701 coefficients with padding 0, so its statement is that write's
frame and a fact about the coefficients written.
-/

namespace Sys2Proof.Proofs

open Sys2Proof Sys2Proof.Machine

/-! ### The register written -/

theorem advance_setCoeffs_read (s : State) (r : Reg) (c : Coeffs) : (s.setCoeffs r c).advance.q[r] = withPadding c :=
  file_set_same s.q r _

/-- A command that ends in a write of coefficients writes nothing else, leaves the padding 0, and the register read back is known
slot by slot. -/
theorem completes_coeffs {i : Instr} {s : State} {qd : Reg} {c : Coeffs} {f : Nat → Coeff}
    (hexec : exec i s = .next (s.setCoeffs qd c).advance) (hcoef : ∀ k < 701, coef c k = f k) :
    ∃ t, exec i s = .next t ∧ RetiredQuietly s t [] [] [qd] [] ∧ PaddingZero t.q[qd] ∧
      ∀ k < 701, coef t.q[qd] k = f k := by
  refine ⟨_, hexec, retiredQuietly_setCoeffs s qd c, ?_⟩
  rw [advance_setCoeffs_read]
  exact ⟨paddingZero_withPadding c, fun k hk => (coef_withPadding c k).trans (hcoef k hk)⟩

/-! ### The padding -/

theorem paddingDirty_iff (s : State) (r : Reg) : s.paddingDirty r = true ↔ ¬ PaddingZero s.q[r] := by
  simp only [State.paddingDirty, PaddingZero, Bool.or_eq_true, bne_iff_ne, not_and_or, or_assoc, ne_eq]

/-- Settles O42: QNORM writes back the coefficients it reads, and QANORM notes `paddingDirty`. -/
theorem paddingCommands : Obligations.PaddingCommands := by
  intro s r
  obtain ⟨hframe, hmem⟩ := retired_noteAssertion (retiredQuietly_advance s) (s.paddingDirty r)
  refine ⟨⟨decodeEncode (.qnorm r), completes_coeffs rfl fun _ hk => coef_coeffs s r hk⟩,
    ⟨decodeEncode (.qanorm r), _, rfl, hframe, hmem, ?afail⟩⟩
  case afail =>
    rw [advance_afail, noteAssertion_afail, Bool.or_eq_true, paddingDirty_iff]

/-! ### Coefficient by coefficient -/

/-- The coefficients of a multiple of x - 1 sum to 0: the differences telescope, and the top one returns at 0 (R165). -/
theorem sum_coef_mulXm1 (c : Coeffs) : ∑ i ∈ Finset.range 701, coef (mulXm1 c) i = 0 := by
  have hdiff : ∑ i ∈ Finset.range 700, coef (mulXm1 c) (i + 1) = ∑ i ∈ Finset.range 700, (coef c i - coef c (i + 1)) :=
    Finset.sum_congr rfl fun i hi => coef_mulXm1_succ c i (Finset.mem_range.mp hi)
  rw [Finset.sum_range_succ', hdiff, Finset.sum_range_sub', coef_mulXm1_zero]
  ring

/-- QMULXM1 by the slots of its register (R165). -/
theorem qmulxm1_completes (s : State) (qd : Reg) :
    ∃ t, exec (.qmulxm1 qd) s = .next t ∧ RetiredQuietly s t [] [] [qd] [] ∧ PaddingZero t.q[qd] ∧
      coef t.q[qd] 0 = coef s.q[qd] 700 - coef s.q[qd] 0 ∧
      (∀ i < 700, coef t.q[qd] (i + 1) = coef s.q[qd] i - coef s.q[qd] (i + 1)) ∧
      ∑ i ∈ Finset.range 701, coef t.q[qd] i = 0 := by
  refine ⟨_, rfl, retiredQuietly_setCoeffs s qd _, ?_⟩
  rw [advance_setCoeffs_read]
  simp only [coef_withPadding]
  refine ⟨paddingZero_withPadding _, ?_, fun i hi => ?_, sum_coef_mulXm1 _⟩
  · rw [coef_mulXm1_zero, coef_coeffs s qd (by decide), coef_coeffs s qd (by decide)]
  · rw [coef_mulXm1_succ _ i hi, coef_coeffs s qd (by omega), coef_coeffs s qd (by omega)]

/-- Settles O43, command by command, each operation read at one position. -/
theorem modQLanewise : Obligations.ModQLanewise := by
  intro s qd qa qb
  refine ⟨⟨decodeEncode (.qclamp qd), completes_coeffs rfl fun i hi => ?clamp⟩,
    ⟨decodeEncode (.qmodphi qd), completes_coeffs rfl fun i hi => ?modphi⟩,
    ⟨decodeEncode (.qmulxm1 qd), qmulxm1_completes s qd⟩,
    ⟨decodeEncode (.qadd qd qa qb), completes_coeffs rfl fun i hi => ?add⟩,
    ⟨decodeEncode (.qsub qd qa qb), completes_coeffs rfl fun i hi => ?sub⟩⟩
  case clamp => rw [coef_clampQ _ i hi, coef_coeffs s qd hi]
  case modphi => rw [coef_modphiQ _ i hi, coef_coeffs s qd hi, coef_coeffs s qd (by decide)]
  case add => rw [coef_addQ _ _ i hi, coef_coeffs s qa hi, coef_coeffs s qb hi]
  case sub => rw [coef_subQ _ _ i hi, coef_coeffs s qa hi, coef_coeffs s qb hi]

/-! ### The product -/

/-- The sum of R166 takes the second factor's 701 coefficients only. -/
theorem cyclicSum_congr_right (u : Nat → Coeff) {v v' : Nat → Coeff} (h : ∀ j < 701, v j = v' j) (k : Nat) :
    cyclicSum u v k = cyclicSum u v' k :=
  Finset.sum_congr rfl fun _ _ => Finset.sum_congr rfl fun j hj => by rw [h j (Finset.mem_range.mp hj)]

/-- Settles O44: the cyclic product is the sum of R166, and a register's coefficients are its slots, so the padding is ignored
(R167). -/
theorem modQProduct : Obligations.ModQProduct := by
  intro s qd qa qb
  refine ⟨decodeEncode (.qmul qd qa qb), completes_coeffs rfl fun k hk => ?_⟩
  calc coef (cycMul16 (s.coeffs qa) (s.coeffs qb)) k
      = cyclicSum (coef (s.coeffs qa)) (coef (s.coeffs qb)) k := coef_cycMul16_eq_cyclicSum _ _ hk
    _ = cyclicSum (coef s.q[qa]) (coef (s.coeffs qb)) k := cyclicSum_congr_left (fun _ hi => coef_coeffs s qa hi) _ k
    _ = cyclicSum (coef s.q[qa]) (coef s.q[qb]) k := cyclicSum_congr_right _ (fun _ hj => coef_coeffs s qb hj) k

end Sys2Proof.Proofs
end

section
/-!
The Newton steps of R169 in the ring of the cyclic products, R[x]/(x^701 - 1) over the 16-bit patterns R: what the inverse of R170
rests on. A step squares the error 1 - b·c; where the error is even modulo Φ(N) at the start, four steps bring it to a multiple
of 2^16 = 0 modulo Φ(N); and a multiple of Φ(N) has all its 701 coefficients equal, so that the reduction of R164 takes it away.
-/

namespace Sys2Proof.Proofs

open Sys2Proof Sys2Proof.Machine

/-! ### Coefficients in the ring of the cyclic products -/

/-- R[x]/(x^701 - 1), as the group ring of the cyclic group of order 701: the element k of the group is x^k. -/
abbrev CyclicRing : Type := AddMonoidAlgebra Coeff (ZMod 701)

/-- The element whose coefficient at x^k is `f k`. -/
noncomputable def cyclicOf (f : Nat → Coeff) : CyclicRing := .ofCoeff (Finsupp.equivFunOnFinite.symm fun k => f k.val)

@[simp] theorem coeff_cyclicOf (f : Nat → Coeff) (k : ZMod 701) : (cyclicOf f).coeff k = f k.val := rfl

theorem coeff_cyclicOf_natCast (f : Nat → Coeff) {k : Nat} (hk : k < 701) : (cyclicOf f).coeff k = f k := by
  rw [coeff_cyclicOf, ZMod.val_natCast_of_lt hk]

/-- Elements of the ring that agree at the 701 powers of x are equal. -/
theorem cyclicRing_ext {p q : CyclicRing} (h : ∀ k : Nat, k < 701 → p.coeff (k : ZMod 701) = q.coeff k) : p = q :=
  AddMonoidAlgebra.ext <| Finsupp.ext fun k => by
    rw [← ZMod.natCast_zmod_val k]
    exact h k.val k.val_lt

/-- A scalar stands at x^0. -/
theorem coeff_single_zero_natCast (r : Coeff) {k : Nat} (hk : k < 701) :
    (AddMonoidAlgebra.single 0 r : CyclicRing).coeff (k : ZMod 701) = if k = 0 then r else 0 := by
  have h0 : (0 : ZMod 701) = k ↔ k = 0 := by
    rw [eq_comm, ZMod.natCast_eq_zero_iff]
    exact ⟨fun hd => Nat.eq_zero_of_dvd_of_lt hd hk, fun h => h ▸ dvd_zero _⟩
  rw [AddMonoidAlgebra.coeff_single, Finsupp.single_apply, if_congr h0 rfl rfl]

/-- `cyc_mul_16` is the product of the ring (R166). -/
theorem cyclicOf_cycMul16 (u v : Coeffs) : cyclicOf (coef (cycMul16 u v)) = cyclicOf (coef u) * cyclicOf (coef v) := by
  refine cyclicRing_ext fun k hk => ?_
  rw [coeff_cyclicOf_natCast _ hk, coef_cycMul16 _ _ _ hk, Finset.sum_range, AddMonoidAlgebra.coeff_mul_apply_left,
    Finsupp.sum_fintype _ _ fun _ => zero_mul _]
  refine Finset.sum_congr rfl fun (i : ZMod 701) _ => ?_
  have hsub : (-i + k).val = (k + 701 - i.val) % 701 := by
    have hi := i.val_lt
    rw [ZMod.val_add, ZMod.neg_val', ZMod.val_natCast_of_lt hk]
    omega
  rw [coeff_cyclicOf, coeff_cyclicOf, hsub]
  rfl

theorem cyclicOf_negQ (c : Coeffs) : cyclicOf (coef (negQ c)) = -cyclicOf (coef c) := by
  refine cyclicRing_ext fun k hk => ?_
  rw [AddMonoidAlgebra.coeff_neg, Finsupp.neg_apply, coeff_cyclicOf_natCast _ hk, coeff_cyclicOf_natCast _ hk,
    coef_negQ _ _ hk, zero_sub]

theorem cyclicOf_newtonFactor (a b : Coeffs) :
    cyclicOf (coef (newtonFactor a b)) = cyclicOf (coef a) * cyclicOf (coef b) + 2 := by
  refine cyclicRing_ext fun k hk => ?_
  rw [← cyclicOf_cycMul16, AddMonoidAlgebra.coeff_add, Finsupp.add_apply, AddMonoidAlgebra.ofNat_def,
    coeff_single_zero_natCast _ hk, coeff_cyclicOf_natCast _ hk, coeff_cyclicOf_natCast _ hk, coef_newtonFactor _ _ hk]

theorem cyclicOf_newtonIterate_succ (c : Coeffs) (n : Nat) :
    cyclicOf (coef (newtonIterate c (n + 1))) =
      cyclicOf (coef (newtonIterate c n)) * (2 - cyclicOf (coef (newtonIterate c n)) * cyclicOf (coef c)) := by
  rw [newtonIterate_succ, cyclicOf_cycMul16, newtonTmp, cyclicOf_newtonFactor, cyclicOf_negQ]
  ring

/-! ### The error of the Newton steps -/

/-- The product of the approximation b after n steps with the source. -/
def newtonProduct (c : Coeffs) (n : Nat) : Coeffs := cycMul16 (newtonIterate c n) c

/-- The error 1 - b·c after n steps. -/
noncomputable def newtonError (c : Coeffs) (n : Nat) : CyclicRing := 1 - cyclicOf (coef (newtonProduct c n))

theorem coeff_newtonError (c : Coeffs) (n : Nat) {k : Nat} (hk : k < 701) :
    (newtonError c n).coeff (k : ZMod 701) = (if k = 0 then 1 else 0) - coef (newtonProduct c n) k := by
  rw [newtonError, AddMonoidAlgebra.coeff_sub, Finsupp.sub_apply, AddMonoidAlgebra.one_def,
    coeff_single_zero_natCast 1 hk, coeff_cyclicOf_natCast _ hk]

/-- A step squares the error (R169). -/
theorem newtonError_succ (c : Coeffs) (n : Nat) : newtonError c (n + 1) = newtonError c n ^ 2 := by
  rw [newtonError, newtonError, newtonProduct, newtonProduct, cyclicOf_cycMul16, cyclicOf_cycMul16, cyclicOf_newtonIterate_succ]
  ring

theorem newtonError_four (c : Coeffs) : newtonError c 4 = newtonError c 0 ^ 16 := by
  rw [newtonError_succ, newtonError_succ, newtonError_succ, newtonError_succ]
  ring

/-! ### Multiples of Φ(N) -/

/-- Φ(N), all of whose coefficients are 1 (R10). -/
noncomputable def cyclicPhi : CyclicRing := cyclicOf fun _ => 1

/-- Φ(N)·x = Φ(N) modulo x^701 - 1. -/
theorem cyclicPhi_mul_x : cyclicPhi * .single 1 1 = cyclicPhi :=
  cyclicRing_ext fun k _ => by
    rw [AddMonoidAlgebra.coeff_mul_single_apply, mul_one]
    rfl

/-- An element whose coefficients are all equal is a multiple of Φ(N). -/
theorem cyclicPhi_dvd_of_coeff_eq {p : CyclicRing} {r : Coeff} (h : ∀ k : Nat, k < 701 → p.coeff (k : ZMod 701) = r) :
    cyclicPhi ∣ p := by
  refine ⟨.single 0 r, cyclicRing_ext fun k hk => ?_⟩
  rw [AddMonoidAlgebra.coeff_mul_single_zero, cyclicPhi, coeff_cyclicOf, one_mul, h k hk]

/-- All coefficients of a multiple of Φ(N) are equal. -/
theorem coeff_eq_of_cyclicPhi_dvd {p : CyclicRing} (h : cyclicPhi ∣ p) (k : Nat) : p.coeff (k : ZMod 701) = p.coeff 0 := by
  have hx : p * .single 1 1 = p := by
    obtain ⟨q, rfl⟩ := h
    rw [mul_right_comm, cyclicPhi_mul_x]
  induction k with
  | zero => rw [Nat.cast_zero]
  | succ k ih =>
    rw [← ih]
    nth_rw 1 [← hx]
    rw [AddMonoidAlgebra.coeff_mul_single_apply, mul_one, Nat.cast_succ, add_neg_cancel_right]

/-! ### From an even error to none -/

/-- 16 bits: 2^16 is 0. -/
theorem cyclicRing_two_pow : (2 : CyclicRing) ^ 16 = 0 := by
  have h : (2 : Coeff) ^ 16 = 0 := by decide
  rw [AddMonoidAlgebra.ofNat_def, AddMonoidAlgebra.single_pow, h, AddMonoidAlgebra.single_zero]

/-- An error that is even modulo Φ(N) is a multiple of Φ(N) after four squarings. -/
theorem cyclicPhi_dvd_pow {p q : CyclicRing} (h : cyclicPhi ∣ p - 2 * q) : cyclicPhi ∣ p ^ 16 := by
  have hpow : cyclicPhi ∣ p ^ 16 - (2 * q) ^ 16 := h.trans (sub_dvd_pow_sub_pow _ _ 16)
  rwa [mul_pow, cyclicRing_two_pow, zero_mul, sub_zero] at hpow

end Sys2Proof.Proofs
end

section
/-!
QINV, QMUL, QMODPHI and QCLAMP leave the polynomial 1 (R170). Modulo 2 the cyclic product on 16-bit patterns is that of GF(2), so
the vector of a descent that ends with `delta` 0 inverts the source modulo (2, Φ(N)), and the Newton steps start from an even
error.
-/

namespace Sys2Proof.Proofs

open Sys2Proof Sys2Proof.Machine

/-! ### Coefficients modulo 2 -/

/-- Reducing a number modulo 2^16 first does not change it modulo 2. -/
theorem natCast_mod_coeff (n : Nat) : ((n % 2 ^ 16 : Nat) : ZMod 2) = n := by
  rw [ZMod.natCast_eq_natCast_iff']
  omega

/-- A coefficient modulo 2, in GF(2) (R211). -/
def parity : Coeff →+* ZMod 2 where
  toFun x := x.toNat
  map_zero' := rfl
  map_one' := rfl
  map_add' x y := by rw [BitVec.toNat_add, natCast_mod_coeff, Nat.cast_add]
  map_mul' x y := by rw [BitVec.toNat_mul, natCast_mod_coeff, Nat.cast_mul]

theorem parity_eq_bitValue (x : Coeff) : parity x = bitValue (x.getLsbD 0) := by
  have h : x.getLsbD 0 = (x.toNat % 2 == 1) := by
    rw [BitVec.getLsbD, Nat.testBit_zero, beq_eq_decide]
  rw [h, bitValue_parity]
  rfl

/-- A coefficient that is 0 modulo 2 is twice another. -/
theorem exists_eq_two_mul_of_parity {x : Coeff} (h : parity x = 0) : ∃ z, x = 2 * z := by
  obtain ⟨m, hm⟩ := (ZMod.natCast_eq_zero_iff x.toNat 2).mp h
  refine ⟨BitVec.ofNat 16 m, BitVec.eq_of_toNat_eq ?_⟩
  have hx := x.isLt
  calc x.toNat = 2 * (m % 2 ^ 16) % 2 ^ 16 := by omega
    _ = (2 * BitVec.ofNat 16 m).toNat := by rw [BitVec.toNat_mul, BitVec.toNat_ofNat]; rfl

theorem parity_coef (c : Coeffs) {i : Nat} (hi : i < 701) : parity (coef c i) = bitCoeff (bitsOfCoeffs c) i := by
  rw [parity_eq_bitValue, bitCoeff, getLsbD_bitsOfCoeffs c i hi]

/-- The residue modulo (2, Φ(N)) of a product on 16-bit patterns is the product of the residues (R166). -/
theorem residue_parity_cycMul16 (u v : Coeffs) :
    residue (fun k => parity (coef (cycMul16 u v) k)) =
      residue (fun i => parity (coef u i)) * residue (fun j => parity (coef v j)) := by
  refine residue_cyclic fun k hk => ?_
  simp only [coef_cycMul16_eq_cyclicSum u v hk, cyclicSum, map_sum, apply_ite parity, map_mul, map_zero]

/-! ### The start of the Newton steps -/

/-- A list whose residue is 1 is 1 once its top coefficient is subtracted everywhere. -/
theorem sub_top_eq_oneCoeff {K : Type} [Field K] {a : Nat → K} (h : residue a = 1) {i : Nat} (hi : i < 701) :
    a i - a 700 = oneCoeff i :=
  residue_injective (a := fun i => a i - a 700) (sub_self _) rfl ((residue_sub_top a).trans (h.trans residue_oneCoeff.symm)) i hi

/-- The first approximation is the descent's vector (R169). -/
theorem parity_coef_newtonIterate_zero (c : Coeffs) {i : Nat} (hi : i < 701) :
    parity (coef (newtonIterate c 0) i) = bitCoeff (bDescent (invSource c)).1 i := by
  rw [coef_newtonIterate_zero c hi, bitCoeff, bitValue, apply_ite parity, map_one, map_zero]

variable {c : Coeffs}

/-- The descent's vector is an inverse modulo (2, Φ(N)) of the coefficients (R120, R169). -/
theorem residue_parity_start (hd : (bDescent (invSource c)).2 = 0) :
    residue (fun k => parity (coef (newtonProduct c 0) k)) = 1 := by
  have hinv := (modphi2_cycMul2_eq_one_iff _ _).mp (modphi2_cycMul2_bDescent (getLsbD_modphi2_top (bitsOfCoeffs c)) hd)
  rw [residue_modphi2] at hinv
  rw [newtonProduct, residue_parity_cycMul16, residue_congr fun _ hi => parity_coef_newtonIterate_zero c hi,
    residue_congr fun _ hi => parity_coef c hi]
  exact hinv

/-- Reduced modulo Φ(N), the product at the start differs from 1 by even coefficients. -/
theorem exists_two_mul_start (hd : (bDescent (invSource c)).2 = 0) {k : Nat} (hk : k < 701) :
    ∃ z, (if k = 0 then 1 else 0) - (coef (newtonProduct c 0) k - coef (newtonProduct c 0) 700) = 2 * z := by
  apply exists_eq_two_mul_of_parity
  rw [map_sub, map_sub, sub_top_eq_oneCoeff (residue_parity_start hd) hk, oneCoeff, apply_ite parity, map_one, map_zero, sub_self]

/-- The error at the start is even modulo Φ(N). -/
theorem newtonError_zero_even (hd : (bDescent (invSource c)).2 = 0) : ∃ q, cyclicPhi ∣ newtonError c 0 - 2 * q := by
  choose! z hz using fun (k : Nat) (hk : k < 701) => exists_two_mul_start hd hk
  refine ⟨cyclicOf z, cyclicPhi_dvd_of_coeff_eq (r := -coef (newtonProduct c 0) 700) fun k hk => ?_⟩
  rw [two_mul, AddMonoidAlgebra.coeff_sub, Finsupp.sub_apply, AddMonoidAlgebra.coeff_add, Finsupp.add_apply,
    coeff_newtonError c 0 hk, coeff_cyclicOf_natCast z hk, ← two_mul, ← hz k hk]
  ring

/-- After the four steps the product with the source, reduced modulo Φ(N), is 1 on all 16 bits (R170). -/
theorem coef_modphiQ_inverse (hd : (bDescent (invSource c)).2 = 0) {k : Nat} (hk : k < 701) :
    coef (modphiQ (newtonProduct c 4)) k = if k = 0 then 1 else 0 := by
  obtain ⟨q, hq⟩ := newtonError_zero_even hd
  have hdvd : cyclicPhi ∣ newtonError c 4 := newtonError_four c ▸ cyclicPhi_dvd_pow hq
  have heq : (newtonError c 4).coeff (k : ZMod 701) = (newtonError c 4).coeff (700 : Nat) :=
    (coeff_eq_of_cyclicPhi_dvd hdvd k).trans (coeff_eq_of_cyclicPhi_dvd hdvd 700).symm
  rw [coeff_newtonError c 4 hk, coeff_newtonError c 4 (by decide), if_neg (show ¬ 700 = 0 by decide), zero_sub,
    sub_eq_iff_eq_add] at heq
  rw [coef_modphiQ _ k hk, heq]
  ring

/-! ### The four commands -/

theorem advance_setCoeffs_coeffs (s : State) (r : Reg) (c : Coeffs) : (s.setCoeffs r c).advance.coeffs r = c :=
  (setCoeffs_coeffs s r r c).trans (if_pos rfl)

/-- Where the descent ends with `delta` 0, QINV writes the inverse and leaves AFAIL and the other mod-Q registers alone (R169). -/
theorem qinv_of_delta_zero (s : State) (q0 q1 : Reg) (hd : (bDescent (invSource (s.coeffs q0))).2 = 0) :
    ∃ t, exec (.qinv q1 q0) s = .next t ∧ t.afail = s.afail ∧ t.coeffs q1 = newtonIterate (s.coeffs q0) 4 ∧
      ∀ r ≠ q1, t.coeffs r = s.coeffs r := by
  obtain ⟨t, hexec, hframe, -, hwritten, hafail⟩ := qinv_completes s q1 q0 (invQ_eq (s.coeffs q0))
  refine ⟨t, hexec, ?afail, ?written, fun r hr => ?frame⟩
  case afail =>
    rw [Bool.eq_iff_iff, hafail]
    exact or_iff_left (not_not_intro hd)
  case written => rw [State.coeffs, hwritten, dropPadding_withPadding]
  case frame => rw [State.coeffs, hframe.modQ r (by simpa using hr), State.coeffs]

/-- Settles O46: the product reduced modulo Φ(N) is 1 on all 16 bits, which the clamp leaves. -/
theorem modQInverseInverts : Obligations.ModQInverseInverts := by
  intro s q0 q1 q2 hne hd
  obtain ⟨s1, hexec, hafail, hinverse, hframe⟩ := qinv_of_delta_zero s q0 q1 hd
  refine ⟨s1, _, _, _, hexec, rfl, rfl, rfl, hafail, fun i hi => ?_⟩
  rw [advance_setCoeffs_read, coef_withPadding, coef_clampQ _ i hi, advance_setCoeffs_coeffs, advance_setCoeffs_coeffs, hinverse,
    hframe q0 hne.symm, ← newtonProduct, coef_modphiQ_inverse hd hi]
  split
  · rfl
  · rfl

end Sys2Proof.Proofs
end

section
/-!
The single-coefficient helpers of R186 to R188, and 16-bit patterns read as signed integers: arithmetic on integers that stay
within 16 bits is arithmetic on the patterns.
-/

namespace Sys2Proof.Proofs

open Sys2Proof Sys2Proof.Machine

/-! ### mod3 (R186) -/

theorem mod3_eq_emod (x : Int) : (mod3 x : Int) = x % 3 :=
  Int.toNat_of_nonneg (Int.emod_nonneg x (by decide))

theorem mod3_lt (x : Int) : mod3 x < 3 := by
  have h := Int.emod_lt_of_pos x (show 0 < 3 by decide)
  rw [← mod3_eq_emod] at h
  omega

/-- What the reciprocal multiply of R186 leaves of x: x minus three times the quotient estimated with 21845 (G3). -/
def reciprocalRemainder (x : BitVec 16) : Int := x.toInt - 3 * ((x.toInt * 21845) / 65536)

/-- The estimate is at most one too small. -/
theorem reciprocalRemainder_bounds (x : BitVec 16) : 0 ≤ reciprocalRemainder x ∧ reciprocalRemainder x ≤ 3 := by
  have hlow := BitVec.le_toInt x
  have hhigh := BitVec.toInt_lt (x := x)
  rw [reciprocalRemainder]
  omega

/-- The mask of R186 maps 3 to 0 and leaves 0, 1 and 2. -/
theorem toNat_clearThree {r : Int} (hlow : 0 ≤ r) (hhigh : r ≤ 3) :
    ((BitVec.ofInt 16 r &&& ((BitVec.ofInt 16 r &&& BitVec.ofInt 16 r >>> 1) - 1)).toNat : Int) = r % 3 := by
  interval_cases r
  · decide
  · decide
  · decide
  · decide

theorem toNat_mod3Formula (x : BitVec 16) : ((mod3Formula x).toNat : Int) = x.toInt % 3 := by
  obtain ⟨hlow, hhigh⟩ := reciprocalRemainder_bounds x
  calc ((mod3Formula x).toNat : Int) = reciprocalRemainder x % 3 := toNat_clearThree hlow hhigh
    _ = x.toInt % 3 := Int.sub_mul_emod_self_left _ _ _

/-- Settles O48: the formula and the model's function have the same remainder. -/
theorem mod3Formula : Obligations.Mod3Formula := fun x =>
  ⟨toNat_mod3Formula x, mod3_lt _, Int.ofNat_inj.mp ((toNat_mod3Formula x).trans (mod3_eq_emod _).symm)⟩

/-! ### T16 patterns (R188) -/

theorem t16_mem (m : Nat) : t16 m = 0 ∨ t16 m = 1 ∨ t16 m = 0xFFFF := by
  rw [t16]
  split
  · exact .inl rfl
  · split
    · exact .inr (.inl rfl)
    · exact .inr (.inr rfl)

/-- The T16 pattern of a remainder is that of its value in GF(3). -/
theorem t16_mod3 (x : Int) : t16 (mod3 x) = t16Of x := by
  have hvalue : ((mod3 x : Nat) : ZMod 3) = x := by
    rw [← Int.cast_natCast, mod3_eq_emod]
    exact ZMod.intCast_mod x 3
  have htable : ∀ m < 3, t16 m = t16Of (m : ZMod 3) := by decide
  rw [htable _ (mod3_lt x), hvalue]

/-- A T16 pattern is a signed number of absolute value at most 1. -/
theorem abs_toInt_le_one {v : Coeff} (h : v = 0 ∨ v = 1 ∨ v = 0xFFFF) : |v.toInt| ≤ 1 := by
  obtain rfl | rfl | rfl := h
  · decide
  · decide
  · decide

/-- The value in GF(3) of a T16 pattern is that of the signed number (R191). -/
theorem t16Value_eq_toInt {v : Coeff} (h : v = 0 ∨ v = 1 ∨ v = 0xFFFF) : t16Value v = (v.toInt : ZMod 3) := by
  obtain rfl | rfl | rfl := h
  · decide
  · decide
  · decide

/-! ### Signed 16-bit numbers -/

theorem intCast_toInt (v : Coeff) : ((v.toInt : Int) : Coeff) = v := BitVec.ofInt_toInt

/-- An integer within 16 bits is read back from its pattern. -/
theorem toInt_intCast {z : Int} (h : |z| < 32768) : ((z : Int) : Coeff).toInt = z := by
  obtain ⟨hlow, hhigh⟩ := abs_lt.mp h
  exact BitVec.toInt_ofInt_eq_self (by decide) (by omega) (by omega)

/-- Bit 15 is the sign. -/
theorem getLsbD_sign_intCast {z : Int} (h : |z| < 32768) : ((z : Int) : Coeff).getLsbD 15 = decide (z < 0) := by
  have hmsb := BitVec.msb_eq_toInt (x := ((z : Int) : Coeff))
  rwa [toInt_intCast h, BitVec.msb_eq_getLsbD_last] at hmsb

end Sys2Proof.Proofs
end

section
/-!
The ternary sampler: QSAMPLE (R189) and QSAMPLEP (R190). The sum over the neighbours of a T16 list lies in -699 to 699, so its
negation is not negative where it is.
-/

namespace Sys2Proof.Proofs

open Sys2Proof Sys2Proof.Machine

theorem takesFault_of_exec {i : Instr} {c : FaultCause} {s : State} (h : exec i s = .next (s.raiseFault c)) :
    TakesFault i c s := ⟨_, h, raised_raiseFault c s⟩

/-- Settles O49: one write of a short sample of the bytes at the address. -/
theorem sample : Obligations.Sample := by
  intro s qd imm
  refine ⟨decodeEncode (.qsample qd imm), fun hout => takesFault_of_exec (exec_qsample_fault s qd imm hout), fun hin =>
    ⟨_, exec_qsample_ok s qd imm hin, retiredQuietly_setCoeffs s qd _, ?_⟩⟩
  simp only [advance_setCoeffs_read, coef_withPadding]
  refine ⟨paddingZero_withPadding _, coef_shortSample_top _ _, fun i hi => ?_⟩
  rw [coef_shortSample _ _ i hi, getD_memRead _ _ _ _ hi, mod3, sampleByte]

/-! ### The sum over the neighbours -/

theorem t16Form_shortSample (signed : Bool) (bytes : List Byte) : T16Form (shortSample signed bytes) := by
  intro i hi
  obtain h | rfl : i < 700 ∨ i = 700 := by omega
  · rw [coef_shortSample _ _ i h]
    exact t16_mem _
  · exact .inl (coef_shortSample_top _ _)

/-- The sum of R190 over signed numbers. -/
def signedNeighbourSum (p : Coeffs) : Int := ∑ i ∈ Finset.range 699, (coef p i).toInt * (coef p (i + 1)).toInt

theorem neighbourSum_eq_intCast (p : Coeffs) : neighbourSum p = (signedNeighbourSum p : Int) := by
  rw [neighbourSum, signedNeighbourSum, Int.cast_sum]
  exact Finset.sum_congr rfl fun i _ => by rw [Int.cast_mul, intCast_toInt, intCast_toInt]

/-- The 16-bit sum never loses the sign (R190). -/
theorem abs_signedNeighbourSum_le {p : Coeffs} (hp : T16Form p) : |signedNeighbourSum p| ≤ 699 := by
  refine (Finset.abs_sum_le_sum_abs _ _).trans ((Finset.sum_le_card_nsmul _ _ 1 fun i hi => ?_).trans (by simp))
  have hi := Finset.mem_range.mp hi
  rw [abs_mul]
  exact mul_le_one₀ (abs_toInt_le_one (hp i (by omega))) (abs_nonneg _) (abs_toInt_le_one (hp (i + 1) (by omega)))

/-- Of two neighbours one has an even index, so the correction negates every product. -/
theorem neighbourSum_plusCorrection (p : Coeffs) :
    neighbourSum (plusCorrection p) = if (neighbourSum p).getLsbD 15 then -neighbourSum p else neighbourSum p := by
  cases hsign : (neighbourSum p).getLsbD 15 with
  | false => rw [plusCorrection, hsign, if_neg Bool.false_ne_true, if_neg Bool.false_ne_true]
  | true =>
    rw [if_pos rfl, neighbourSum, neighbourSum, ← Finset.sum_neg_distrib]
    refine Finset.sum_congr rfl fun i hi => ?_
    have hi := Finset.mem_range.mp hi
    rw [coef_plusCorrection p i (by omega), coef_plusCorrection p (i + 1) (by omega), hsign]
    obtain h | h := Nat.mod_two_eq_zero_or_one i
    · have hsucc : (i + 1) % 2 = 1 := by omega
      simp [h, hsucc]
    · have hsucc : (i + 1) % 2 = 0 := by omega
      simp [h, hsucc]

/-- After the correction the sum over the neighbours is not negative (R190). -/
theorem neighbourSum_plusCorrection_nonneg {p : Coeffs} (hp : T16Form p) :
    (neighbourSum (plusCorrection p)).getLsbD 15 = false := by
  have hbound := abs_signedNeighbourSum_le hp
  have hsign : (neighbourSum p).getLsbD 15 = decide (signedNeighbourSum p < 0) := by
    rw [neighbourSum_eq_intCast, getLsbD_sign_intCast (by omega)]
  rw [neighbourSum_plusCorrection, hsign]
  by_cases hneg : signedNeighbourSum p < 0
  · rw [if_pos (decide_eq_true hneg), neighbourSum_eq_intCast, ← Int.cast_neg, getLsbD_sign_intCast (by rw [abs_neg]; omega)]
    exact decide_eq_false (by omega)
  · rw [decide_eq_false hneg] at hsign ⊢
    rwa [if_neg Bool.false_ne_true]

/-- Settles O50: one write of the corrected sample that QSAMPLE would write. -/
theorem samplePlus : Obligations.SamplePlus := by
  intro s qd imm
  refine ⟨decodeEncode (.qsamplep qd imm), fun hout => takesFault_of_exec (exec_qsamplep_fault s qd imm hout), fun hin =>
    ⟨_, _, exec_qsample_ok s qd imm hin, exec_qsamplep_ok s qd imm hin, retiredQuietly_setCoeffs s qd _, ?_⟩⟩
  simp only [advance_setCoeffs_read, coef_withPadding]
  exact ⟨paddingZero_withPadding _, fun i hi => coef_plusCorrection _ i hi,
    neighbourSum_plusCorrection_nonneg (t16Form_shortSample _ _)⟩

end Sys2Proof.Proofs
end

section
/-!
The recurrence of the lift (R192) over any ring: what its first three values and its two sums give in GF(3), and how far it
can grow over the integers.
-/

namespace Sys2Proof.Proofs

open Sys2Proof Sys2Proof.Machine

/-! ### Over any ring -/

section
variable {R S : Type} [CommRing R] [CommRing S]

/-- `s0` of R192. -/
def liftSum0 (a : Nat → R) : R := (∑ j ∈ Finset.range 232, (a (3 * j + 5) - a (3 * j + 3))) - a 699

/-- `s2` of R192. -/
def liftSum2 (a : Nat → R) : R := (∑ j ∈ Finset.range 232, (a (3 * j + 4) - a (3 * j + 5))) + a 700

/-- Phases 1 and 2 of R192. -/
def liftSeq (a : Nat → R) : Nat → R
  | 0 => a 0 + a 2 + liftSum0 a
  | 1 => a 1 - (liftSum0 a + liftSum2 a)
  | 2 => a 2 - a 0 + liftSum2 a
  | i + 3 => liftSeq a i - (a (i + 1) + a (i + 2) + a (i + 3))

theorem liftSeq_add_three (a : Nat → R) (i : Nat) :
    liftSeq a (i + 3) = liftSeq a i - (a (i + 1) + a (i + 2) + a (i + 3)) := rfl

theorem map_liftSum0 (f : R →+* S) (a : Nat → R) : f (liftSum0 a) = liftSum0 fun k => f (a k) := by
  simp only [liftSum0, map_sub, map_sum]

theorem map_liftSum2 (f : R →+* S) (a : Nat → R) : f (liftSum2 a) = liftSum2 fun k => f (a k) := by
  simp only [liftSum2, map_add, map_sub, map_sum]

/-- A homomorphism takes the recurrence to the recurrence. -/
theorem map_liftSeq (f : R →+* S) (a : Nat → R) : ∀ i, f (liftSeq a i) = liftSeq (fun k => f (a k)) i
  | 0 => by rw [liftSeq, liftSeq, map_add, map_add, map_liftSum0]
  | 1 => by rw [liftSeq, liftSeq, map_sub, map_add, map_liftSum0, map_liftSum2]
  | 2 => by rw [liftSeq, liftSeq, map_add, map_sub, map_liftSum2]
  | i + 3 => by rw [liftSeq, liftSeq, map_sub, map_add, map_add, map_liftSeq f a i]

end

/-- The model's phases 1 and 2 are the recurrence on 16-bit patterns. -/
theorem liftRaw_eq_liftSeq (c : Coeffs) : ∀ i, liftRaw c i = liftSeq (coef c) i
  | 0 | 1 | 2 => rfl
  | i + 3 => by rw [liftRaw, liftSeq, liftRaw_eq_liftSeq c i]

/-! ### Over GF(3): the quotient by x - 1 -/

section
variable (a : Nat → ZMod 3)

/-- The k of R191: the value at which (x - 1)·b differs from the source by k·Φ(N). -/
def liftShift : ZMod 3 := a 0 + a 1 + a 2 - liftSum0 a + liftSum2 a

theorem three_eq_zero : (3 : ZMod 3) = 0 := by decide

/-- Neighbours of the recurrence differ by the source and the shift. -/
theorem liftSeq_sub_succ : ∀ i, liftSeq a i - liftSeq a (i + 1) = a (i + 1) + liftShift a
  | 0 => by
    rw [liftSeq, liftSeq, liftShift]
    linear_combination (liftSum0 a - a 1) * three_eq_zero
  | 1 => by
    rw [liftSeq, liftSeq, liftShift]
    linear_combination (-a 2 - liftSum2 a) * three_eq_zero
  | 2 => by
    have h0 := liftSeq_sub_succ 0
    have h1 := liftSeq_sub_succ 1
    linear_combination -h0 - h1 - liftSeq_add_three a 0 - liftShift a * three_eq_zero
  | i + 3 => by
    linear_combination liftSeq_sub_succ i + liftSeq_add_three a i - liftSeq_add_three a (i + 1)

/-- A sum over 3n indices, three at a time. -/
theorem sum_range_three_mul {M : Type} [AddCommMonoid M] (f : Nat → M) (n : Nat) :
    ∑ i ∈ Finset.range (3 * n), f i = ∑ j ∈ Finset.range n, (f (3 * j) + f (3 * j + 1) + f (3 * j + 2)) := by
  induction n with
  | zero => rfl
  | succ n ih => rw [Finset.sum_range_succ, ← ih, Nat.mul_succ, Finset.sum_range_succ, Finset.sum_range_succ,
      Finset.sum_range_succ, add_assoc, add_assoc, add_assoc]

/-- The shift is the value of the source at 1. -/
theorem liftShift_eq_sum : liftShift a = ∑ i ∈ Finset.range 701, a i := by
  have htriples : ∑ i ∈ Finset.range 699, a i =
      (∑ j ∈ Finset.range 232, (a (3 * j + 3) + a (3 * j + 4) + a (3 * j + 5))) + (a 0 + a 1 + a 2) := by
    rw [show 699 = 3 * 233 from rfl, sum_range_three_mul, Finset.sum_range_succ']
    rfl
  have hsums : liftSum2 a - liftSum0 a =
      (∑ j ∈ Finset.range 232, (a (3 * j + 3) + a (3 * j + 4) + a (3 * j + 5))) + a 699 + a 700 := by
    have hterms : ∑ j ∈ Finset.range 232, (a (3 * j + 3) + a (3 * j + 4) + a (3 * j + 5)) =
        (∑ j ∈ Finset.range 232, (a (3 * j + 4) - a (3 * j + 5))) -
          ∑ j ∈ Finset.range 232, (a (3 * j + 5) - a (3 * j + 3)) := by
      rw [← Finset.sum_sub_distrib]
      refine Finset.sum_congr rfl fun j _ => ?_
      linear_combination a (3 * j + 5) * three_eq_zero
    rw [liftSum2, liftSum0, hterms]
    ring
  rw [Finset.sum_range_succ, Finset.sum_range_succ, htriples, liftShift]
  linear_combination hsums

/-- The recurrence closes up: its last value and its first differ as neighbours do. -/
theorem liftSeq_last_sub_first : liftSeq a 700 - liftSeq a 0 = a 0 + liftShift a := by
  have htelescope : liftSeq a 0 - liftSeq a 700 = (∑ i ∈ Finset.range 700, a (i + 1)) + 700 * liftShift a := by
    rw [← Finset.sum_range_sub', Finset.sum_congr rfl fun i _ => liftSeq_sub_succ a i, Finset.sum_add_distrib,
      Finset.sum_const, Finset.card_range, nsmul_eq_mul]
    rfl
  have hsum := liftShift_eq_sum a
  rw [Finset.sum_range_succ'] at hsum
  linear_combination hsum - htelescope - 234 * liftShift a * three_eq_zero

/-- Modulo (3, Φ(N)) the recurrence is the quotient of the source by x - 1 (R191). -/
theorem liftSeq_quotient {i : Nat} (hi : i < 701) :
    liftSeq a ((i + 700) % 701) - liftSeq a i = a i + liftShift a := by
  cases i with
  | zero => exact liftSeq_last_sub_first a
  | succ i =>
    rw [show (i + 1 + 700) % 701 = i by omega]
    exact liftSeq_sub_succ a i

end

/-! ### Over the integers: the bounds of R192 -/

section
variable {a : Nat → Int} (ha : ∀ i, |a i| ≤ 1)
include ha

theorem abs_sum_sub_le (f g : Nat → Nat) (n : Nat) : |∑ j ∈ Finset.range n, (a (f j) - a (g j))| ≤ 2 * n := by
  refine (Finset.abs_sum_le_sum_abs _ _).trans ((Finset.sum_le_card_nsmul _ _ 2 fun j _ => ?_).trans ?_)
  · exact (abs_sub _ _).trans (add_le_add (ha _) (ha _))
  · rw [Finset.card_range, nsmul_eq_mul, mul_comm]

theorem abs_liftSum0_le : |liftSum0 a| ≤ 465 :=
  (abs_sub _ _).trans (add_le_add (abs_sum_sub_le ha _ _ 232) (ha 699))

theorem abs_liftSum2_le : |liftSum2 a| ≤ 465 :=
  (abs_add_le _ _).trans (add_le_add (abs_sum_sub_le ha _ _ 232) (ha 700))

/-- The first three values lie within 933, and a step of the recurrence moves a value by at most 3. -/
theorem abs_liftSeq_le : ∀ i, |liftSeq a i| ≤ 931 + i
  | 0 => by
    have h0 := abs_le.mp (ha 0)
    have h2 := abs_le.mp (ha 2)
    have hs0 := abs_le.mp (abs_liftSum0_le ha)
    rw [liftSeq, abs_le]
    omega
  | 1 => by
    have h1 := abs_le.mp (ha 1)
    have hs0 := abs_le.mp (abs_liftSum0_le ha)
    have hs2 := abs_le.mp (abs_liftSum2_le ha)
    rw [liftSeq, abs_le]
    omega
  | 2 => by
    have h0 := abs_le.mp (ha 0)
    have h2 := abs_le.mp (ha 2)
    have hs2 := abs_le.mp (abs_liftSum2_le ha)
    rw [liftSeq, abs_le]
    omega
  | i + 3 => by
    have hi := abs_le.mp (abs_liftSeq_le i)
    have h1 := abs_le.mp (ha (i + 1))
    have h2 := abs_le.mp (ha (i + 2))
    have h3 := abs_le.mp (ha (i + 3))
    rw [liftSeq, abs_le]
    omega

/-- No difference of phase 3 leaves 16 bits (R192). -/
theorem abs_liftSeq_sub_last_lt {i : Nat} (hi : i < 701) : |liftSeq a i - liftSeq a 700| < 32768 := by
  have h := abs_le.mp (abs_liftSeq_le ha i)
  have h7 := abs_le.mp (abs_liftSeq_le ha 700)
  rw [abs_lt]
  omega

end

end Sys2Proof.Proofs
end

section
/-!
QLIFT (R191 to R193): its three phases for every source, and on a source in T16 form the quotient by x - 1 modulo (3, Φ(N)), as
T16 patterns, times x - 1.
-/

namespace Sys2Proof.Proofs

open Sys2Proof Sys2Proof.Machine

/-! ### The three phases -/

/-- A sum of R192 over i = 3, 6, …, 696 by the number of the triple, from 1 or from 0. -/
theorem sum_Icc_eq_sum_range (f : Nat → Coeff) : ∑ j ∈ Finset.Icc 1 232, f j = ∑ j ∈ Finset.range 232, f (j + 1) := by
  rw [Finset.range_eq_Ico, Finset.sum_Ico_add' f 0 232 1]
  rfl

theorem liftS0_eq (c : Coeffs) :
    liftS0 c = (∑ j ∈ Finset.Icc 1 232, (0 - coef c (3 * j) + coef c (3 * j + 2))) - coef c 699 := by
  rw [liftS0, sum_Icc_eq_sum_range]
  refine congrArg (· - coef c 699) (Finset.sum_congr rfl fun j _ => ?_)
  rw [zero_sub, neg_add_eq_sub]
  rfl

theorem liftS2_eq (c : Coeffs) :
    liftS2 c = (∑ j ∈ Finset.Icc 1 232, (coef c (3 * j + 1) - coef c (3 * j + 2))) + coef c 700 := by
  rw [liftS2, sum_Icc_eq_sum_range]
  rfl

theorem liftRaw_recurrence (c : Coeffs) {i : Nat} (hi : 3 ≤ i) :
    liftRaw c i = liftRaw c (i - 3) - (coef c (i - 2) + coef c (i - 1) + coef c i) := by
  obtain ⟨k, rfl⟩ := Nat.exists_eq_add_of_le' hi
  rw [liftRaw]
  rfl

/-- A register's coefficients at every position. -/
theorem coef_coeffs_eq_ite (s : State) (r : Reg) (i : Nat) : coef (s.coeffs r) i = if i < 701 then coef s.q[r] i else 0 :=
  coef_dropPadding _ i

/-- Settles O51, with `liftRaw` for o and `liftReduced` for r. -/
theorem lift : Obligations.Lift := by
  intro s qd qs
  refine ⟨decodeEncode (.qlift qd qs), _, rfl, retiredQuietly_setCoeffs s qd _, ?_⟩
  simp only [advance_setCoeffs_read, coef_withPadding]
  exact ⟨paddingZero_withPadding _, coef (s.coeffs qs), liftRaw (s.coeffs qs), coef (liftReduced (s.coeffs qs)),
    liftS0 (s.coeffs qs), liftS2 (s.coeffs qs), coef_coeffs_eq_ite s qs, liftS0_eq _, liftS2_eq _, rfl, rfl, rfl,
    fun _ hi _ => liftRaw_recurrence _ hi, fun i hi => coef_liftReduced _ i hi, coef_mulXm1_zero _,
    fun i hi => coef_mulXm1_succ _ i hi⟩

/-! ### What the result looks like, for every source -/

theorem t16Of_sub_mem : ∀ y z : ZMod 3, t16Of y - t16Of z ∈ ([0, 1, 2, 0xFFFE, 0xFFFF] : List Coeff) := by decide

/-- The product with x - 1 at every position: the coefficient before, cyclically, minus the coefficient (R165). -/
theorem coef_mulXm1 (c : Coeffs) {i : Nat} (hi : i < 701) :
    coef (mulXm1 c) i = coef c ((i + 700) % 701) - coef c i := by
  cases i with
  | zero => exact coef_mulXm1_zero c
  | succ i =>
    rw [show (i + 1 + 700) % 701 = i by omega]
    exact coef_mulXm1_succ c i (by omega)

theorem previous_lt (i : Nat) : (i + 700) % 701 < 701 := Nat.mod_lt _ (by decide)

theorem coef_liftQ_mem (c : Coeffs) {i : Nat} (hi : i < 701) :
    coef (liftQ c) i ∈ ([0, 1, 2, 0xFFFE, 0xFFFF] : List Coeff) := by
  rw [liftQ, coef_mulXm1 _ hi, coef_liftReduced _ _ (previous_lt i), coef_liftReduced _ i hi, t16_mod3, t16_mod3]
  exact t16Of_sub_mem _ _

/-! ### A source in T16 form -/

/-- The coefficients as signed numbers. -/
def signedCoef (c : Coeffs) (i : Nat) : Int := (coef c i).toInt

theorem abs_signedCoef_le {c : Coeffs} (hc : T16Form c) (i : Nat) : |signedCoef c i| ≤ 1 := by
  by_cases hi : i < 701
  · exact abs_toInt_le_one (hc i hi)
  · exact abs_toInt_le_one (.inl (coef_outside c i (by omega)))

/-- The recurrence on 16-bit patterns is that over the integers, reduced modulo 2^16. -/
theorem liftRaw_eq_intCast (c : Coeffs) (i : Nat) : liftRaw c i = (liftSeq (signedCoef c) i : Int) := by
  have hcast : (fun k => Int.castRingHom Coeff (signedCoef c k)) = coef c := funext fun _ => intCast_toInt _
  rw [liftRaw_eq_liftSeq, ← hcast]
  exact (map_liftSeq (Int.castRingHom Coeff) (signedCoef c) i).symm

/-- The list b of R191. -/
def liftDigit (c : Coeffs) (i : Nat) : ZMod 3 := (liftSeq (signedCoef c) i - liftSeq (signedCoef c) 700 : Int)

theorem coef_liftReduced_eq_t16Of {c : Coeffs} (hc : T16Form c) {i : Nat} (hi : i < 701) :
    coef (liftReduced c) i = t16Of (liftDigit c i) := by
  have hexact := abs_liftSeq_sub_last_lt (abs_signedCoef_le hc) hi
  rw [coef_liftReduced c i hi, liftRaw_eq_intCast, liftRaw_eq_intCast, ← Int.cast_sub, toInt_intCast hexact, t16_mod3, liftDigit]

/-- The reduction modulo 3 of the integer recurrence is the recurrence in GF(3). -/
theorem liftDigit_eq (c : Coeffs) (i : Nat) :
    liftDigit c i = liftSeq (fun k => (signedCoef c k : ZMod 3)) i - liftSeq (fun k => (signedCoef c k : ZMod 3)) 700 := by
  rw [liftDigit, Int.cast_sub]
  exact congrArg₂ (· - ·) (map_liftSeq (Int.castRingHom (ZMod 3)) _ i) (map_liftSeq (Int.castRingHom (ZMod 3)) _ 700)

/-- (x - 1)·b is congruent to the source modulo (3, Φ(N)) (R191). -/
theorem liftDigit_quotient {c : Coeffs} (hc : T16Form c) {i : Nat} (hi : i < 701) :
    liftDigit c ((i + 700) % 701) - liftDigit c i =
      t16Value (coef c i) + liftShift fun k => (signedCoef c k : ZMod 3) := by
  rw [liftDigit_eq, liftDigit_eq, sub_sub_sub_cancel_right, liftSeq_quotient _ hi, signedCoef, t16Value_eq_toInt (hc i hi)]

/-- Settles O52, with `liftDigit` for b. -/
theorem liftMeaning : Obligations.LiftMeaning := by
  intro s t qd qs hexec
  obtain rfl : t = (s.setCoeffs qd (liftQ (s.coeffs qs))).advance := retire_next hexec
  simp only [advance_setCoeffs_read, coef_withPadding]
  refine ⟨fun i hi => coef_liftQ_mem _ hi, sum_coef_mulXm1 _, fun hsource =>
    ⟨liftDigit (s.coeffs qs), ?top, ⟨liftShift fun k => (signedCoef (s.coeffs qs) k : ZMod 3), fun i hi => ?quotient⟩,
      fun i hi => ?result⟩⟩
  case top => rw [liftDigit, sub_self, Int.cast_zero]
  case quotient => rw [liftDigit_quotient hsource hi, coef_coeffs s qs hi]
  case result =>
    rw [liftQ, coef_mulXm1 _ hi, coef_liftReduced_eq_t16Of hsource (previous_lt i), coef_liftReduced_eq_t16Of hsource hi]

end Sys2Proof.Proofs
end

section
/-!
The byte packings: QMARSH and QUNMARSH (R195, R197, R198), QMARSH3 (R199), and the round trip of the first two (R200).
-/

namespace Sys2Proof.Proofs

open Sys2Proof Sys2Proof.Machine

/-! ### The 13-bit stream -/

theorem streamBit_field (c : Coeffs) {i k : Nat} (hi : i < 700) (hk : k < 13) :
    streamBit c (13 * i + k) = (coef c i).getLsbD k := by
  have hin : 13 * i + k < 9100 := by omega
  have hdiv : (13 * i + k) / 13 = i := by omega
  have hmod : (13 * i + k) % 13 = k := by omega
  rw [streamBit, decide_eq_true hin, Bool.true_and, hdiv, hmod]

theorem streamBit_trailing (c : Coeffs) {n : Nat} (hn : 9100 ≤ n) : streamBit c n = false := by
  rw [streamBit, decide_eq_false (by omega), Bool.false_and]

/-- Bit n of the packed bytes is bit n of the stream (R195). -/
theorem getLsbD_marshalBytes_div_mod (c : Coeffs) {n : Nat} (hn : n < 9104) :
    ((marshalBytes c).getD (n / 8) 0).getLsbD (n % 8) = streamBit c n := by
  rw [getLsbD_marshalBytes c _ _ (by omega) (Nat.mod_lt n (by decide)), Nat.div_add_mod]

/-- What QMARSH leaves in the stream. -/
theorem memoryBit_marshal (s : State) (c : Coeffs) (a : Nat) {n : Nat} (hn : n < 9104) :
    (s.memWrite a (marshalBytes c)).advance.memoryBit a n = streamBit c n := by
  have hbyte : n / 8 < (marshalBytes c).length := by rw [length_marshalBytes]; omega
  rw [State.memoryBit, advance_readByte, readByte_memWrite_inside s a _ _ hbyte, getLsbD_marshalBytes_div_mod c hn]

/-- Settles O53: one store of the packed bytes, the stream read bit by bit. -/
theorem marshal : Obligations.Marshal := by
  intro s qs imm
  refine ⟨decodeEncode (.qmarsh qs imm), fun hout => takesFault_of_exec (exec_qmarsh_fault s qs imm hout), fun hin =>
    ⟨_, exec_qmarsh_ok s qs imm hin, (retired_memWrite s _ _).1, (retired_memWrite s _ _).2, fun i hi k hk => ?fields,
      fun n hlow hhigh => ?trailing, fun a hout => ?outside⟩⟩
  case fields => rw [memoryBit_marshal s _ _ (by omega), streamBit_field _ hi hk, coef_coeffs s qs (by omega)]
  case trailing => rw [memoryBit_marshal s _ _ hhigh, streamBit_trailing _ hlow]
  case outside => rw [advance_readByte, readByte_memWrite_outside s _ _ a (by rwa [length_marshalBytes])]

/-! ### Unpacking -/

/-- Sign extension from 13 bits: bit 12 is every bit from 12 up. -/
theorem getLsbD_signExtend_field (v : BitVec 13) {k : Nat} (hk : k < 16) :
    (v.signExtend 16).getLsbD k = v.getLsbD (min k 12) := by
  rw [BitVec.getLsbD_signExtend, decide_eq_true hk, Bool.true_and]
  split
  next hlow => rw [Nat.min_eq_left (by omega)]
  next hhigh => rw [Nat.min_eq_right (by omega), BitVec.msb_eq_getLsbD_last]

theorem getLsbD_unmarshalField (bytes : List Byte) (i : Nat) {k : Nat} (hk : k < 16) :
    (unmarshalField bytes i).getLsbD k =
      (bytes.getD ((13 * i + min k 12) / 8) 0).getLsbD ((13 * i + min k 12) % 8) := by
  rw [unmarshalField, getLsbD_signExtend_field _ hk, getLsbD_bitsOf, decide_eq_true (by omega), Bool.true_and]

theorem coef_unmarshalCoeffs_top (bytes : List Byte) :
    coef (unmarshalCoeffs bytes) 700 = -∑ i ∈ Finset.range 700, coef (unmarshalCoeffs bytes) i := by
  have hfields : ∑ i ∈ Finset.range 700, coef (tabulate 700 fun i => unmarshalField bytes i) i =
      ∑ i ∈ Finset.range 700, coef (unmarshalCoeffs bytes) i :=
    Finset.sum_congr rfl fun i hi => by
      have hi := Finset.mem_range.mp hi
      rw [coef_unmarshalCoeffs bytes i hi, coef_tabulate, if_pos hi]
  rw [← hfields, ← zero_sub, unmarshalCoeffs, coef_tabulate, if_pos (by decide), if_neg (by decide)]

/-- All 701 coefficients of a packed form sum to 0 (R198). -/
theorem sum_coef_unmarshalCoeffs (bytes : List Byte) : ∑ i ∈ Finset.range 701, coef (unmarshalCoeffs bytes) i = 0 := by
  rw [Finset.sum_range_succ, coef_unmarshalCoeffs_top, add_neg_cancel]

theorem trailingBitsZero_memRead_iff (s : State) (a : Nat) :
    trailingBitsZero (s.memRead a 1138) = true ↔ s.readByte (a + 1137) &&& 0xF0 = 0 := by
  rw [trailingBitsZero, getD_memRead s a 1138 1137 (by decide), beq_iff_eq]

/-- Settles O54: one write of the unpacked coefficients and one of the mask. -/
theorem unmarshal : Obligations.Unmarshal := by
  intro s qd wk imm
  refine ⟨decodeEncode (.qunmarsh qd wk imm), fun hout => takesFault_of_exec (exec_qunmarsh_fault s qd wk imm hout), fun hin =>
    ⟨_, exec_qunmarsh_ok s qd wk imm hin, retiredQuietly_setCoeffs_setW s qd wk _ _, ?_⟩⟩
  simp only [advance_q, setW_q, setCoeffs_q, file_set_same, coef_withPadding]
  refine ⟨paddingZero_withPadding _, fun i hi k hk => ?fields, sum_coef_unmarshalCoeffs _, ?mask⟩
  case fields =>
    rw [coef_unmarshalCoeffs _ i hi, getLsbD_unmarshalField _ i hk, getD_memRead s _ _ _ (by omega), State.memoryBit]
  case mask =>
    rw [readW_advance_setW, setCoeffs_ones, maskOf_and_ones, maskOf_eq_ite s (trailingBitsZero_memRead_iff s _)]

/-! ### The base-3 packing -/

/-- The digit of R187 by the two low bits. -/
theorem toNat_mod3FromModQ (v : Coeff) : (mod3FromModQ v).toNat = digitOf v := by
  have hlow : v &&& 3 = BitVec.ofNat 16 (v.toNat % 4) := by
    apply BitVec.eq_of_toNat_eq
    rw [BitVec.toNat_and, BitVec.toNat_ofNat]
    exact (Nat.and_two_pow_sub_one_eq_mod v.toNat 2).trans (by omega)
  have htable : ∀ m < 4, (BitVec.ofNat 16 m ^^^ BitVec.ofNat 16 m >>> 1).toNat = if m = 2 then 3 else if m = 3 then 2 else m := by
    decide
  simp only [mod3FromModQ, hlow, digitOf]
  exact htable _ (Nat.mod_lt _ (by decide))

theorem toNat_marshal3Bytes (c : Coeffs) {j : Nat} (hj : j < 140) :
    ((marshal3Bytes c).getD j 0).toNat =
      (digitOf (coef c (5 * j)) + 3 * digitOf (coef c (5 * j + 1)) + 9 * digitOf (coef c (5 * j + 2)) +
        27 * digitOf (coef c (5 * j + 3)) + 81 * digitOf (coef c (5 * j + 4))) % 256 := by
  rw [marshal3Bytes, List.getD_eq_getElem?_getD, List.getElem?_map, List.getElem?_range hj, Option.map_some, Option.getD_some,
    BitVec.toNat_ofNat]
  simp only [toNat_mod3FromModQ, Nat.add_zero]

/-- Settles O55: one store of the packed bytes, digit by digit. -/
theorem marshalBase3 : Obligations.MarshalBase3 := by
  intro s qs imm
  refine ⟨decodeEncode (.qmarsh3 qs imm), fun hout => takesFault_of_exec (exec_qmarsh3_fault s qs imm hout), fun hin =>
    ⟨_, exec_qmarsh3_ok s qs imm hin, (retired_memWrite s _ _).1, (retired_memWrite s _ _).2, fun j hj => ?digits,
      fun a hout => ?outside⟩⟩
  case digits =>
    rw [advance_readByte, readByte_memWrite_inside s _ _ _ (by rwa [length_marshal3Bytes]), toNat_marshal3Bytes _ hj]
    simp (disch := omega) only [coef_coeffs]
  case outside => rw [advance_readByte, readByte_memWrite_outside s _ _ a (by rwa [length_marshal3Bytes])]

/-! ### Packing, then unpacking -/

theorem memRead_memWrite (s : State) (a : Nat) (bytes : List Byte) :
    (s.memWrite a bytes).advance.memRead a bytes.length = bytes := by
  refine List.ext_getElem (length_memRead _ _ _) fun i hi hi' => ?_
  rw [← List.getD_eq_getElem _ 0 hi, ← List.getD_eq_getElem _ 0 hi', getD_memRead _ _ _ _ hi', advance_readByte,
    readByte_memWrite_inside s a _ _ hi']

theorem memRead_marshalBytes (s : State) (a : Nat) (c : Coeffs) :
    (s.memWrite a (marshalBytes c)).advance.memRead a 1138 = marshalBytes c := by
  have h := memRead_memWrite s a (marshalBytes c)
  rwa [length_marshalBytes] at h

/-- A coefficient comes back as the sign extension of its low 13 bits (R197, R198). -/
theorem coef_unmarshal_marshal (c : Coeffs) {i : Nat} (hi : i < 700) :
    coef (unmarshalCoeffs (marshalBytes c)) i = ((coef c i).setWidth 13).signExtend 16 := by
  rw [coef_unmarshalCoeffs _ i hi]
  apply bits_ext
  intro k hk
  have hmin : min k 12 < 13 := by omega
  rw [getLsbD_unmarshalField _ i hk, getLsbD_marshalBytes_div_mod c (by omega), streamBit_field c hi hmin,
    getLsbD_signExtend_field _ hk, BitVec.getLsbD_setWidth, decide_eq_true hmin, Bool.true_and]

theorem trailingBitsZero_marshalBytes (c : Coeffs) : trailingBitsZero (marshalBytes c) = true := by
  rw [trailingBitsZero, beq_iff_eq]
  apply bits_ext
  intro j hj
  have hmask : ∀ j < 8, (0xF0 : Byte).getLsbD j = decide (4 ≤ j) := by decide
  rw [BitVec.getLsbD_and, hmask j hj, getLsbD_marshalBytes c 1137 j (by decide) hj]
  by_cases h4 : 4 ≤ j
  · rw [streamBit_trailing c (by omega), Bool.false_and]
    exact BitVec.getLsbD_zero.symm
  · rw [decide_eq_false h4, Bool.and_false]
    exact BitVec.getLsbD_zero.symm

/-- Sign extension changes no bit below 13. -/
theorem sameLow_signExtend (v : Coeff) : SameLow ((v.setWidth 13).signExtend 16) v := by
  apply bits_ext
  intro k hk
  rw [BitVec.getLsbD_setWidth, getLsbD_signExtend_field _ (by omega), Nat.min_eq_left (by omega), decide_eq_true hk,
    Bool.true_and]

theorem sameLow_unmarshal_marshal (c : Coeffs) {i : Nat} (hi : i < 700) :
    SameLow (coef (unmarshalCoeffs (marshalBytes c)) i) (coef c i) := by
  rw [coef_unmarshal_marshal c hi]
  exact sameLow_signExtend _

/-- Two lists that sum to the same and agree below 700 agree at 700. -/
theorem coef_eq_of_sum_eq {u v : Coeffs} (hsum : ∑ i ∈ Finset.range 701, coef u i = ∑ i ∈ Finset.range 701, coef v i)
    (h : ∀ i < 700, coef u i = coef v i) : ∀ i < 701, coef u i = coef v i := by
  have hbelow : ∑ i ∈ Finset.range 700, coef u i = ∑ i ∈ Finset.range 700, coef v i :=
    Finset.sum_congr rfl fun i hi => h i (Finset.mem_range.mp hi)
  rw [Finset.sum_range_succ _ 700, Finset.sum_range_succ _ 700, hbelow] at hsum
  intro i hi
  obtain hlow | rfl : i < 700 ∨ i = 700 := by omega
  · exact h i hlow
  · exact add_left_cancel hsum

/-- The exact round trip (R200). -/
theorem unmarshal_marshal {c : Coeffs} (hfields : ∀ i < 700, coef c i = ((coef c i).setWidth 13).signExtend 16)
    (hsum : ∑ i ∈ Finset.range 701, coef c i = 0) :
    ∀ i < 701, coef (unmarshalCoeffs (marshalBytes c)) i = coef c i :=
  coef_eq_of_sum_eq ((sum_coef_unmarshalCoeffs _).trans hsum.symm) fun i hi =>
    (coef_unmarshal_marshal c hi).trans (hfields i hi).symm

theorem sameLow_sum_range {f g : Nat → Coeff} {n : Nat} (h : ∀ i < n, SameLow (f i) (g i)) :
    SameLow (∑ i ∈ Finset.range n, f i) (∑ i ∈ Finset.range n, g i) := by
  induction n with
  | zero => exact .refl 0
  | succ n ih =>
    rw [Finset.sum_range_succ, Finset.sum_range_succ]
    exact (ih fun i hi => h i (by omega)).add (h n (by omega))

/-- A pattern whose low 13 bits are 0 is 0 modulo Q. -/
theorem sameLow_zero {x : Coeff} (h : x &&& 0x1FFF = 0) : SameLow x 0 := by
  have hmask : (0x1FFF : Coeff).setWidth 13 = BitVec.allOnes 13 := by decide
  rw [SameLow, ← h, BitVec.setWidth_and, hmask, BitVec.and_allOnes]

/-- A sum whose low 13 bits are 0 determines the last coefficient modulo Q (R200). -/
theorem sameLow_unmarshal_marshal_top {c : Coeffs} (hsum : (∑ i ∈ Finset.range 701, coef c i) &&& 0x1FFF = 0) :
    SameLow (coef (unmarshalCoeffs (marshalBytes c)) 700) (coef c 700) := by
  rw [Finset.sum_range_succ _ 700] at hsum
  have hbelow := sameLow_sum_range fun i hi => sameLow_unmarshal_marshal c hi
  have htop := (sameLow_zero hsum).sub (.refl (∑ i ∈ Finset.range 700, coef c i))
  rw [add_sub_cancel_left] at htop
  rw [coef_unmarshalCoeffs_top, ← zero_sub]
  exact ((SameLow.refl 0).sub hbelow).trans htop.symm

/-- The five patterns of a lift are sign extensions of their low 13 bits. -/
theorem liftQ_signExtend (c : Coeffs) {i : Nat} (hi : i < 701) :
    coef (liftQ c) i = ((coef (liftQ c) i).setWidth 13).signExtend 16 := by
  have h := coef_liftQ_mem c hi
  generalize coef (liftQ c) i = v at h ⊢
  simp only [List.mem_cons, List.not_mem_nil, or_false] at h
  obtain rfl | rfl | rfl | rfl | rfl := h
  · decide
  · decide
  · decide
  · decide
  · decide

/-- The two commands one after the other. -/
theorem unmarsh_after_marsh (s : State) (qs qd wk : Reg) (imm : BitVec 16) (hin : imm.toNat + 1138 ≤ s.params.memBytes) :
    ∃ s1 s2, exec (.qmarsh qs imm) s = .next s1 ∧ exec (.qunmarsh qd wk imm) s1 = .next s2 ∧ s2.readW wk = s.ones ∧
      ∀ i, coef s2.q[qd] i = coef (unmarshalCoeffs (marshalBytes (s.coeffs qs))) i := by
  refine ⟨_, _, exec_qmarsh_ok s qs imm hin, exec_qunmarsh_ok _ qd wk imm hin, ?mask, fun i => ?written⟩
  case mask =>
    rw [readW_advance_setW, memRead_marshalBytes, trailingBitsZero_marshalBytes, setCoeffs_ones, maskOf_and_ones,
      (maskOf_eq_ones _ _).mpr rfl, advance_ones, memWrite_ones]
  case written =>
    rw [advance_q, setW_q, setCoeffs_q, file_set_same, coef_withPadding, memRead_marshalBytes]

/-- Settles O56: the three readings of what comes back. -/
theorem marshalRoundTrip : Obligations.MarshalRoundTrip := by
  intro s qs qd wk imm hin
  obtain ⟨s1, s2, hmarsh, hunmarsh, hmask, hwritten⟩ := unmarsh_after_marsh s qs qd wk imm hin
  have hsource : ∀ i < 701, coef s.q[qs] i = coef (s.coeffs qs) i := fun i hi => (coef_coeffs s qs hi).symm
  have hsum : ∑ i ∈ Finset.range 701, coef s.q[qs] i = ∑ i ∈ Finset.range 701, coef (s.coeffs qs) i :=
    Finset.sum_congr rfl fun i hi => hsource i (Finset.mem_range.mp hi)
  refine ⟨s1, s2, hmarsh, hunmarsh, hmask, fun hfields hzero i hi => ?exact, fun i hi => ?modQ, fun hzero => ?top,
    fun c hc i hi => ?lifted⟩
  case exact =>
    rw [hwritten, hsource i hi]
    refine unmarshal_marshal (fun j hj => ?_) (hsum ▸ hzero) i hi
    rw [← hsource j (by omega)]
    exact hfields j hj
  case modQ =>
    rw [hwritten, hsource i (by omega)]
    exact sameLow_unmarshal_marshal _ hi
  case top =>
    rw [hwritten, hsource 700 (by decide)]
    exact sameLow_unmarshal_marshal_top (hsum ▸ hzero)
  case lifted =>
    rw [hwritten, hsource i hi, hc]
    exact unmarshal_marshal (fun j hj => liftQ_signExtend c (by omega)) (sum_coef_mulXm1 _) i hi

end Sys2Proof.Proofs
end

section
/-!
The conversions (R210 to R216), which act on each coefficient separately: what a pair becomes as a 16-bit pattern and what a
pattern becomes as a pair, and from these the round trips of a valid ternary register.
-/

namespace Sys2Proof.Proofs

open Sys2Proof Sys2Proof.Machine

/-! ### Binary registers -/

/-- Settles O57: one write each, read at one position. -/
theorem binaryConversions : Obligations.BinaryConversions := by
  intro s d r
  refine ⟨⟨decodeEncode (.q2b d r), _, rfl, retiredQuietly_setB s d _, fun i hi => ?bits⟩,
    ⟨decodeEncode (.b2q d r), completes_coeffs rfl fun i hi => coef_coeffsOfBits s.b[r] i hi⟩⟩
  case bits => rw [advance_setB_read, getLsbD_bitsOfCoeffs _ i hi, coef_coeffs s r hi]

/-! ### From patterns to pairs by the centred representative (R213) -/

theorem natCast_mod3 (x : Int) : ((mod3 x : Nat) : ZMod 3) = x := by
  rw [← Int.cast_natCast, mod3_eq_emod]
  exact ZMod.intCast_mod x 3

/-- The pair Q2T makes of a remainder has that remainder as its value. -/
theorem tValue_ternaryOfCoeffs (c : Coeffs) {i : Nat} (hi : i < 701) :
    tValue (ternaryOfCoeffs c) i = (centred (coef c i) : ZMod 3) := by
  have htable : ∀ m : Nat, m < 3 → pairValue (decide (m = 2)) (decide (m ≠ 0)) = (m : ZMod 3) := by decide
  rw [tValue, getLsbD_ternaryOfCoeffs_s c i hi, getLsbD_ternaryOfCoeffs_a c i hi, htable _ (mod3_lt _), natCast_mod3]

/-- Bits 15 to 13 of a coefficient are ignored. -/
theorem ternaryOfCoeffs_eq_of_sameModQ {u v : Coeffs} (h : SameModQ u v) : ternaryOfCoeffs u = ternaryOfCoeffs v :=
  eq_of_tValue (tValid_ternaryOfCoeffs u) (tValid_ternaryOfCoeffs v) fun i hi => by
    rw [tValue_ternaryOfCoeffs u hi, tValue_ternaryOfCoeffs v hi, centred, centred, h i hi]

/-- The clamp keeps a coefficient modulo Q (R163). -/
theorem sameModQ_clampQ (c : Coeffs) : SameModQ (clampQ c) c := fun i hi => by
  have hmask : (0x1FFF : Coeff).setWidth 13 = BitVec.allOnes 13 := by decide
  rw [coef_clampQ c i hi, BitVec.setWidth_and, hmask, BitVec.and_allOnes]

/-! ### From pairs to patterns (R214) -/

/-- The pattern T2Q writes for a pair, the invalid one included. -/
def patternOf : Pair → Coeff
  | .zero => 0
  | .plus => 1
  | .minus | .invalid => 0xFFFF

theorem coef_coeffsOfTernary_eq_patternOf (x : TernaryPoly) {i : Nat} (hi : i < 701) :
    coef (coeffsOfTernary x) i = patternOf (pairAt x i) := by
  have htable : ∀ s a : Bool, (if s then 0xFFFF else if a then 1 else 0) = patternOf (pairOf s a) := by decide
  rw [coef_coeffsOfTernary x i hi, htable, pairAt]

/-- Settles O58: Q2T by the values of its pairs, T2Q by the pattern of each of the four pairs. -/
theorem ternaryConversions : Obligations.TernaryConversions := by
  intro s d r
  refine ⟨⟨decodeEncode (.q2t d r), _, rfl, retiredQuietly_setT s d _, ?pairs⟩,
    ⟨decodeEncode (.t2q d r), completes_coeffs rfl fun i hi => ?patterns⟩⟩
  case pairs =>
    rw [advance_setT_read]
    refine ⟨tValid_ternaryOfCoeffs _, fun i hi => ?_⟩
    rw [tValue_ternaryOfCoeffs _ hi, coef_coeffs s r hi, centred]
  case patterns =>
    rw [coef_coeffsOfTernary_eq_patternOf _ hi]
    cases pairAt s.t[r] i with
    | zero | plus | minus | invalid => rfl

/-! ### From patterns to pairs by the two low bits (R215) -/

/-- The pair Q2TC makes of a digit of R187. -/
def pairOfDigit : Nat → Pair
  | 0 => .zero
  | 1 => .plus
  | _ => .minus

theorem digitOf_lt (v : Coeff) : digitOf v < 4 := by
  rw [digitOf]
  split
  · decide
  · split
    · decide
    · exact Nat.mod_lt _ (by decide)

theorem pairAt_checkedTernary (c : Coeffs) {i : Nat} (hi : i < 701) :
    pairAt (checkedTernary c) i = pairOfDigit (digitOf (coef c i)) := by
  have htable : ∀ d < 4, pairOf (d.testBit 1) (d.testBit 1 || d.testBit 0) = pairOfDigit d := by decide
  rw [pairAt, getLsbD_checkedTernary_s c i hi, getLsbD_checkedTernary_a c i hi, ← BitVec.testBit_toNat, ← BitVec.testBit_toNat,
    toNat_mod3FromModQ, htable _ (digitOf_lt _)]

/-- On the three patterns the mask asks for, both readings give one value. -/
theorem gf3Of_pairOfDigit {v : Coeff} (h : v = 0 ∨ v = 1 ∨ v = 0x1FFF) :
    gf3Of (pairOfDigit (digitOf v)) = (centred v : ZMod 3) := by
  obtain rfl | rfl | rfl := h
  · decide
  · decide
  · decide

/-- Where the mask is true the ternary result is that of Q2T. -/
theorem checkedTernary_eq_ternaryOfCoeffs {c : Coeffs} (h : morallyTernary c = true) :
    checkedTernary c = ternaryOfCoeffs c :=
  eq_of_tValue (tValid_checkedTernary c) (tValid_ternaryOfCoeffs c) fun i hi => by
    rw [tValue_eq_gf3Of, pairAt_checkedTernary c hi, gf3Of_pairOfDigit ((morallyTernary_iff c).mp h i hi),
      tValue_ternaryOfCoeffs c hi]

theorem morallyTernary_eq_false {c : Coeffs} (h : ∃ i < 701, coef c i ≠ 0 ∧ coef c i ≠ 1 ∧ coef c i ≠ 0x1FFF) :
    morallyTernary c = false := by
  obtain ⟨i, hi, hzero, hone, hminus⟩ := h
  refine Bool.eq_false_iff.mpr fun htrue => ?_
  obtain h | h | h := (morallyTernary_iff c).mp htrue i hi
  · exact hzero h
  · exact hone h
  · exact hminus h

/-- The two registers Q2TC writes, for the coefficients it reads. -/
theorem q2tc_completes (s : State) (td qs wk : Reg) {c : Coeffs} (hc : s.coeffs qs = c) :
    ∃ t, exec (.q2tc td qs wk) s = .next t ∧ RetiredQuietly s t [] [td] [] [wk] ∧ t.t[td] = checkedTernary c ∧
      t.readW wk = s.maskOf (morallyTernary c) := by
  subst hc
  refine ⟨_, rfl, retiredQuietly_setT_setW s td wk _ _, file_set_same s.t td _, ?_⟩
  rw [readW_advance_setW, setT_ones, maskOf_and_ones]

/-- Settles O59: the pairs by their digits, and the mask by whether `morallyTernary` holds. -/
theorem checkedConversion : Obligations.CheckedConversion := by
  intro s td qs wk
  have hread : ∀ i < 701, coef s.q[qs] i = coef (s.coeffs qs) i := fun i hi => (coef_coeffs s qs hi).symm
  obtain ⟨t, hexec, hframe, hpairs, hmask⟩ := q2tc_completes s td qs wk rfl
  refine ⟨decodeEncode (.q2tc td qs wk), t, _, hexec, rfl, hframe, ?valid, fun i hi => ?pairs, fun hall => ?accepted,
    fun hsome => ?rejected⟩
  case valid =>
    rw [hpairs]
    exact tValid_checkedTernary _
  case pairs =>
    rw [hpairs, pairAt_checkedTernary _ hi, hread i hi]
    generalize digitOf (coef (s.coeffs qs) i) = d
    match d with
    | 0 | 1 | _ + 2 => rfl
  case accepted =>
    have htrue : morallyTernary (s.coeffs qs) = true :=
      (morallyTernary_iff _).mpr fun i hi => hread i hi ▸ hall i hi
    rw [hmask, maskOf_eq_ones, hpairs, advance_setT_read]
    exact ⟨htrue, checkedTernary_eq_ternaryOfCoeffs htrue⟩
  case rejected =>
    obtain ⟨i, hi, hnone⟩ := hsome
    rw [hmask, morallyTernary_eq_false ⟨i, hi, hread i hi ▸ hnone⟩]
    rfl

/-! ### There and back (R216) -/

/-- The centred representative of a valid pair's pattern has the value of the pair. -/
theorem centred_patternOf {p : Pair} (hp : p ≠ .invalid) : (centred (patternOf p) : ZMod 3) = gf3Of p := by
  cases p with
  | invalid => exact absurd rfl hp
  | zero | plus | minus => decide

theorem ternaryOfCoeffs_coeffsOfTernary {x : TernaryPoly} (hx : tValid x = true) :
    ternaryOfCoeffs (coeffsOfTernary x) = x :=
  eq_of_tValue (tValid_ternaryOfCoeffs _) hx fun i hi => by
    rw [tValue_ternaryOfCoeffs _ hi, coef_coeffsOfTernary_eq_patternOf x hi, centred_patternOf (pairAt_ne_invalid hx hi),
      tValue_eq_gf3Of]

/-- The clamp turns the pattern 0xFFFF into 0x1FFF, which the mask asks for. -/
theorem morallyTernary_clampQ_coeffsOfTernary (x : TernaryPoly) : morallyTernary (clampQ (coeffsOfTernary x)) = true := by
  have htable : ∀ p, patternOf p &&& 0x1FFF = 0 ∨ patternOf p &&& 0x1FFF = 1 ∨ patternOf p &&& 0x1FFF = 0x1FFF
    | .zero | .plus | .minus | .invalid => by decide
  refine (morallyTernary_iff _).mpr fun i hi => ?_
  rw [coef_clampQ _ i hi, coef_coeffsOfTernary_eq_patternOf x hi]
  exact htable _

theorem checkedTernary_clampQ_coeffsOfTernary {x : TernaryPoly} (hx : tValid x = true) :
    checkedTernary (clampQ (coeffsOfTernary x)) = x := by
  rw [checkedTernary_eq_ternaryOfCoeffs (morallyTernary_clampQ_coeffsOfTernary x),
    ternaryOfCoeffs_eq_of_sameModQ (sameModQ_clampQ _), ternaryOfCoeffs_coeffsOfTernary hx]

/-- The pattern 0xFFFF itself is none of the three. -/
theorem morallyTernary_coeffsOfTernary_of_minus {x : TernaryPoly} (h : ∃ i < 701, pairAt x i = .minus) :
    morallyTernary (coeffsOfTernary x) = false := by
  obtain ⟨i, hi, hminus⟩ := h
  refine morallyTernary_eq_false ⟨i, hi, ?_⟩
  rw [coef_coeffsOfTernary_eq_patternOf x hi, hminus]
  decide

/-- Settles O60: the three sequences, on what T2Q leaves in the mod-Q register. -/
theorem conversionRoundTrips : Obligations.ConversionRoundTrips := by
  intro s t0 t1 q0 w0 hvalid
  have hwritten := advance_setCoeffs_coeffs s q0 (coeffsOfTernary s.t[t0])
  generalize hs1 : (s.setCoeffs q0 (coeffsOfTernary s.t[t0])).advance = s1 at hwritten
  have hclamped := (advance_setCoeffs_coeffs s1 q0 (clampQ (s1.coeffs q0))).trans (congrArg clampQ hwritten)
  obtain ⟨s4, hchecked, -, hpairs, hmask⟩ := q2tc_completes _ t1 q0 w0 hclamped
  obtain ⟨s5, hunclamped, -, -, hmask5⟩ := q2tc_completes s1 t1 q0 w0 hwritten
  refine ⟨s1, _, _, s4, s5, congrArg Host.Outcome.next hs1, rfl, ?back, rfl, hchecked, ?mask, ?checked, hunclamped,
    fun hminus => ?noClamp⟩
  case back => rw [advance_setT_read, hwritten, ternaryOfCoeffs_coeffsOfTernary hvalid]
  case mask =>
    rw [hmask, (maskOf_eq_ones _ _).mpr (morallyTernary_clampQ_coeffsOfTernary _), advance_ones, setCoeffs_ones, ← hs1,
      advance_ones, setCoeffs_ones]
  case checked => rw [hpairs, checkedTernary_clampQ_coeffsOfTernary hvalid]
  case noClamp =>
    rw [hmask5, morallyTernary_coeffsOfTernary_of_minus hminus]
    rfl

end Sys2Proof.Proofs
end

section
/-!
The fault causes of spec/60_exceptions.md: what raises each of them (R231 to R235, R237), and that a fault is precise (R236).
-/

namespace Sys2Proof.Proofs

open Sys2Proof Sys2Proof.Machine

/-! ### The fetch -/

/-- The second refusal of R76: a row has the opcode, and none admits the word. -/
theorem decode_illegalField_iff (c : CommandWord) :
    decode c = .error .illegalField ↔ definedOpcode c = true ∧ wellFormedWord c = false := by
  obtain ⟨_, hfield, _⟩ := decodeClassifies c
  exact hfield

/-- Outside `CMD` nothing is decoded: the fetch is refused whatever the word there is (R81, R237). -/
theorem fetch_outside {s : State} (hpc : s.params.cmdWords ≤ s.pc.toNat) : s.fetch = .error .pcRange := if_pos hpc

/-- Inside `CMD` a refusal of the decoder is the fetch's. -/
theorem fetch_of_decode_error {s : State} {e : DecodeError} (hpc : s.pc.toNat < s.params.cmdWords)
    (hdec : decode (s.readCmd s.pc.toNat) = .error e) : s.fetch = .error (decodeCause e) := by
  rw [State.fetch, if_neg (Nat.not_le.mpr hpc), hdec]

/-- The causes a fetch raises, in the order of R81: the range of `pc`, the opcode of the word there, its fields. -/
inductive FetchFault (s : State) : FaultCause → Prop
  | pcRange (hpc : s.params.cmdWords ≤ s.pc.toNat) : FetchFault s .pcRange
  | illegalOpcode (hpc : s.pc.toNat < s.params.cmdWords) (hop : definedOpcode (s.readCmd s.pc.toNat) = false) :
      FetchFault s .illegalOpcode
  | illegalField (hpc : s.pc.toNat < s.params.cmdWords) (hop : definedOpcode (s.readCmd s.pc.toNat) = true)
      (hfields : wellFormedWord (s.readCmd s.pc.toNat) = false) : FetchFault s .illegalField

theorem fetch_of_fetchFault {s : State} {c : FaultCause} (h : FetchFault s c) : s.fetch = .error c := by
  cases h with
  | pcRange hpc => exact fetch_outside hpc
  | illegalOpcode hpc hop => exact fetch_of_decode_error hpc ((decode_illegalOpcode_iff _).mpr hop)
  | illegalField hpc hop hfields => exact fetch_of_decode_error hpc ((decode_illegalField_iff _).mpr ⟨hop, hfields⟩)

/-- A fetch raises no other cause, and none of these but for its own reason. -/
theorem fetchFault_of_fetch {s : State} {c : FaultCause} (h : s.fetch = .error c) : FetchFault s c := by
  rcases Nat.lt_or_ge s.pc.toNat s.params.cmdWords with hpc | hpc
  · cases hdec : decode (s.readCmd s.pc.toNat) with
    | ok i => cases (fetch_of_decode hpc hdec).symm.trans h
    | error e =>
      cases (fetch_of_decode_error hpc hdec).symm.trans h
      cases e with
      | illegalOpcode => exact .illegalOpcode hpc ((decode_illegalOpcode_iff _).mp hdec)
      | illegalField =>
        obtain ⟨hop, hfields⟩ := (decode_illegalField_iff _).mp hdec
        exact .illegalField hpc hop hfields
  · cases (fetch_outside hpc).symm.trans h
    exact .pcRange hpc

/-- A step in RUN whose fetch is refused is fault entry with the cause of the fetch. -/
theorem step_of_fetchFault {s : State} {c : FaultCause} (hr : s.runState = .run) (h : FetchFault s c) :
    step s = .next (s.raiseFault c) ∧ Raised c s (s.raiseFault c) :=
  ⟨step_fetchFault hr (fetch_of_fetchFault h), raised_raiseFault c s⟩

/-- Settles O7: each of the three refusals of the fetch raises its cause, and the invariant bounds `pc` by CMD_WORDS. -/
theorem fetchFaults : Obligations.FetchFaults := by
  intro s hr
  refine ⟨fun hpc => ?_, fun hpc => ⟨fun hop => ?_, fun hop hfields => ?_⟩⟩
  · obtain ⟨hstep, hraised⟩ := step_of_fetchFault hr (.pcRange hpc)
    refine ⟨_, hstep, hraised, fun hinv => ?_⟩
    have hend : s.pc.toNat = s.params.cmdWords := Nat.le_antisymm hinv.pc hpc
    exact ⟨hend, hend⟩
  · exact ⟨_, step_of_fetchFault hr (.illegalOpcode hpc hop)⟩
  · exact ⟨_, step_of_fetchFault hr (.illegalField hpc hop hfields)⟩

/-! ### Every fault -/

/-- A cause is raised by the fetch, or by the command fetched. -/
inductive FaultSource (s : State) (c : FaultCause) : Prop
  | fetch (h : FetchFault s c)
  | command (i : Instr) (hfetch : s.fetch = .ok i) (h : CanFault i c)

/-- A step in RUN that ends FAULTED is fault entry: a command that halts or retires leaves another STATE. -/
theorem step_faulted {s t : State} (hr : s.runState = .run) (hstep : step s = .next t) (hend : t.runState = .faulted) :
    ∃ c, t = s.raiseFault c ∧ FaultSource s c := by
  rcases step_cases hstep with ⟨hne, _⟩ | ⟨_, c, hfetch, ht⟩ | ⟨_, i, hfetch, hexec⟩
  · exact absurd hr hne
  · exact ⟨c, ht, .fetch (fetchFault_of_fetch hfetch)⟩
  · cases ends_of_exec hexec with
    | halts _ ht => rw [ht] at hend; cases hend
    | faults c hc ht => exact ⟨c, ht, .command i hfetch hc⟩
    | retires _ u hu ht => rw [ht, advance_runState, hu.runState, hr] at hend; cases hend

/-- The opcodes of the commands that can fault, and the cause each of them raises (R234, R235). -/
theorem opcodeOf_of_canFault {i : Instr} {c : FaultCause} (h : CanFault i c) :
    (c = .memRange ∧ opcodeOf i ∈ [0x16, 0x17, 0x50, 0x51, 0x53, 0x54, 0x55]) ∨
      (c = .maskNoncanonical ∧ opcodeOf i ∈ [0x23, 0x33]) := by
  rw [opcodeOf_eq_ofTable]
  cases h with
  | ctmemeq | ctbsel | qsample | qsamplep | qmarsh | qunmarsh | qmarsh3 => exact .inl ⟨rfl, by simp [Laws.Opcode.ofTable]⟩
  | bcswap | tcswap => exact .inr ⟨rfl, by simp [Laws.Opcode.ofTable]⟩

/-- Settles O8: the state after is fault entry, whose `CAUSE` the source of the fault decides. -/
theorem faultsArePrecise : Obligations.FaultsArePrecise := by
  refine ⟨⟨rfl, rfl, rfl, rfl, rfl⟩, fun s t hr hstep hend => ?_⟩
  obtain ⟨c, rfl, hsource⟩ := step_faulted hr hstep hend
  refine ⟨⟨c, raised_raiseFault c s⟩, rfl, ?_, step_resting nofun⟩
  cases hsource with
  | fetch h =>
    cases h with
    | pcRange hpc => exact .inr (.inr (.inr (.inr ⟨rfl, hpc⟩)))
    | illegalOpcode hpc hop => exact .inl ⟨rfl, hpc, hop⟩
    | illegalField hpc hop hfields => exact .inr (.inl ⟨rfl, hpc, hop, hfields⟩)
  | command i hfetch h =>
    rcases opcodeOf_of_canFault h with ⟨rfl, hop⟩ | ⟨rfl, hop⟩
    · exact .inr (.inr (.inl ⟨rfl, i, hfetch, hop⟩))
    · exact .inr (.inr (.inr (.inl ⟨rfl, i, hfetch, hop⟩)))

end Sys2Proof.Proofs
end

section
/-!
The state the model makes for a word to run: `withFetchWord` stands for the host's load of `CMD[pc]` and its start (R257,
R258).
-/

namespace Sys2Proof.Proofs

open Sys2Proof Sys2Proof.Machine

/-! ### The word put where the next step fetches -/

/-- One word of `CMD` is written, of the bits asked for. -/
theorem withFetchWord_readCmd (s : State) (nbits w k : Nat) :
    (s.withFetchWord nbits w).readCmd k = if k = s.pc.toNat then BitVec.ofNat 32 (w % 2 ^ nbits) else s.readCmd k :=
  getD_cellLookup_cellWrite _ _ _ _ _

/-- All 32 bits of a command word are kept. -/
theorem withFetchWord_readCmd_pc (s : State) (c : CommandWord) :
    (s.withFetchWord 32 c.toNat).readCmd s.pc.toNat = c := by
  rw [withFetchWord_readCmd, if_pos rfl, Nat.mod_eq_of_lt c.isLt, BitVec.ofNat_toNat, BitVec.setWidth_eq]

theorem withFetchWord_readCmd_other (s : State) (nbits w : Nat) {k : Nat} (hk : k ≠ s.pc.toNat) :
    (s.withFetchWord nbits w).readCmd k = s.readCmd k := by
  rw [withFetchWord_readCmd, if_neg hk]

/-- Settles O6: the state is in RUN with a word at `pc` that decodes to the command, so O5 applies to it. -/
theorem fetchWordRuns : Obligations.FetchWordRuns := by
  intro s i hpc
  have hword := withFetchWord_readCmd_pc s (encode i)
  have hdec : decode ((s.withFetchWord 32 (encode i).toNat).readCmd s.pc.toNat) = .ok i := by
    rw [hword, decodeEncode i]
  exact ⟨stepRunsCommand _ i rfl hpc hdec, hword, fun _ hk => withFetchWord_readCmd_other s _ _ hk, rfl⟩

end Sys2Proof.Proofs
end
